-- ==== Sys2Proof/Word.lean ====
section
/-! DEFINITION. The block's word, byte and address types and their plainest arithmetic (00_scope.md R6, R8-R10). -/

namespace Sys2Proof

/-- A 32-bit unsigned word: H, A..E, W, a command word, a host register (R6). `+` on it wraps modulo 2^32 (R9). -/
abbrev Word := BitVec 32

/-- A byte (R8). -/
abbrev Byte := BitVec 8

/-- A 32-bit address of the external memory; arithmetic on it wraps modulo 2^32 (R6, R61). -/
abbrev Addr := BitVec 32

end Sys2Proof
end

