-- ==== Sys2Proof/Syntax.lean ====
section
/-! DEFINITION. The command words as syntax: one constructor per row of spec/opcode_table.json (30_encoding.md R97), and
the assembler's source commands (R103-R106). -/

namespace Sys2Proof

/-- The twelve commands of the opcode map (R97), with the operand each format gives it (R92-R95). -/
inductive Instr where
  /-- NOP, 0x00, format N (R154). -/
  | nop
  /-- INIT, 0x01, format N (R153). -/
  | init
  /-- LDB, 0x02, format B: the message byte (R155). -/
  | ldb (imm8 : BitVec 8)
  /-- LDM, 0x03, format N (R156). -/
  | ldm
  /-- PAD, 0x04, format N (R157). -/
  | pad
  /-- STEP, 0x05, format N (R158). -/
  | step
  /-- FIN, 0x06, format N (R159). -/
  | fin
  /-- HASH, 0x07, format N (R160). -/
  | hash
  /-- RDB, 0x08, format H: the keystream index (R180). -/
  | rdb (imm16 : BitVec 16)
  /-- ORST, 0x09, format N (R181). -/
  | orst
  /-- XORB, 0x0A, format B: the font byte (R182). -/
  | xorb (imm8 : BitVec 8)
  /-- OBF, 0x0B, format N (R183). -/
  | obf
  deriving DecidableEq, Repr

/-- The mnemonics an assembly line may begin with (R97, R103). -/
inductive Mnemonic where
  | nop | init | ldb | ldm | pad | step | fin | hash | rdb | orst | xorb | obf
  deriving DecidableEq, Repr

/-- A command as the assembler reads it, before its operand's range is checked (R103-R106): a mnemonic with at most one
numeric operand, or one of the three pseudo-instructions. -/
inductive Source where
  /-- A core command line; the literal is a plain number, which may be out of range (R104). -/
  | command (m : Mnemonic) (operand : Option Nat)
  /-- `LDS "s"` (R105). -/
  | lds (text : List Char)
  /-- `SHA1` (R106). -/
  | sha1
  /-- `DIGEST "s"` (R106). -/
  | digest (text : List Char)
  deriving DecidableEq, Repr

end Sys2Proof
end

