-- ==== Sys2Proof/WellFormed.lean ====
section
/-! DEFINITION. Which syntax is well formed: the operand checks of 30_encoding.md R92-R95, R103, R104. -/

namespace Sys2Proof

/-- A command is well formed when its operand fits its field: imm8 in 8 bits, imm16 in 16 (R95). The operand's type has
exactly the field's width, so no `Instr` fails; the checks that can fail are `Source.wellFormed`'s. -/
def Instr.wellFormed : Instr → Bool
  | .ldb imm8 => imm8.toNat ≤ 0xFF
  | .xorb imm8 => imm8.toNat ≤ 0xFF
  | .rdb imm16 => imm16.toNat ≤ 0xFFFF
  | .nop | .init | .ldm | .pad | .step | .fin | .hash | .orst | .obf => true

/-- A source command is well formed when it has an operand exactly if its mnemonic takes one (R103) and the literal is in
range: at most 255 for imm8, at most 65535 for imm16 (R104: beyond that it "is an assembly error, not a command"). -/
def Source.wellFormed : Source → Bool
  | .command .ldb (some n) => n ≤ 0xFF
  | .command .xorb (some n) => n ≤ 0xFF
  | .command .rdb (some n) => n ≤ 0xFFFF
  | .command .ldb none | .command .xorb none | .command .rdb none => false
  | .command .nop op | .command .init op | .command .ldm op | .command .pad op | .command .step op
  | .command .fin op | .command .hash op | .command .orst op | .command .obf op => op.isNone
  | .lds _ | .sha1 | .digest _ => true

end Sys2Proof
end

