-- ==== Sys2Proof/Decode.lean ====
section
/-! DEFINITION. Decoding a command word, total on all 2^32 words (30_encoding.md R90-R102), and the encoder (R108). -/

namespace Sys2Proof

/-- Why a word is ILLEGAL. Both are the one cause ILLEGAL of R201; the name says which rule rejects the word. -/
inductive IllegalWord where
  /-- Opcode 0x0C..0xFF (R99). -/
  | reservedOpcode
  /-- A valid opcode with a nonzero reserved bit (R100). -/
  | reservedBits
  deriving DecidableEq, Repr

/-- The opcode field, bits [31:24] (R91). -/
def opcodeField (w : Word) : BitVec 8 := w.extractLsb 31 24

/-- `imm8 = word[7:0]` (R95). -/
def imm8Field (w : Word) : BitVec 8 := w.extractLsb 7 0

/-- `imm16 = word[15:0]` (R95). -/
def imm16Field (w : Word) : BitVec 16 := w.extractLsb 15 0

/-- The reserved field of format N, bits [23:0] (R92). -/
def reservedN (w : Word) : BitVec 24 := w.extractLsb 23 0

/-- The reserved field of format B, bits [23:8] (R93). -/
def reservedB (w : Word) : BitVec 16 := w.extractLsb 23 8

/-- The reserved field of format H, bits [23:16] (R94). -/
def reservedH (w : Word) : BitVec 8 := w.extractLsb 23 16

/-- A format N word stands for `i` if its reserved field is 0 (R92, R98). -/
def decodeN (w : Word) (i : Instr) : Except IllegalWord Instr :=
  if reservedN w = 0 then .ok i else .error .reservedBits

/-- A format B word stands for `i imm8` if its reserved field is 0 (R93, R98). -/
def decodeB (w : Word) (i : BitVec 8 → Instr) : Except IllegalWord Instr :=
  if reservedB w = 0 then .ok (i (imm8Field w)) else .error .reservedBits

/-- A format H word stands for `i imm16` if its reserved field is 0 (R94, R98). -/
def decodeH (w : Word) (i : BitVec 16 → Instr) : Except IllegalWord Instr :=
  if reservedH w = 0 then .ok (i (imm16Field w)) else .error .reservedBits

/-- `decode(w)` of R98, by the opcode map R97: it depends on the word alone. -/
def decode (w : Word) : Except IllegalWord Instr :=
  match (opcodeField w).toNat with
  | 0x00 => decodeN w .nop
  | 0x01 => decodeN w .init
  | 0x02 => decodeB w .ldb
  | 0x03 => decodeN w .ldm
  | 0x04 => decodeN w .pad
  | 0x05 => decodeN w .step
  | 0x06 => decodeN w .fin
  | 0x07 => decodeN w .hash
  | 0x08 => decodeH w .rdb
  | 0x09 => decodeN w .orst
  | 0x0A => decodeB w .xorb
  | 0x0B => decodeN w .obf
  | _ => .error .reservedOpcode

/-- The opcode of each command (R97). -/
def opcodeOf : Instr → BitVec 8
  | .nop => 0x00
  | .init => 0x01
  | .ldb _ => 0x02
  | .ldm => 0x03
  | .pad => 0x04
  | .step => 0x05
  | .fin => 0x06
  | .hash => 0x07
  | .rdb _ => 0x08
  | .orst => 0x09
  | .xorb _ => 0x0A
  | .obf => 0x0B

/-- The low 24 bits of each command's word: the operand at its field, the reserved bits 0 (R92-R95). -/
def operandBits : Instr → BitVec 24
  | .ldb imm8 => (0 : BitVec 16) ++ imm8
  | .xorb imm8 => (0 : BitVec 16) ++ imm8
  | .rdb imm16 => (0 : BitVec 8) ++ imm16
  | .nop | .init | .ldm | .pad | .step | .fin | .hash | .orst | .obf => 0

/-- The command word: opcode shifted left by 24, with its operand (R108). -/
def encode (i : Instr) : Word := opcodeOf i ++ operandBits i

/-- The host's question about one row of spec/opcode_table.json: the command the decoder reads from a word of `nbits`
bits whose value is `w`, the bits above `nbits` being 0. A command is one 32-bit CMD write (R90), so a longer word is
none. -/
def decodeTableWord (nbits w : Nat) : Option Instr :=
  if w % 2 ^ nbits < 2 ^ 32 then
    match decode (BitVec.ofNat 32 (w % 2 ^ nbits)) with
    | .ok i => some i
    | .error _ => none
  else none

end Sys2Proof
end

