-- ==== Sys2Proof/Config.lean ====
section
/-! DEFINITION. The fixed implementation parameters of 00_scope.md R6 and the one source of free values. The PLATFORM
parameters of R7 are not here: they are plain data in State (Machine/State.lean, `Platform`), so that a statement about
every state is a statement about every platform. -/

namespace Sys2Proof.Config

/-- `MAXLEN`: the longest message, in bytes (R6). -/
abbrev maxLen : Nat := 55

/-- The number of rounds (R6). -/
abbrev rounds : Nat := 80

/-- `WINDOW`: the obfuscation window, in bytes (R6). -/
abbrev window : Nat := 1040

/-- The size of the register window, in bytes (R6). -/
abbrev windowBytes : Nat := 256

/-- The free values of the spec's "any value" and "draw" (R42, R72, R231; 93_implementation_defined.md U8, U11, U12).
It has no body, so nothing can be proved about a value of it; the n-th draw of a run is `freeWord n`, with n counted by
State's `draws`. Log entry 4. -/
opaque freeWord : Nat → Word

end Sys2Proof.Config
end

