-- ==== Sys2Proof/Machine/Datapath.lean ====
section
/-! DEFINITION. The pure functions of 40_sha1_datapath.md: rotation, constants, the block's byte view, round functions,
message scheduler, state mixer and keystream indexer. No state is read or written here. -/

namespace Sys2Proof.Machine

/-- The five working variables A..E (10_state.md R22). -/
structure Working where
  a : Word
  b : Word
  c : Word
  d : Word
  e : Word
  deriving DecidableEq, Repr

/-- The part of the state a round reads and writes: the schedule buffer and the working variables (R133). -/
structure Mixer where
  w : Vector Word 16
  v : Working
  deriving DecidableEq, Repr

/-! ### Word primitives and constants -/

/-- `rotl_k(x)` for 0 <= k < 32 (R120); at k = 0 the right shift by 32 gives 0, so it is `x`. -/
def rotl (k : Nat) (x : Word) : Word := (x <<< k) ||| (x >>> (32 - k))

/-- The initial hash value IV_0..IV_4 (R121). -/
def iv : Vector Word 5 := #v[0x67452301, 0xEFCDAB89, 0x98BADCFE, 0x10325476, 0xC3D2E1F0]

/-- A..E seeded from IV_0..IV_4 (R22, R153). -/
def ivWorking : Working := ⟨iv[0], iv[1], iv[2], iv[3], iv[4]⟩

/-- The round constants K[0..3] (R122). -/
def kTable : Vector Word 4 := #v[0x5A827999, 0x6ED9EBA1, 0x8F1BBCDC, 0xCA62C1D6]

/-- `K[t div 20]` (R123). R123 gives it for t < 80; the index is taken modulo 4 only to be total. -/
def roundConstant (t : Nat) : Word := kTable[t / 20 % 4]'(Nat.mod_lt _ (by decide))

/-! ### The byte view of the block (R124) -/

/-- How far `Byte(j)` stands above bit 0 of its word: 24 - 8*(j mod 4) (R124, most significant byte first). -/
def byteShift (j : Nat) : Nat := 24 - 8 * (j % 4)

/-- The index of the word that holds `Byte(j)`: j div 4, below 16 for a 6-bit j. -/
theorem byteWord_lt (j : BitVec 6) : j.toNat / 4 < 16 := by have := j.isLt; omega

/-- `Byte(j)` of the block buffer (R124). -/
def getByte (w : Vector Word 16) (j : BitVec 6) : Byte :=
  (w[j.toNat / 4]'(byteWord_lt j) >>> byteShift j.toNat).setWidth 8

/-- A word with the byte that stands `shift` bits up replaced by `v`, its other 24 bits unchanged (R124). -/
def putByte (x : Word) (shift : Nat) (v : Byte) : Word :=
  (x &&& ~~~((0xFF : Word) <<< shift)) ||| (v.setWidth 32 <<< shift)

/-- `Byte(j) <- v` (R124). -/
def setByte (w : Vector Word 16) (j : BitVec 6) (v : Byte) : Vector Word 16 :=
  w.set (j.toNat / 4) (putByte (w[j.toNat / 4]'(byteWord_lt j)) (byteShift j.toNat) v) (byteWord_lt j)

/-! ### Round functions (R126-R129) -/

/-- `Ch(b, c, d)` (R127). -/
def ch (b c d : Word) : Word := (b &&& c) ||| (~~~b &&& d)

/-- `Parity(b, c, d)` (R128). -/
def parity (b c d : Word) : Word := b ^^^ c ^^^ d

/-- `Maj(b, c, d)` (R129). -/
def maj (b c d : Word) : Word := (b &&& c) ||| (b &&& d) ||| (c &&& d)

/-- `f(t, b, c, d)` (R126). -/
def roundFunction (t : Nat) (b c d : Word) : Word :=
  if t < 20 then ch b c d
  else if t < 40 then parity b c d
  else if t < 60 then maj b c d
  else parity b c d

/-! ### Message scheduler (R130, R131) -/

/-- Entry `n mod 16` of the circular buffer. -/
def wAt (w : Vector Word 16) (n : Nat) : Word := w[n % 16]'(Nat.mod_lt _ (by decide))

/-- The schedule buffer as round t uses it: untouched for t < 16 (R130); from t = 16 on, entry t mod 16 is overwritten
from four entries read before the write (R131). -/
def schedule (t : Nat) (w : Vector Word 16) : Vector Word 16 :=
  if t < 16 then w
  else w.set (t % 16) (rotl 1 (wAt w (t - 3) ^^^ wAt w (t - 8) ^^^ wAt w (t - 14) ^^^ wAt w (t - 16)))
    (Nat.mod_lt _ (by decide))

/-! ### State mixer (R132-R134) -/

/-- The round sum TEMP of round t from the working variables before it and the (scheduled) buffer (R132). -/
def roundSum (t : Nat) (w : Vector Word 16) (v : Working) : Word :=
  rotl 5 v.a + roundFunction t v.b v.c v.d + v.e + roundConstant t + wAt w t

/-- The five simultaneous assignments after TEMP (R133). -/
def shiftWorking (temp : Word) (v : Working) : Working := ⟨temp, v.a, rotl 30 v.b, v.c, v.d⟩

/-- `Round(t)` (R133). -/
def round (t : Nat) (m : Mixer) : Mixer :=
  let w := schedule t m.w
  ⟨w, shiftWorking (roundSum t w m.v) m.v⟩

/-- `n` rounds in a row: Round(t), ..., Round(t + n - 1). -/
def roundsFrom (t : Nat) : Nat → Mixer → Mixer
  | 0, m => m
  | n + 1, m => roundsFrom (t + 1) n (round t m)

/-- The final addition: the addend is IV, not an earlier content of H (R134). -/
def finalSum (v : Working) : Vector Word 5 :=
  #v[iv[0] + v.a, iv[1] + v.b, iv[2] + v.c, iv[3] + v.d, iv[4] + v.e]

/-! ### Keystream indexer (R136-R141) -/

/-- `get(n) = D[n mod 20]`, with D[k] byte k of H0..H4, most significant byte of each word first (R136, R138). -/
def keystream (h : Vector Word 5) (n : Nat) : Byte :=
  (h[n % 20 / 4]'(by omega) >>> byteShift (n % 20)).setWidth 8

/-- The size of the obfuscation window of a buffer of `l` bytes: min(1040, L) (R140). -/
def windowSize (l : Nat) : Nat := min Config.window l

/-- The byte transform of R141 at index i of a buffer of `l` bytes. -/
def transformByte (h : Vector Word 5) (l i : Nat) (v : Byte) : Byte :=
  if i < windowSize l then v ^^^ keystream h i else v

end Sys2Proof.Machine
end

