-- ==== Sys2Proof/Machine/State.lean ====
section
/-! DEFINITION. The state of the block and its surroundings as plain data, the reasons a step can stop, and the state
after reset (10_state.md R20-R44, 20_memory.md R60-R62, 70_reset_and_hazards.md R230). -/

namespace Sys2Proof.Machine

/-! ### The names the state is made of -/

/-- PHASE (R26). -/
inductive Phase where
  /-- 0: message bytes may be loaded. -/
  | load
  /-- 1: block padded, rounds T..79 and the final addition pending. -/
  | compress
  /-- 2: H0..H4 hold the digest. -/
  | done
  /-- 3: an error was raised; only INIT and NOP act. -/
  | fault
  deriving DecidableEq, Repr

/-- The error causes ERR can hold (60_exceptions.md R200); codes 5..15 are never produced (U5) and have no name. -/
inductive ErrCause where
  | none | illegal | seq | length | bus
  deriving DecidableEq, Repr

/-- The kind of an engine access to external memory (R62). -/
inductive Access where
  | read | write
  deriving DecidableEq, Repr

/-- The width of a host access to the register window; only `w32` is defined (R41). -/
inductive Width where
  | w8 | w16 | w32 | w64
  deriving DecidableEq, Repr

/-- The registers of the window (R40). -/
inductive Reg where
  | cmd | status | res | len | t | oidx | src | idlen | fbase | flen
  | h (i : Fin 5)
  | a | b | c | d | e
  | w (j : Fin 16)
  deriving DecidableEq, Repr

/-- A run of addresses `base, base + 1, ...` modulo 2^32. -/
structure Region where
  base : Addr
  size : Nat
  deriving DecidableEq, Repr

/-- Addresses at which engine accesses of one kind meet a bus error (R7 `bus_error`, D15). -/
structure BusErrorRegion where
  region : Region
  kind : Access
  deriving DecidableEq, Repr

/-- The platform parameters of 00_scope.md R7 that one instance's behaviour depends on. They are an ARGUMENT of the
model: no step changes them, and a statement about every state is about every platform. -/
structure Platform where
  /-- `REG_BASE`: where the register window stands. R7 puts it in the host's address space and gives no width; that it is
  a 32-bit address is the model's choice (DESIGN CHOICE, log entry 19). -/
  regBase : Addr
  /-- Whether the window lies inside the engine's DMA reach (R68, R74: "the platform's concern"). That the engine then
  reaches it at the address REG_BASE itself is the model's choice (DESIGN CHOICE, log entry 19). -/
  windowInDma : Bool
  /-- `bus_error(addr, kind)`, as the regions where it holds (R62, D15). -/
  busErrors : List BusErrorRegion
  /-- External memory with read side effects, at which LDM and OBF must not be pointed (R67, U13). -/
  sideEffects : List Region
  /-- `host_orders_mmio_after_memory` (R71(a), D14). -/
  hostOrdersMmio : Bool
  /-- `n_instances` (R217, D22): this instance, number 0, and the others, numbered from 1 to `n_instances - 1`. The numbers
  are the model's; an instance has no identifier (R217, log entry 13). -/
  instances : Nat
  deriving DecidableEq, Repr

/-- Who makes an access to external memory that is not this instance's engine (R5, R72, R78). -/
inductive Agent where
  /-- The host, or another agent of the platform that is no SHA1-OBF engine. -/
  | plain
  /-- The engine of another instance, by its number from 1 to `n_instances - 1` (R7, R78). -/
  | peer (id : Nat)
  deriving DecidableEq, Repr

/-- Another instance with a running LDM or OBF, and the bytes that command reads or writes by R72 (R78). -/
structure Peer where
  id : Nat
  range : Region
  deriving DecidableEq, Repr

/-- One step of some agent (R5, R209: "each step is one host access or one engine completion"). -/
inductive Event where
  /-- The engine's turn: it completes the pending command, if there is one (R152). -/
  | engine
  /-- The host reads the window at REG_BASE + offset (R41, R42). -/
  | hostRead (offset : BitVec 8) (width : Width)
  /-- The host writes the window at REG_BASE + offset (R41, R43, R151). -/
  | hostWrite (offset : BitVec 8) (width : Width) (value : Word)
  /-- The host's `wait`: it reads STATUS until BUSY = 0 (R107). -/
  | hostWait
  /-- The host reads a byte of external memory (R60). -/
  | hostLoad (addr : Addr)
  /-- The host writes a byte of external memory; the write is posted and lands later (R71(a)). -/
  | hostStore (addr : Addr) (value : Byte)
  /-- The oldest posted host write to this address becomes visible (R71(a)). -/
  | postedLands (addr : Addr)
  /-- The platform's barrier: every posted host write becomes visible (R71(a)). -/
  | hostBarrier
  /-- Another agent of the platform, another instance's engine among them (R78), reads a byte of external memory. -/
  | agentLoad (agent : Agent) (addr : Addr)
  /-- Another agent writes a byte of external memory, visible to all from this event on (log entries 13 and 21). -/
  | agentStore (agent : Agent) (addr : Addr) (value : Byte)
  /-- Another instance accepts an LDM or OBF with this range (R72, R78). -/
  | peerStarts (id : Nat) (range : Region)
  /-- Another instance's running command ends (R78). -/
  | peerEnds (id : Nat)
  /-- The platform applies reset (R230, R231). -/
  | reset
  deriving DecidableEq, Repr

/-- The external memory as (address, byte) pairs in one canonical form (`Memory.wf`). -/
abbrev Memory := List Host.Cell

/-! ### The state -/

/-- Everything the spec gives the machine, and after it the surroundings one instance meets. -/
structure State where
  /-- H0..H4 (R21). -/
  h : Vector Word 5
  /-- A, B, C, D, E (R22). -/
  v : Working
  /-- W[0..15], the schedule buffer and block (R23). -/
  w : Vector Word 16
  /-- LEN, 6 bits (R24). -/
  len : BitVec 6
  /-- T, 7 bits (R25). -/
  t : BitVec 7
  /-- PHASE, 2 bits (R26). -/
  phase : Phase
  /-- OVR, 1 bit, sticky (R28). -/
  ovr : Bool
  /-- ERR, 4 bits (R29). -/
  err : ErrCause
  /-- RES, 8 bits (R30). -/
  res : Byte
  /-- OIDX, 11 bits (R31). -/
  oidx : BitVec 11
  /-- SRC (R32). -/
  src : Word
  /-- IDLEN (R33). -/
  idlen : Word
  /-- FBASE (R34). -/
  fbase : Word
  /-- FLEN (R35). -/
  flen : Word
  /-- PEND (R36): the accepted word until its completion, `none` when empty. BUSY (R27) is 1 exactly while a word is
  held, so it is the view `State.busy` of this field and has no second copy. -/
  pend : Option Word
  /-- The external memory (R61); not part of the block (R20), but the block reads and writes it. -/
  mem : Memory
  /-- The platform parameters (R7). No step changes them. -/
  platform : Platform
  /-- The model's own: the coming steps of the agents, the next first. Empty means: the engine if BUSY, else idle. -/
  schedule : List Event
  /-- The model's own: host memory writes posted and not yet visible to the engine, oldest first (R71(a)). -/
  posted : List (Addr × Byte)
  /-- The model's own: bytes that have raced since the pending command's acceptance, because another agent has written
  them in its range or another instance's command that touches them has run (R72, R78). -/
  raced : List Region
  /-- The model's own: the bytes that an OBF of this instance has written, or that a reset has left to it, and that no host
  read of STATUS with BUSY = 0 has made visible to the host and the other agents yet (R71(b), R77, log entry 18). -/
  unseen : List Addr
  /-- The model's own: the running commands of the other instances (R78). -/
  peers : List Peer
  /-- The model's own: how many free values have been drawn. -/
  draws : Nat
  /-- The model's own: what the last read of an agent returned (a register, or a byte zero-extended). -/
  readData : Word
  deriving DecidableEq, Repr

/-- BUSY (R27): 1 from the acceptance of a command until its completion. -/
def State.busy (s : State) : Bool := s.pend.isSome

/-! ### The reasons a step can stop -/

/-- No step of this machine ends in a fault: an error of a command is a next state (ERR and PHASE = FAULT, R206), and
every address is addressable (R61). So there is no fault to name. -/
inductive Fault where
  deriving DecidableEq, Repr

/-- Where the model has no transition because the spec says that a model refuses. All are safe: the model stops. -/
inductive Refusal where
  /-- An instruction without a meaning; raised by no arm of `exec` in this model. -/
  | notModelled (mnemonic : String)
  /-- A range of LDM or OBF includes the block's own register window (R74, R238); raised at the command's completion, and
  by a reset that abandons such a command. Safe. -/
  | selfAccess
  /-- A range of LDM or OBF meets memory with read side effects (U13); raised where `selfAccess` is. Safe. -/
  | readSideEffects
  /-- A sub-word, misaligned or non-32-bit host access to the window (R41, R65, U9); raised by the access. Safe. -/
  | hostAccess
  deriving DecidableEq, Repr

/-! ### Reset -/

/-- The platform of `State.reset`: a model's choice, no rule of the spec (log entry 2). -/
def Platform.plain : Platform :=
  { regBase := 0, windowInDma := false, busErrors := [], sideEffects := [], hostOrdersMmio := false,
    instances := 1 }

/-- The state right after reset on platform `p`, with nothing in memory and nothing scheduled (R230). -/
def State.resetOn (p : Platform) : State where
  h := iv
  v := ivWorking
  w := Vector.replicate 16 0
  len := 0
  t := 0
  phase := .load
  ovr := false
  err := .none
  res := 0
  oidx := 0
  src := 0
  idlen := 0
  fbase := 0
  flen := 0
  pend := none
  mem := []
  platform := p
  schedule := []
  posted := []
  raced := []
  unseen := []
  peers := []
  draws := 0
  readData := 0

/-- The state right after reset (R230). -/
def State.reset : State := State.resetOn Platform.plain

end Sys2Proof.Machine
end

