-- ==== Sys2Proof/Machine/Flags.lean ====
section
/-! DEFINITION. The status fields: their codes and the STATUS word (10_state.md R26-R29, R39; 60_exceptions.md R200), and
the phase legality of the commands (41_hash_commands.md R150). The block has no arithmetic flags (R38). -/

namespace Sys2Proof.Machine

/-- The 2-bit code of PHASE (R26). -/
def Phase.code : Phase → BitVec 2
  | .load => 0
  | .compress => 1
  | .done => 2
  | .fault => 3

/-- The 4-bit code of ERR (R200). -/
def ErrCause.code : ErrCause → BitVec 4
  | .none => 0
  | .illegal => 1
  | .seq => 2
  | .length => 3
  | .bus => 4

/-- `STATUS = zext_32(ERR ++ PHASE ++ OVR ++ BUSY)` (R39). -/
def statusWord (s : State) : Word :=
  (s.err.code ++ s.phase.code ++ BitVec.ofBool s.ovr ++ BitVec.ofBool s.busy).setWidth 32

/-- What R150's table says of a command in a phase: "yes", "SEQ" or "ignored". -/
inductive Legality where
  | yes | seq | ignored
  deriving DecidableEq, Repr

/-- The entry of a row of R150's table that is "yes" in some phases and SEQ in the others, "ignored" in FAULT. -/
def legalIn (load compress done : Bool) : Phase → Legality
  | .load => if load then .yes else .seq
  | .compress => if compress then .yes else .seq
  | .done => if done then .yes else .seq
  | .fault => .ignored

/-- The phase legality table (R150). STEP in COMPRESS needs T < 80 and FIN T = 80. -/
def legality (i : Instr) (p : Phase) (t : BitVec 7) : Legality :=
  match i with
  | .nop => .yes
  | .init => .yes
  | .ldb _ => legalIn true false false p
  | .ldm => legalIn true false false p
  | .pad => legalIn true false false p
  | .step => legalIn false (t.toNat < Config.rounds) false p
  | .fin => legalIn false (t.toNat = Config.rounds) false p
  | .hash => legalIn false true false p
  | .rdb _ => legalIn false false true p
  | .orst => legalIn true true true p
  | .xorb _ => legalIn false false true p
  | .obf => legalIn false false true p

end Sys2Proof.Machine
end

