-- ==== Sys2Proof/Machine/Operands.lean ====
section
/-! DEFINITION. The operands of the commands: implicit register operands (30_encoding.md R96), engine addresses and the
ranges a command works on (20_memory.md R61, R72), and the platform's predicates over them (R62, R67, R74). -/

namespace Sys2Proof.Machine

/-- An engine address: `(base + i) mod 2^32` (R61). -/
def engineAddr (base : Addr) (i : Nat) : Addr := base + BitVec.ofNat 32 i

/-- Whether `a` is one of the `n` addresses `base, base + 1, ...` modulo 2^32. -/
def inRange (base : Addr) (n : Nat) (a : Addr) : Bool := (a - base).toNat < n

/-- Whether `a` lies in region `r`. -/
def Region.contains (r : Region) (a : Addr) : Bool := inRange r.base r.size a

/-- `bus_error(addr, kind)` (R62). -/
def busError (p : Platform) (a : Addr) (k : Access) : Bool :=
  p.busErrors.any fun r => r.kind == k && r.region.contains a

/-- Whether the platform has another instance with this number (R7 `n_instances`, R217). -/
def hasInstance (p : Platform) (id : Nat) : Bool := decide (1 ≤ id ∧ id < p.instances)

/-- Whether the platform has this agent (R7 `n_instances`). -/
def hasAgent (p : Platform) : Agent → Bool
  | .plain => true
  | .peer id => hasInstance p id

/-- Whether `a` has raced since the pending command's acceptance (R72, R78). -/
def State.racedAt (s : State) (a : Addr) : Bool := s.raced.any fun r => r.contains a

/-- Whether `a` is a byte that a running command of another instance than `agent` touches (R72 seen from that instance,
R78). -/
def State.peerTouches (s : State) (agent : Agent) (a : Addr) : Bool :=
  s.peers.any fun p => decide (agent ≠ .peer p.id) && p.range.contains a

/-- Whether this instance's engine races for `a`: another agent has written it meanwhile, or another instance's command
that touches it runs, or has run meanwhile (R72, R78). -/
def State.contested (s : State) (a : Addr) : Bool := s.racedAt a || s.peerTouches .plain a

/-- Whether `a` is a byte whose last write by this instance is not visible to the others yet (R71(b), R77). -/
def State.unseenAt (s : State) (a : Addr) : Bool := s.unseen.contains a

/-- Whether `a` is a byte of the block's own register window inside the engine's reach, at REG_BASE (R68, R74, log
entry 19). -/
def inOwnWindow (p : Platform) (a : Addr) : Bool := p.windowInDma && inRange p.regBase Config.windowBytes a

/-- Whether `a` is memory with read side effects (R67, U13). -/
def hasSideEffects (p : Platform) (a : Addr) : Bool := p.sideEffects.any fun r => r.contains a

/-- The length operand of LDM: all 32 bits of IDLEN (R33, R156). -/
def ldmCount (s : State) : Nat := s.idlen.toNat

/-- The window of OBF: min(1040, FLEN), with all 32 bits of FLEN (R35, R183). -/
def obfCount (s : State) : Nat := windowSize s.flen.toNat

/-- Whether LDM's bytes would exceed 55: `IDLEN > 55 - LEN`, compared exactly (R156). -/
def ldmTooLong (s : State) : Bool := Config.maxLen < s.len.toNat + ldmCount s

/-- The base and the number of the bytes a command reads or writes, by the ranges of R72; other commands touch none. -/
def commandRange (i : Instr) (s : State) : Addr × Nat :=
  match i with
  | .ldm => (s.src, ldmCount s)
  | .obf => (s.fbase, obfCount s)
  | .nop | .init | .ldb _ | .pad | .step | .fin | .hash | .rdb _ | .orst | .xorb _ => (0, 0)

/-- Why a model refuses a range of `n` bytes at `base`, if it does: it includes the own window (R74) or memory with read
side effects (U13). -/
def rangeRefusal (p : Platform) (base : Addr) (n : Nat) : Option Refusal :=
  let addrs := (List.range n).map (engineAddr base)
  if addrs.any (inOwnWindow p) then some .selfAccess
  else if addrs.any (hasSideEffects p) then some .readSideEffects
  else none

end Sys2Proof.Machine
end

