-- ==== Sys2Proof/Machine/Ops.lean ====
section
/-! DEFINITION. The named operations over memory, the block buffer and the status fields that every command shares: reads
and writes of one byte (20_memory.md R61, R62), draws (R72), loading a message byte (R124, R155), raising an error
(60_exceptions.md R206), ending a command and the command cycle (41_hash_commands.md R152). -/

namespace Sys2Proof.Machine

/-! ### External memory -/

/-- What an address not listed in memory reads as. The spec gives memory no start contents; the programs of
95_test_vectors.md take "memory not listed is zero" (log entry 1). -/
def Memory.unlisted : Byte := 0

/-- The canonical form: addresses below 2^32 and strictly rising, no entry equal to what an unlisted address reads as. -/
def Memory.wf : Memory → Bool
  | [] => true
  | [c] => c.1 < 2 ^ 32 && c.2 != Memory.unlisted
  | c :: d :: m => c.1 < d.1 && c.1 < 2 ^ 32 && c.2 != Memory.unlisted && Memory.wf (d :: m)

/-- The byte at an address. -/
def Memory.read : Memory → Nat → Byte
  | [], _ => Memory.unlisted
  | c :: m, a => if c.1 = a then c.2 else Memory.read m a

/-- A cell put in front of a memory, unless it says only what an unlisted address reads as. -/
def Memory.consCell (a : Nat) (b : Byte) (m : Memory) : Memory :=
  if b = Memory.unlisted then m else (a, b) :: m

/-- The memory with byte `b` at address `a`, in canonical form again. -/
def Memory.write : Memory → Nat → Byte → Memory
  | [], a, b => Memory.consCell a b []
  | c :: m, a, b =>
    if c.1 < a then c :: Memory.write m a b
    else if c.1 = a then Memory.consCell a b m
    else Memory.consCell a b (c :: m)

/-- `Mem[a]` (R61). -/
def State.byteAt (s : State) (a : Addr) : Byte := s.mem.read a.toNat

/-- `Mem[a] <- b` (R61). -/
def State.setByteAt (s : State) (a : Addr) (b : Byte) : State := { s with mem := s.mem.write a.toNat b }

/-! ### Free values -/

/-- The next free 32-bit value. -/
def State.nextDraw (s : State) : Word := Config.freeWord s.draws

/-- The next free byte. -/
def State.nextDrawByte (s : State) : Byte := s.nextDraw.setWidth 8

/-- The state with one more free value used up. -/
def State.drawn (s : State) : State := { s with draws := s.draws + 1 }

/-! ### Engine accesses (R62, R72) -/

/-- `MemRead(addr, 1)`: `none` on a bus error (R62); a byte for which the engine races is read as any value (R72, R78). -/
def memRead (a : Addr) (s : State) : Option (Byte × State) :=
  if busError s.platform a .read then none
  else if s.contested a then some (s.nextDrawByte, s.drawn)
  else some (s.byteAt a, s)

/-- The state in which the byte at `a` has been written by the engine and is not promised to any other agent yet: R71(b)
is the whole visibility promise (R77). -/
def State.addUnseen (s : State) (a : Addr) : State := { s with unseen := a :: s.unseen }

/-- `MemWrite(addr, 1, v)`: `none` on a bus error (R62); the final value of a byte for which the engine races is any value
(R72, R78). The write is seen by the engine's own accesses at once (R70, R73) and by the others as R71(b) says. -/
def memWrite (a : Addr) (b : Byte) (s : State) : Option State :=
  if busError s.platform a .write then none
  else if s.contested a then some ((s.drawn.setByteAt a s.nextDrawByte).addUnseen a)
  else some ((s.setByteAt a b).addUnseen a)

/-! ### The block buffer -/

/-- `Byte(LEN) <- b; LEN <- LEN + 1` (R155, R156). -/
def State.loadByte (s : State) (b : Byte) : State := { s with w := setByte s.w s.len b, len := s.len + 1 }

/-- The part of the state the rounds work on. -/
def State.mixer (s : State) : Mixer := ⟨s.w, s.v⟩

/-- The state with that part replaced. -/
def State.setMixer (s : State) (m : Mixer) : State := { s with w := m.w, v := m.v }

/-- `H0..H4 <- IV + A..E; PHASE <- DONE`, the common end of FIN and HASH (R134, R159, R160). -/
def State.finalAddition (s : State) : State := { s with h := finalSum s.v, phase := .done }

/-! ### Errors and the command cycle -/

/-- `raise E` (R206): ERR and PHASE change; every write made before stays. BUSY is cleared by `finish`, as after every
command. There is no handler, no saved pc and no return but INIT and reset (R210). -/
def State.raise (s : State) (e : ErrCause) : State := { s with err := e, phase := .fault }

/-- The end of a command: BUSY <- 0, PEND empty (R152, R36). With the command over there is no byte left to race for. -/
def State.finish (s : State) : State := { s with pend := none, raced := [] }

/-- The three outcomes of this machine. -/
abbrev Result := Host.Outcome State Fault Refusal

/-- `BUSY <- 0` at the end of a command that was not refused (R152). -/
def finishResult : Result → Result
  | .next s => .next s.finish
  | .fault f => .fault f
  | .refused r => .refused r

/-- `Complete()` of R152 for a decoded command `i` whose Execute body is `body`: ignored in FAULT, SEQ where R150 does not
allow it, else the body; then BUSY <- 0. -/
def completeCommand (i : Instr) (body : State → Result) (s : State) : Result :=
  match legality i s.phase s.t with
  | .ignored => .next s.finish
  | .seq => .next (s.raise .seq).finish
  | .yes => finishResult (body s)

/-- `Complete()` of R152 for a word that decodes to ILLEGAL: ignored in FAULT, else ILLEGAL (R201). -/
def completeIllegal (s : State) : State :=
  match s.phase with
  | .fault => s.finish
  | .load | .compress | .done => (s.raise .illegal).finish

end Sys2Proof.Machine
end

