-- ==== Sys2Proof/Machine/Hashing.lean ====
section
/-! DEFINITION. The hashing commands NOP, INIT, LDB, LDM, PAD, STEP, FIN, HASH (41_hash_commands.md R153-R160). -/

namespace Sys2Proof.Machine

/-- Execute(NOP): skip (R154). -/
def nopBody (s : State) : Result := .next s

/-- NOP (R154). -/
def execNop (s : State) : Result := completeCommand .nop nopBody s

/-- The state INIT makes: a fresh hash; SRC, IDLEN, FBASE, FLEN, OVR and external memory keep their values (R153). -/
def freshHash (s : State) : State :=
  { s with
    w := Vector.replicate 16 0
    len := 0
    t := 0
    h := iv
    v := ivWorking
    oidx := 0
    res := 0
    err := .none
    phase := .load }

/-- Execute(INIT) (R153). -/
def initBody (s : State) : Result := .next (freshHash s)

/-- INIT (R153). -/
def execInit (s : State) : Result := completeCommand .init initBody s

/-- Execute(LDB): LENGTH when 55 bytes are loaded, before any write; else append the byte (R155). LEN beyond 55 is reached
by no run (R44). -/
def ldbBody (imm8 : BitVec 8) (s : State) : Result :=
  if Config.maxLen ≤ s.len.toNat then .next (s.raise .length) else .next (s.loadByte imm8)

/-- LDB (R155). -/
def execLdb (imm8 : BitVec 8) (s : State) : Result := completeCommand (.ldb imm8) (ldbBody imm8) s

/-- The loop of LDM over its `n` remaining bytes from byte j on, in increasing order; BUS stops it at the failing byte
with the earlier ones loaded and counted (R70, R156, R204). -/
def ldmLoop (base : Addr) : (n j : Nat) → State → State
  | 0, _, s => s
  | n + 1, j, s =>
    match memRead (engineAddr base j) s with
    | none => s.raise .bus
    | some (b, s') => ldmLoop base n (j + 1) (s'.loadByte b)

/-- Execute(LDM): LENGTH before any access; a range the spec says a model refuses; else the loop (R156, R74, U13). -/
def ldmBody (s : State) : Result :=
  if ldmTooLong s then .next (s.raise .length)
  else
    match rangeRefusal s.platform s.src (ldmCount s) with
    | some r => .refused r
    | none => .next (ldmLoop s.src (ldmCount s) 0 s)

/-- LDM (R156). -/
def execLdm (s : State) : Result := completeCommand .ldm ldmBody s

/-- The state PAD makes: `Byte(LEN) <- 0x80; W[15] <- 8 * LEN; PHASE <- COMPRESS` (R157). -/
def padBlock (s : State) : State :=
  { s with
    w := (setByte s.w s.len 0x80).set 15 (BitVec.ofNat 32 (8 * s.len.toNat))
    phase := .compress }

/-- Execute(PAD) (R157). -/
def padBody (s : State) : Result := .next (padBlock s)

/-- PAD (R157). -/
def execPad (s : State) : Result := completeCommand .pad padBody s

/-- `Round(T); T <- T + 1` (R133, R158). -/
def stepRound (s : State) : State := { s.setMixer (round s.t.toNat s.mixer) with t := s.t + 1 }

/-- Execute(STEP): one round; PHASE stays COMPRESS (R158). -/
def stepBody (s : State) : Result := .next (stepRound s)

/-- STEP (R158). -/
def execStep (s : State) : Result := completeCommand .step stepBody s

/-- Execute(FIN): the final addition; A..E, T and W are left as they are (R159). -/
def finBody (s : State) : Result := .next s.finalAddition

/-- FIN (R159). -/
def execFin (s : State) : Result := completeCommand .fin finBody s

/-- `n` rounds, each followed by T <- T + 1. -/
def stepRounds : Nat → State → State
  | 0, s => s
  | n + 1, s => stepRounds n (stepRound s)

/-- Execute(HASH): every remaining round while T < 80, then the final addition (R160). -/
def hashBody (s : State) : Result := .next (stepRounds (Config.rounds - s.t.toNat) s).finalAddition

/-- HASH (R160). -/
def execHash (s : State) : Result := completeCommand .hash hashBody s

end Sys2Proof.Machine
end

