-- ==== Sys2Proof/Machine/Obfuscator.lean ====
section
/-! DEFINITION. The keystream and obfuscator commands RDB, ORST, XORB, OBF (42_obfuscator_commands.md R180-R183). -/

namespace Sys2Proof.Machine

/-- Execute(RDB): `RES <- get(imm16)` (R180). -/
def rdbBody (imm16 : BitVec 16) (s : State) : Result := .next { s with res := keystream s.h imm16.toNat }

/-- RDB (R180). -/
def execRdb (imm16 : BitVec 16) (s : State) : Result := completeCommand (.rdb imm16) (rdbBody imm16) s

/-- Execute(ORST): `OIDX <- 0` (R181). -/
def orstBody (s : State) : Result := .next { s with oidx := 0 }

/-- ORST (R181). -/
def execOrst (s : State) : Result := completeCommand .orst orstBody s

/-- Execute(XORB): inside the window the byte is XORed with get(OIDX) and OIDX advances; from 1040 on it passes unchanged
(R182). -/
def xorbBody (imm8 : BitVec 8) (s : State) : Result :=
  if s.oidx.toNat < Config.window then
    .next { s with res := imm8 ^^^ keystream s.h s.oidx.toNat, oidx := s.oidx + 1 }
  else .next { s with res := imm8 }

/-- XORB (R182). -/
def execXorb (imm8 : BitVec 8) (s : State) : Result := completeCommand (.xorb imm8) (xorbBody imm8) s

/-- Byte i of OBF: read it, then write it XORed with get(i); `none` on a bus error of either access (R70, R183). A byte
that fails keeps its value: nothing is written on a read error, and a write error means no write (R183). -/
def obfByte (base : Addr) (i : Nat) (s : State) : Option State :=
  match memRead (engineAddr base i) s with
  | none => none
  | some (v, s') => memWrite (engineAddr base i) (v ^^^ keystream s.h i) s'

/-- The loop of OBF over its `n` remaining bytes from byte i on, in increasing order; BUS stops it at the failing byte
with the earlier ones transformed (R183, R204). Its writes are visible to the host and the other agents once a host has
read STATUS with BUSY = 0 (R71(b)); what an access of theirs meets before that is open (log entry 18). -/
def obfLoop (base : Addr) : (n i : Nat) → State → State
  | 0, _, s => s
  | n + 1, i, s =>
    match obfByte base i s with
    | none => s.raise .bus
    | some s' => obfLoop base n (i + 1) s'

/-- Execute(OBF): a range the spec says a model refuses; else the loop over min(1040, FLEN) bytes (R183, R74, U13). -/
def obfBody (s : State) : Result :=
  match rangeRefusal s.platform s.fbase (obfCount s) with
  | some r => .refused r
  | none => .next (obfLoop s.fbase (obfCount s) 0 s)

/-- OBF (R183). -/
def execObf (s : State) : Result := completeCommand .obf obfBody s

end Sys2Proof.Machine
end

