-- ==== Sys2Proof/Machine/Dispatch.lean ====
section
/-! DEFINITION. The meaning of every command: one arm per constructor of Instr (30_encoding.md R97). -/

namespace Sys2Proof.Machine

/-- The completion of a decoded command (R152): R150's checks, its Execute body, BUSY <- 0. -/
def exec (i : Instr) (s : State) : Host.Outcome State Fault Refusal :=
  match i with
  | .nop => Sys2Proof.Machine.execNop s
  | .init => Sys2Proof.Machine.execInit s
  | .ldb imm8 => Sys2Proof.Machine.execLdb imm8 s
  | .ldm => Sys2Proof.Machine.execLdm s
  | .pad => Sys2Proof.Machine.execPad s
  | .step => Sys2Proof.Machine.execStep s
  | .fin => Sys2Proof.Machine.execFin s
  | .hash => Sys2Proof.Machine.execHash s
  | .rdb imm16 => Sys2Proof.Machine.execRdb imm16 s
  | .orst => Sys2Proof.Machine.execOrst s
  | .xorb imm8 => Sys2Proof.Machine.execXorb imm8 s
  | .obf => Sys2Proof.Machine.execObf s

end Sys2Proof.Machine
end

