-- ==== Sys2Proof/Machine/Window.lean ====
section
/-! DEFINITION. The register window as the host reads and writes it: the register map, reads, writes and the acceptance of
a command (10_state.md R39-R43, 41_hash_commands.md R151). -/

namespace Sys2Proof.Machine

/-- The register at each aligned offset of the window; every other offset is unmapped (R40). -/
def regAt (offset : BitVec 8) : Option Reg :=
  match offset.toNat with
  | 0x00 => some .cmd
  | 0x04 => some .status
  | 0x08 => some .res
  | 0x0C => some .len
  | 0x10 => some .t
  | 0x14 => some .oidx
  | 0x18 => some .src
  | 0x1C => some .idlen
  | 0x20 => some .fbase
  | 0x24 => some .flen
  | 0x40 => some (.h 0)
  | 0x44 => some (.h 1)
  | 0x48 => some (.h 2)
  | 0x4C => some (.h 3)
  | 0x50 => some (.h 4)
  | 0x60 => some .a
  | 0x64 => some .b
  | 0x68 => some .c
  | 0x6C => some .d
  | 0x70 => some .e
  | 0x80 => some (.w 0)
  | 0x84 => some (.w 1)
  | 0x88 => some (.w 2)
  | 0x8C => some (.w 3)
  | 0x90 => some (.w 4)
  | 0x94 => some (.w 5)
  | 0x98 => some (.w 6)
  | 0x9C => some (.w 7)
  | 0xA0 => some (.w 8)
  | 0xA4 => some (.w 9)
  | 0xA8 => some (.w 10)
  | 0xAC => some (.w 11)
  | 0xB0 => some (.w 12)
  | 0xB4 => some (.w 13)
  | 0xB8 => some (.w 14)
  | 0xBC => some (.w 15)
  | _ => none

/-- Where each register stands in the window (R40). -/
def regOffset : Reg → BitVec 8
  | .cmd => 0x00
  | .status => 0x04
  | .res => 0x08
  | .len => 0x0C
  | .t => 0x10
  | .oidx => 0x14
  | .src => 0x18
  | .idlen => 0x1C
  | .fbase => 0x20
  | .flen => 0x24
  | .h i => 0x40 + 4 * BitVec.ofNat 8 i.val
  | .a => 0x60
  | .b => 0x64
  | .c => 0x68
  | .d => 0x6C
  | .e => 0x70
  | .w j => 0x80 + 4 * BitVec.ofNat 8 j.val

/-- The host address of a window offset (R40), as wide as REG_BASE (log entry 19). -/
def hostAddress (p : Platform) (offset : BitVec 8) : Addr := p.regBase + offset.setWidth 32

/-- Whether a host access is defined: 32 bits wide, at an offset that is a multiple of 4 (R41, R65). -/
def hostAccessDefined (offset : BitVec 8) (width : Width) : Bool :=
  decide (width = .w32) && offset.toNat % 4 == 0

/-- The true value of a register (R39, R40): the narrow registers zero-extended, CMD reading 0. -/
def regValue (s : State) : Reg → Word
  | .cmd => 0
  | .status => statusWord s
  | .res => s.res.setWidth 32
  | .len => s.len.setWidth 32
  | .t => s.t.setWidth 32
  | .oidx => s.oidx.setWidth 32
  | .src => s.src
  | .idlen => s.idlen
  | .fbase => s.fbase
  | .flen => s.flen
  | .h i => s.h[i.val]
  | .a => s.v.a
  | .b => s.v.b
  | .c => s.v.c
  | .d => s.v.d
  | .e => s.v.e
  | .w j => s.w[j.val]

/-- The registers whose reads return an unspecified value while BUSY = 1 (R42). -/
def unspecifiedWhileBusy : Reg → Bool
  | .res | .len | .t | .oidx | .h _ | .a | .b | .c | .d | .e | .w _ => true
  | .cmd | .status | .src | .idlen | .fbase | .flen => false

/-- Whether a read of `r` is the one of R71(b): it returns STATUS with BUSY = 0, after which every memory write of a command
is visible to the host and to every other agent. -/
def makesWritesVisible (r : Reg) (s : State) : Bool := decide (r = .status) && !s.busy

/-- A defined host read (R41, R42): 0 at an unmapped offset; a fresh free value where R42 leaves the value open; else the
true value. It changes no register (R67); a read of STATUS with BUSY = 0 makes the engine's writes visible (R71(b)). -/
def readWindow (offset : BitVec 8) (s : State) : State :=
  match regAt offset with
  | none => { s with readData := 0 }
  | some r =>
    if s.busy && unspecifiedWhileBusy r then { s.drawn with readData := s.nextDraw }
    else { s with readData := regValue s r, unseen := if makesWritesVisible r s then [] else s.unseen }

/-- Whether a word is INIT's (R151). -/
def isInitWord (w : Word) : Bool :=
  match decode w with
  | .ok .init => true
  | _ => false

/-- The acceptance of a word while BUSY = 0: `PEND <- w; BUSY <- 1`, and INIT clears OVR (R151). -/
def accept (w : Word) (s : State) : State :=
  { s with pend := some w, ovr := if isInitWord w then false else s.ovr }

/-- The registers a host can write (R40). -/
def writable : Reg → Bool
  | .cmd | .src | .idlen | .fbase | .flen => true
  | .status | .res | .len | .t | .oidx | .h _ | .a | .b | .c | .d | .e | .w _ => false

/-- A write to a register while BUSY = 0 (R43): CMD accepts, the operand registers store, the others ignore (R41). -/
def writeReg (r : Reg) (value : Word) (s : State) : State :=
  match r with
  | .cmd => accept value s
  | .src => { s with src := value }
  | .idlen => { s with idlen := value }
  | .fbase => { s with fbase := value }
  | .flen => { s with flen := value }
  | .status | .res | .len | .t | .oidx | .h _ | .a | .b | .c | .d | .e | .w _ => s

/-- A defined host write (R41, R43): ignored at an unmapped offset and at a read-only register; while BUSY = 1 a write to
a writable register is dropped and sets OVR; else it takes effect. -/
def writeWindow (offset : BitVec 8) (value : Word) (s : State) : State :=
  match regAt offset with
  | none => s
  | some r =>
    if s.busy then { s with ovr := s.ovr || writable r }
    else writeReg r value s

end Sys2Proof.Machine
end

