-- ==== Sys2Proof/Machine/Environment.lean ====
section
/-! DEFINITION. What the platform and the other agents do: accesses to external memory and their races with the pending
command (20_memory.md R70-R73, R78), the host's posted writes (R71(a)), and reset (70_reset_and_hazards.md R230, R231). -/

namespace Sys2Proof.Machine

/-- The command the engine is to complete, if a word is pending and is no ILLEGAL one. -/
def pendingCommand (s : State) : Option Instr :=
  match s.pend with
  | none => none
  | some w =>
    match decode w with
    | .ok i => some i
    | .error _ => none

/-- Whether an access of another agent to `a` is a race: a command is pending and `a` is in its range (R72). -/
def races (s : State) (a : Addr) : Bool :=
  match pendingCommand s with
  | none => false
  | some i => inRange (commandRange i s).1 (commandRange i s).2 a

/-- Whether the spec leaves open what an access of `agent` to `a` gives or leaves: it races with a running command, of this
instance or of another one (R72, R78), or the byte is one whose last write by this instance no host read of STATUS with
BUSY = 0 has made visible (R71(b), R77, log entry 18). -/
def accessOpen (s : State) (agent : Agent) (a : Addr) : Bool := races s a || s.peerTouches agent a || s.unseenAt a

/-- A read of one byte by an agent other than the engine: any byte where that is open (R72, R71(b)), else the byte in
memory. -/
def otherLoad (agent : Agent) (a : Addr) (s : State) : State :=
  if accessOpen s agent a then { s.drawn with readData := s.nextDrawByte.setWidth 32 }
  else { s with readData := (s.byteAt a).setWidth 32 }

/-- The state in which the engine races for the bytes of `r` until the pending command ends (R72). -/
def State.addRaced (s : State) (r : Region) : State := { s with raced := r :: s.raced }

/-- A write of one byte by an agent other than the engine: where it races, the byte's value is any value, and where it
races with the pending command the engine's later access to it races too (R72). The spec does not order it after a write of
this instance's engine that is not visible yet, so there too the value is any value (log entry 18); else it is written. What is written is seen by the engine, the host
and every other agent from this event on, all at one moment. For an agent that is neither the host nor an instance R72
leaves this to the platform's own rules (DESIGN CHOICE, log entry 21; the host's writes are log entry 6, the other
instances' log entry 13). -/
def otherStore (agent : Agent) (a : Addr) (b : Byte) (s : State) : State :=
  if races s a then (s.drawn.setByteAt a s.nextDrawByte).addRaced { base := a, size := 1 }
  else if accessOpen s agent a then s.drawn.setByteAt a s.nextDrawByte
  else s.setByteAt a b

/-- Another instance's running command ends. Where a command is pending here the two have run at the same time, so the
engine goes on racing for the bytes it touched (R72, R78). -/
def endPeer (id : Nat) (s : State) : State :=
  { s with
    raced := if s.busy then (s.peers.filter fun p => p.id == id).map (·.range) ++ s.raced else s.raced
    peers := s.peers.filter fun p => p.id != id }

/-- Another instance accepts an LDM or OBF that touches `range`; it works on one command at a time (R5, R78). -/
def startPeer (id : Nat) (range : Region) (s : State) : State :=
  let ended := endPeer id s
  { ended with peers := { id := id, range := range } :: ended.peers }

/-- An act of `agent`: an agent the platform does not have makes none, so nothing happens (R7 `n_instances`, R217). -/
def actOf (agent : Agent) (act : State → State) (s : State) : State :=
  if hasAgent s.platform agent then act s else s

/-- The newest posted write to `a`, if there is one. -/
def postedByte (s : State) (a : Addr) : Option Byte :=
  (s.posted.reverse.find? fun c => c.1 == a).map (·.2)

/-- The host's read of one byte: any byte where that is open, as for any agent; else the host sees its own posted write, or
memory (log entry 6). -/
def hostLoad (a : Addr) (s : State) : State :=
  match postedByte s a with
  | none => otherLoad .plain a s
  | some b => if accessOpen s .plain a then otherLoad .plain a s else { s with readData := b.setWidth 32 }

/-- The host's write of one byte: it is posted, and becomes visible when it lands (R71(a), log entry 6). The landing is the
access that can race by R72, so a write posted while BUSY = 1 that lands after the completion races with nothing: the
spec does not say which moment counts (DESIGN CHOICE, log entry 20). -/
def hostStore (a : Addr) (b : Byte) (s : State) : State := { s with posted := s.posted ++ [(a, b)] }

/-- The oldest posted write to `a` becomes visible; nothing happens where there is none. This is the moment at which the
host's write counts as an access (R72, DESIGN CHOICE, log entry 20). -/
def landOne (a : Addr) (s : State) : State :=
  match s.posted.find? fun c => c.1 == a with
  | none => s
  | some c => otherStore .plain c.1 c.2 { s with posted := s.posted.eraseP fun c => c.1 == a }

/-- Posted writes become visible one after the other, oldest first. -/
def landList : List (Addr × Byte) → State → State
  | [], s => s
  | c :: rest, s => landList rest (otherStore .plain c.1 c.2 s)

/-- Every posted host write becomes visible: the platform's barrier (R71(a)). -/
def landAll (s : State) : State := landList s.posted { s with posted := [] }

/-- What a platform with `host_orders_mmio_after_memory` does before the host's write to the window: its earlier memory
writes become visible (R71(a)). A platform without it does nothing. -/
def orderBeforeMmio (s : State) : State := if s.platform.hostOrdersMmio then landAll s else s

/-- Why the pending command would be refused at its completion, if it would (R74, U13): only a command that R150 lets
execute and that LENGTH does not stop accesses its range. -/
def pendingRefusal (s : State) : Option Refusal :=
  match pendingCommand s with
  | some .ldm =>
    if legality .ldm s.phase s.t = .yes ∧ ldmTooLong s = false then rangeRefusal s.platform s.src (ldmCount s) else none
  | some .obf =>
    if legality .obf s.phase s.t = .yes then rangeRefusal s.platform s.fbase (obfCount s) else none
  | _ => none

/-- Byte i of an abandoned OBF: its old or its transformed value, as the next free value decides; any value where the engine
raced for it (R231, R72, R78). Which of the two it is, is fixed from the reset on, and visible to the host and the other
agents once a host has read STATUS with BUSY = 0: R231 says neither, and the model takes R71(b), as for a command that
completes (DESIGN CHOICE, log entry 18). -/
def abandonByte (base : Addr) (i : Nat) (s : State) : State :=
  let a := engineAddr base i
  if s.contested a then (s.drawn.setByteAt a s.nextDrawByte).addUnseen a
  else if s.nextDraw.getLsbD 0 then (s.drawn.setByteAt a (s.byteAt a ^^^ keystream s.h i)).addUnseen a
  else s.drawn.addUnseen a

/-- The bytes of an abandoned OBF, from byte i on. -/
def abandonLoop (base : Addr) : (n i : Nat) → State → State
  | 0, _, s => s
  | n + 1, i, s => abandonLoop base n (i + 1) (abandonByte base i s)

/-- What a reset does to external memory: nothing, but for an OBF it abandons (R230, R231), whose bytes are fixed
at the reset and visible to the other agents as `abandonByte` says (DESIGN CHOICE, log entry 18). An OBF that R150 does not
let execute writes no memory (R202), so abandoning it writes none. -/
def abandonPending (s : State) : State :=
  match pendingCommand s with
  | some .obf => if legality .obf s.phase s.t = .yes then abandonLoop s.fbase (obfCount s) 0 s else s
  | _ => s

/-- Every register of the block at its reset value; external memory, which of its bytes are not visible yet, the platform
and what belongs to the other agents as they are (R230, log entries 14 and 18). -/
def resetBlock (s : State) : State :=
  { State.resetOn s.platform with
    mem := s.mem
    schedule := s.schedule
    posted := s.posted
    unseen := s.unseen
    peers := s.peers
    draws := s.draws
    readData := s.readData }

/-- The platform's reset (R230, R231). Where the command it abandons is one a model refuses, its effects so far are not
defined, and the reset is refused too. -/
def applyReset (s : State) : Result :=
  match pendingRefusal s with
  | some r => .refused r
  | none => .next (resetBlock (abandonPending s))

end Sys2Proof.Machine
end

