-- ==== Sys2Proof/Machine/Engine.lean ====
section
/-! DEFINITION. The engine's turn and the steps of the other agents (41_hash_commands.md R152, 60_exceptions.md R209). -/

namespace Sys2Proof.Machine

/-- `Complete()` of R152 for the word the latch holds. -/
def completeWord (w : Word) (s : State) : Result :=
  match decode w with
  | .ok i => exec i s
  | .error _ => .next (completeIllegal s)

/-- The engine's turn: enabled exactly when BUSY = 1 (R152); with BUSY = 0 the block is idle (R219). -/
def engineTurn (s : State) : Result :=
  match s.pend with
  | none => .next s
  | some w => completeWord w s

/-- The host's `wait` (R107): while BUSY = 1 it keeps waiting and the engine has its turn (weak fairness, R240; the polls
in between change nothing, R67); with BUSY = 0 its last read of STATUS ends it. -/
def waitTurn (s : State) : Result :=
  match s.pend with
  | none => .next (readWindow (regOffset .status) s)
  | some w => completeWord w { s with schedule := .hostWait :: s.schedule }

/-- One step of the agent whose turn it is. -/
def perform (e : Event) (s : State) : Result :=
  match e with
  | .engine => engineTurn s
  | .hostRead offset width =>
    if hostAccessDefined offset width then .next (readWindow offset s) else .refused .hostAccess
  | .hostWrite offset width value =>
    if hostAccessDefined offset width then .next (writeWindow offset value (orderBeforeMmio s)) else .refused .hostAccess
  | .hostWait => waitTurn s
  | .hostLoad addr => .next (hostLoad addr s)
  | .hostStore addr value => .next (hostStore addr value s)
  | .postedLands addr => .next (landOne addr s)
  | .hostBarrier => .next (landAll s)
  | .agentLoad agent addr => .next (actOf agent (otherLoad agent addr) s)
  | .agentStore agent addr value => .next (actOf agent (otherStore agent addr value) s)
  | .peerStarts id range => .next (actOf (.peer id) (startPeer id range) s)
  | .peerEnds id => .next (actOf (.peer id) (endPeer id) s)
  | .reset => applyReset s

/-- The next step: the agent the schedule names; with an empty schedule the engine, if a command is pending. -/
def stepScheduled (s : State) : Result :=
  match s.schedule with
  | [] => engineTurn s
  | e :: rest => perform e { s with schedule := rest }

/-- The schedule with the engine's turn next; an empty schedule already means that. -/
def engineFirst : List Event → List Event
  | [] => []
  | e :: rest => .engine :: e :: rest

/-- The state after the host has written the command word to CMD with BUSY = 0, the engine's turn next. -/
def submitted (w : Word) (s : State) : State := accept w { s with raced := [], schedule := engineFirst s.schedule }

end Sys2Proof.Machine
end

