-- ==== Sys2Proof/Machine/Step.lean ====
section
/-! DEFINITION. One step of the machine, and the submission of a command word (60_exceptions.md R209; 30_encoding.md R90). -/

namespace Sys2Proof.Machine

/-- One step: one host access, one completion by the engine, or one act of the platform or another agent (R5, R209). -/
def step (s : State) : Host.Outcome State Fault Refusal := stepScheduled s

/-- The state with a command word of `nbits` bits, numbered as spec/opcode_table.json numbers them, in the latch PEND
from which the engine takes its command: what the host's accepted write to CMD leaves (R90, R151), the engine next.
There is no memory from which commands are fetched (R76). -/
def State.withFetchWord (s : State) (nbits w : Nat) : State := submitted (BitVec.ofNat 32 (w % 2 ^ nbits)) s

end Sys2Proof.Machine
end

