-- ==== Sys2Proof/Machine/Assembler.lean ====
section
/-! DEFINITION. The assembler's lines, its pseudo-instructions and the host program notation (30_encoding.md R103-R108). -/

namespace Sys2Proof.Machine

/-! ### Lexing one line (R103, R104) -/

/-- What a line is made of: a bare word, a double-quoted string, a single-quoted character. -/
inductive Token where
  | word (cs : List Char)
  | str (cs : List Char)
  | chr (c : Char)
  deriving DecidableEq, Repr

/-- Where the lexer stands; the characters of an open token come newest first. -/
inductive LexMode where
  | gap
  | word (rev : List Char)
  | str (rev : List Char)
  | quote
  | quoted (c : Char)
  | comment
  deriving DecidableEq, Repr

/-- The lexer between two characters; tokens newest first. -/
structure Lexer where
  mode : LexMode
  out : List Token
  deriving DecidableEq, Repr

/-- The semicolon that starts a comment (R103). -/
def semicolon : Char := Char.ofNat 0x3B

/-- The double quote around a string (R105). -/
def doubleQuote : Char := Char.ofNat 0x22

/-- The single quote around a character (R104). -/
def singleQuote : Char := Char.ofNat 0x27

/-- One character read; `none` is an assembly error. -/
def lexChar (l : Lexer) (c : Char) : Option Lexer :=
  match l.mode with
  | .comment => some l
  | .str rev =>
    if c = doubleQuote then some ⟨.gap, .str rev.reverse :: l.out⟩ else some ⟨.str (c :: rev), l.out⟩
  | .quote => some ⟨.quoted c, l.out⟩
  | .quoted d => if c = singleQuote then some ⟨.gap, .chr d :: l.out⟩ else none
  | .gap =>
    if c = semicolon then some ⟨.comment, l.out⟩
    else if c = doubleQuote then some ⟨.str [], l.out⟩
    else if c = singleQuote then some ⟨.quote, l.out⟩
    else if c.isWhitespace then some l
    else some ⟨.word [c], l.out⟩
  | .word rev =>
    if c = semicolon then some ⟨.comment, .word rev.reverse :: l.out⟩
    else if c = doubleQuote ∨ c = singleQuote then none
    else if c.isWhitespace then some ⟨.gap, .word rev.reverse :: l.out⟩
    else some ⟨.word (c :: rev), l.out⟩

/-- The tokens of a line at its end; an open string or character is an assembly error. -/
def lexEnd (l : Lexer) : Option (List Token) :=
  match l.mode with
  | .gap | .comment => some l.out.reverse
  | .word rev => some (.word rev.reverse :: l.out).reverse
  | .str _ | .quote | .quoted _ => none

/-- The characters of a line, one after the other. -/
def lexFrom : List Char → Lexer → Option (List Token)
  | [], l => lexEnd l
  | c :: cs, l =>
    match lexChar l c with
    | none => none
    | some l' => lexFrom cs l'

/-- The tokens of a line. -/
def lexLine (line : List Char) : Option (List Token) := lexFrom line ⟨.gap, []⟩

/-! ### Parsing one line (R103-R106) -/

/-- The value of a digit in bases up to 16. -/
def digitValue (c : Char) : Option Nat :=
  let n := c.toNat
  if 0x30 ≤ n ∧ n ≤ 0x39 then some (n - 0x30)
  else if 0x41 ≤ n ∧ n ≤ 0x46 then some (n - 0x41 + 10)
  else if 0x61 ≤ n ∧ n ≤ 0x66 then some (n - 0x61 + 10)
  else none

/-- The number that digits in a base stand for, after those read so far. -/
def digitsValue (base : Nat) : List Char → Nat → Option Nat
  | [], acc => some acc
  | c :: cs, acc =>
    match digitValue c with
    | none => none
    | some d => if d < base then digitsValue base cs (acc * base + d) else none

/-- A decimal number, or a hexadecimal one with prefix 0x (R104). -/
def numberValue : List Char → Option Nat
  | [] => none
  | '0' :: 'x' :: c :: cs => digitsValue 16 (c :: cs) 0
  | c :: cs => digitsValue 10 (c :: cs) 0

/-- The value of an operand literal: a number, or the code of one ASCII character (R104). -/
def literalValue : Token → Option Nat
  | .word cs => numberValue cs
  | .chr c => if c.toNat < 128 then some c.toNat else none
  | .str _ => none

/-- The mnemonics by their lower-case names (R97, R103: case-insensitive). -/
def mnemonicNamed : List Char → Option Mnemonic
  | ['n', 'o', 'p'] => some .nop
  | ['i', 'n', 'i', 't'] => some .init
  | ['l', 'd', 'b'] => some .ldb
  | ['l', 'd', 'm'] => some .ldm
  | ['p', 'a', 'd'] => some .pad
  | ['s', 't', 'e', 'p'] => some .step
  | ['f', 'i', 'n'] => some .fin
  | ['h', 'a', 's', 'h'] => some .hash
  | ['r', 'd', 'b'] => some .rdb
  | ['o', 'r', 's', 't'] => some .orst
  | ['x', 'o', 'r', 'b'] => some .xorb
  | ['o', 'b', 'f'] => some .obf
  | _ => none

/-- A name in lower case (R103). -/
def lowerName (cs : List Char) : List Char := cs.map Char.toLower

/-- A line with no operand: a command, or the pseudo-instruction SHA1 (R103, R106). -/
def parsePlain (name : List Char) : Option Source :=
  if lowerName name = ['s', 'h', 'a', '1'] then some .sha1
  else (mnemonicNamed (lowerName name)).map fun m => .command m none

/-- A line with one operand: LDS or DIGEST with a string, or a command with a literal (R103-R106). -/
def parseOperand (name : List Char) (operand : Token) : Option Source :=
  match operand with
  | .str cs =>
    if lowerName name = ['l', 'd', 's'] then some (.lds cs)
    else if lowerName name = ['d', 'i', 'g', 'e', 's', 't'] then some (.digest cs)
    else none
  | .word _ | .chr _ =>
    match mnemonicNamed (lowerName name), literalValue operand with
    | some m, some n => some (.command m (some n))
    | _, _ => none

/-- The well-formed source commands of a line: none on a blank or comment line; `Option.none` is an assembly error
(R103, R104). -/
def parseLine (line : List Char) : Option (List Source) :=
  match lexLine line with
  | none => none
  | some [] => some []
  | some [.word name] => checked (parsePlain name)
  | some [.word name, operand] => checked (parseOperand name operand)
  | some _ => none
where
  /-- Only a well-formed source command is one (R104). -/
  checked : Option Source → Option (List Source)
    | none => none
    | some src => if src.wellFormed then some [src] else none

/-! ### Expansion (R105, R106, R108) -/

/-- The bytes of a text in UTF-8 (R12). -/
def utf8Bytes (text : List Char) : List Byte :=
  text.flatMap fun c => (String.utf8EncodeChar c).map fun b => BitVec.ofNat 8 b.toNat

/-- `LDS "s"`: one LDB per byte, in order (R105). -/
def ldsCommands (text : List Char) : List Instr := (utf8Bytes text).map .ldb

/-- `SHA1`: PAD, then HASH (R106). -/
def sha1Commands : List Instr := [.pad, .hash]

/-- An operand of `w` bits from its literal; a literal out of range for it is an assembly error (R104). -/
def operandLiteral (w n : Nat) : Option (BitVec w) := if n < 2 ^ w then some (BitVec.ofNat w n) else none

/-- The command of a core command line. A literal out of range, an operand left out or one too many is an assembly error,
not a command (R103, R104). -/
def commandOf : Mnemonic → Option Nat → Option Instr
  | .nop, none => some .nop
  | .init, none => some .init
  | .ldb, some n => (operandLiteral 8 n).map .ldb
  | .ldm, none => some .ldm
  | .pad, none => some .pad
  | .step, none => some .step
  | .fin, none => some .fin
  | .hash, none => some .hash
  | .rdb, some n => (operandLiteral 16 n).map .rdb
  | .orst, none => some .orst
  | .xorb, some n => (operandLiteral 8 n).map .xorb
  | .obf, none => some .obf
  | .ldb, none | .rdb, none | .xorb, none => none
  | .nop, some _ | .init, some _ | .ldm, some _ | .pad, some _ | .step, some _ | .fin, some _ | .hash, some _
  | .orst, some _ | .obf, some _ => none

/-- The commands a source command stands for (R103-R106); `none` is an assembly error, and just an ill-formed one is. -/
def expand : Source → Option (List Instr)
  | .command m operand => (commandOf m operand).map fun i => [i]
  | .lds text => some (ldsCommands text)
  | .sha1 => some sha1Commands
  | .digest text => some ([.init] ++ ldsCommands text ++ sha1Commands)

/-- The command words of the lines of a program, or an assembly error. -/
def assemble (lines : List (List Char)) : Option (List Word) :=
  match lines.mapM parseLine with
  | none => none
  | some sources => (sources.flatten.mapM expand).map fun commands => commands.flatten.map encode

/-! ### Host programs (R107) -/

/-- A line of a host program. -/
inductive HostOp where
  /-- `wr REG, v`. -/
  | wr (r : Reg) (v : Word)
  /-- `rd REG`. -/
  | rd (r : Reg)
  /-- `wait`. -/
  | wait
  /-- A command or pseudo-instruction: per command of its expansion, `wr CMD, <word>` and `wait`. -/
  | line (src : Source)
  deriving DecidableEq, Repr

/-- The submission of one command: `wr CMD, <word>` followed by `wait` (R107). -/
def submitEvents (i : Instr) : List Event := [.hostWrite (regOffset .cmd) .w32 (encode i), .hostWait]

/-- The host's accesses a line of a host program stands for (R107); `none` is an assembly error, and submits nothing
(R104). -/
def hostEvents : HostOp → Option (List Event)
  | .wr r v => some [.hostWrite (regOffset r) .w32 v]
  | .rd r => some [.hostRead (regOffset r) .w32]
  | .wait => some [.hostWait]
  | .line src => (expand src).map fun commands => commands.flatMap submitEvents

/-- The host's accesses of a whole program, or an assembly error in one of its lines. -/
def programEvents : List HostOp → Option (List Event)
  | [] => some []
  | op :: ops =>
    match hostEvents op, programEvents ops with
    | some first, some rest => some (first ++ rest)
    | _, _ => none

/-- `mem a: b0 b1 ...` before a program: the start contents of external memory from address a upward; no host operation
(R107). -/
def State.withMem : List Byte → Addr → State → State
  | [], _, s => s
  | b :: bs, a, s => State.withMem bs (a + 1) (s.setByteAt a b)

/-- The state with a host program to run after what is already scheduled (R107); a program with an assembly error is none
(R104). -/
def State.withProgram (s : State) (program : List HostOp) : Option State :=
  (programEvents program).map fun events => { s with schedule := s.schedule ++ events }

end Sys2Proof.Machine
end

