-- ==== Sys2Proof/Machine/Sha1.lean ====
section
/-! DEFINITION. SHA-1 on one padded block as a function of the message (40_sha1_datapath.md R125, R135), and the same
function over the standard's straight 80-word schedule (R131's recurrence without the circular buffer). The commands do
not call these: they are what the commands' effects are compared with. -/

namespace Sys2Proof.Machine

/-- Byte j of the padded block of message `m`, for the bytes before the length word: the message, 0x80, then zeros
(R125). -/
def paddedByte (m : List Byte) (j : Nat) : Byte :=
  if j < m.length then m.getD j 0 else if j = m.length then 0x80 else 0

/-- Four bytes as a word, the first most significant (R124). -/
def wordOfBytes (b0 b1 b2 b3 : Byte) : Word := b0 ++ b1 ++ b2 ++ b3

/-- The padded block of a message of at most 55 bytes: W[0..14] from the bytes, W[15] = 8 * L (R125). -/
def paddedBlock (m : List Byte) : Vector Word 16 :=
  Vector.ofFn fun q =>
    if q.val = 15 then BitVec.ofNat 32 (8 * m.length)
    else wordOfBytes (paddedByte m (4 * q.val)) (paddedByte m (4 * q.val + 1)) (paddedByte m (4 * q.val + 2))
      (paddedByte m (4 * q.val + 3))

/-- The state a compression starts from: the padded block and A..E = IV (R135 item 1). -/
def compressionStart (m : List Byte) : Mixer := ⟨paddedBlock m, ivWorking⟩

/-- The SHA-1 digest H0..H4 of a message of at most 55 bytes: the padded block, 80 rounds from A..E = IV, the final
addition (R135). -/
def sha1 (m : List Byte) : Vector Word 5 := finalSum (roundsFrom 0 Config.rounds (compressionStart m)).v

/-- The standard's schedule on a growing list (newest first): word t from words t-3, t-8, t-14 and t-16, i.e. the
entries at distance 2, 7, 13 and 15 behind the newest (R131). -/
def nextWord (newestFirst : List Word) : Word :=
  rotl 1 (newestFirst.getD 2 0 ^^^ newestFirst.getD 7 0 ^^^ newestFirst.getD 13 0 ^^^ newestFirst.getD 15 0)

/-- `n` further schedule words. -/
def extendSchedule : Nat → List Word → List Word
  | 0, ws => ws
  | n + 1, ws => extendSchedule n (nextWord ws :: ws)

/-- The 80 schedule words of a block, word 0 first. -/
def fullSchedule (w : Vector Word 16) : List Word := (extendSchedule 64 w.toList.reverse).reverse

/-- One round of the standard on the working variables alone, with its schedule word given. -/
def plainRound (t : Nat) (word : Word) (v : Working) : Working :=
  shiftWorking (rotl 5 v.a + roundFunction t v.b v.c v.d + v.e + roundConstant t + word) v

/-- The rounds from t on, one per word of the list. -/
def plainRounds : Nat → List Word → Working → Working
  | _, [], v => v
  | t, x :: ws, v => plainRounds (t + 1) ws (plainRound t x v)

/-- SHA-1 on one block over the full 80-word schedule, with no circular buffer. -/
def sha1Straight (m : List Byte) : Vector Word 5 :=
  finalSum (plainRounds 0 (fullSchedule (paddedBlock m)) ivWorking)

end Sys2Proof.Machine
end

