-- ==== Sys2Proof/Safety.lean ====
section
/-! DEFINITION. What counts as a safe run, in the terms the statements use: the invariants of 10_state.md R44, messages
held in the block, runs of several commands and of several steps. -/

namespace Sys2Proof.Machine

/-! ### The invariants of R44 -/

/-- The block buffer holds message `m`: LEN is its length, its bytes stand at 0..LEN-1 and every later byte is 0 (R24, R44
item 5). -/
def holdsMessage (m : List Byte) (s : State) : Prop :=
  s.len.toNat = m.length ∧ ∀ j : BitVec 6, getByte s.w j = m.getD j.toNat 0

/-- Items 1-3 of R44: LEN at most 55, T at most 80, OIDX at most 1040. -/
def countersInRange (s : State) : Prop :=
  s.len.toNat ≤ Config.maxLen ∧ s.t.toNat ≤ Config.rounds ∧ s.oidx.toNat ≤ Config.window

/-- Item 4 of R44: PHASE = FAULT exactly when ERR is not NONE. -/
def faultIffError (s : State) : Prop := s.phase = .fault ↔ s.err ≠ .none

/-- What holds in phase LOAD: T = 0, every block byte at position j >= LEN is 0, H = IV (R44 items 5 and 7), and A..E are
as INIT seeded them (R22). -/
def loadPhaseHolds (s : State) : Prop :=
  s.phase = .load →
    s.t = 0 ∧ (∀ j : BitVec 6, s.len.toNat ≤ j.toNat → getByte s.w j = 0) ∧ s.h = iv ∧ s.v = ivWorking

/-- What holds in phase COMPRESS: H = IV (R44 item 7), and W and A..E are T rounds into the compression of some padded
message of LEN bytes (R125, R133). -/
def compressPhaseHolds (s : State) : Prop :=
  s.phase = .compress →
    s.h = iv ∧ ∃ m : List Byte, m.length = s.len.toNat ∧ s.mixer = roundsFrom 0 s.t.toNat (compressionStart m)

/-- What holds in phase DONE: T = 80 and H0..H4 are the SHA-1 digest of some message of LEN bytes (R44 item 6). -/
def donePhaseHolds (s : State) : Prop :=
  s.phase = .done → s.t.toNat = Config.rounds ∧ ∃ m : List Byte, m.length = s.len.toNat ∧ s.h = sha1 m

/-- The invariant of the block's registers: R44, with what makes it inductive. -/
def registersInv (s : State) : Prop :=
  countersInRange s ∧ faultIffError s ∧ loadPhaseHolds s ∧ compressPhaseHolds s ∧ donePhaseHolds s

/-- Every running command of another instance is one of an instance the platform has (R7 `n_instances`), and no instance
runs two (R5, R217). -/
def peersInv (s : State) : Prop :=
  (∀ p ∈ s.peers, 1 ≤ p.id ∧ p.id < s.platform.instances) ∧ (s.peers.map (·.id)).Nodup

/-- The memory keeps its canonical form, a byte can only be raced while a command is pending (R72), and the other instances'
running commands are such (R78). -/
def memoryInv (s : State) : Prop := s.mem.wf = true ∧ (s.pend = none → s.raced = []) ∧ peersInv s

/-! ### Completions without the command's own effect -/

/-- The completion of a command that raises `e` and has no other effect (R201-R203, R206). -/
def onlyRaises (e : ErrCause) (s : State) : Result :=
  .next { s with err := e, phase := .fault, pend := none, raced := [] }

/-- The completion of a command that is ignored, or has nothing to do (R152, R207). -/
def onlyCompletes (s : State) : Result := .next { s with pend := none, raced := [] }

/-! ### Runs -/

/-- Several completed commands one after the other, as the host's program orders them (R37, R161). -/
def execAll : List Instr → State → Result
  | [], s => .next s
  | i :: is, s =>
    match exec i s with
    | .next t => execAll is t
    | .fault f => .fault f
    | .refused r => .refused r

/-- `n` steps of the machine lead from `s` to `u`. -/
def stepsTo : Nat → State → State → Prop
  | 0, s, u => u = s
  | n + 1, s, u => ∃ t, step s = .next t ∧ stepsTo n t u

/-- Every host access the schedule holds is a defined one (R41). -/
def scheduleDefined (s : State) : Prop :=
  ∀ e ∈ s.schedule, match e with
    | .hostRead offset width => hostAccessDefined offset width = true
    | .hostWrite offset width _ => hostAccessDefined offset width = true
    | _ => True

/-! ### Engine ranges a run may use -/

/-- None of the `n` bytes at `base` is one at which the spec says a model refuses (R74, U13). -/
def rangeUsable (p : Platform) (base : Addr) (n : Nat) : Prop :=
  ∀ i < n, inOwnWindow p (engineAddr base i) = false ∧ hasSideEffects p (engineAddr base i) = false

/-- No access of one kind to the `n` bytes at `base` meets a bus error (R62). -/
def rangeServed (p : Platform) (k : Access) (base : Addr) (n : Nat) : Prop :=
  ∀ i < n, busError p (engineAddr base i) k = false

end Sys2Proof.Machine
end

