-- ==== Sys2Proof/Certificates/Slice0/Obligations.lean ====
section
/-! DEFINITION. The statements for the provers, each formalising rules R<n> of spec/. A next state is written as the old
state with the fields the rule changes; every field not named keeps its value, which is the statement's frame. -/

open Sys2Proof Sys2Proof.Machine

/-! ### Encoding (30_encoding.md) -/

/-- R97, R98, R108: decoding the word of any well-formed command gives the command back, with every operand. -/
def Obligations.DecodeOfEncodeIsTheCommand : Prop :=
  ∀ i : Instr, i.wellFormed = true → decode (encode i) = .ok i

/-- R97, R98, R100: a word that decodes to a command is that command's one word. -/
def Obligations.EncodeOfDecodeIsTheWord : Prop :=
  ∀ (w : Word) (i : Instr), decode w = .ok i → encode i = w

/-- R99, R100: a reserved opcode, or a reserved bit set under a valid opcode, makes a word ILLEGAL; completing outside
FAULT, such a word raises ILLEGAL and has no other effect (R201). -/
def Obligations.ReservedWordsRaiseIllegal : Prop :=
  ∀ (w : Word) (s : State),
    (0x0C ≤ (opcodeField w).toNat ∨
      (opcodeField w ∈ ([0x00, 0x01, 0x03, 0x04, 0x05, 0x06, 0x07, 0x09, 0x0B] : List (BitVec 8)) ∧
        w.extractLsb 23 0 ≠ 0) ∨
      (opcodeField w ∈ ([0x02, 0x0A] : List (BitVec 8)) ∧ w.extractLsb 23 8 ≠ 0) ∨
      (opcodeField w = 0x08 ∧ w.extractLsb 23 16 ≠ 0)) →
    (∀ i, decode w ≠ .ok i) ∧
    (s.phase ≠ .fault →
      completeWord w s = onlyRaises .illegal s)

/-- R97, R100, R101, R108: words written out from the encoding tables decode to the commands they stand for, and ILLEGAL
ones to none. On an assembler's line a literal above 255 for imm8, or above 65535 for imm16, is an assembly error and not a
command, as is an operand missing or too many (R103, R104), and so is a host program with such a line (R107). -/
def Obligations.WordsOfTheTablesDecode : Prop :=
  decode 0x00000000 = .ok .nop ∧ decode 0x01000000 = .ok .init ∧ decode 0x02000061 = .ok (.ldb 0x61) ∧
  decode 0x03000000 = .ok .ldm ∧ decode 0x04000000 = .ok .pad ∧ decode 0x05000000 = .ok .step ∧
  decode 0x06000000 = .ok .fin ∧ decode 0x07000000 = .ok .hash ∧ decode 0x0800040F = .ok (.rdb 1039) ∧
  decode 0x09000000 = .ok .orst ∧ decode 0x0A0000FF = .ok (.xorb 0xFF) ∧ decode 0x0B000000 = .ok .obf ∧
  decode 0x01000001 = .error .reservedBits ∧ decode 0x08010000 = .error .reservedBits ∧
  decode 0xFFFFFFFF = .error .reservedOpcode ∧
  (∀ n : Nat,
    (n ≤ 255 → expand (.command .ldb (some n)) = some [.ldb (BitVec.ofNat 8 n)] ∧
      expand (.command .xorb (some n)) = some [.xorb (BitVec.ofNat 8 n)]) ∧
    (255 < n → expand (.command .ldb (some n)) = none ∧ expand (.command .xorb (some n)) = none) ∧
    (n ≤ 65535 → expand (.command .rdb (some n)) = some [.rdb (BitVec.ofNat 16 n)]) ∧
    (65535 < n → expand (.command .rdb (some n)) = none)) ∧
  (∀ src : Source, expand src = none ↔ src.wellFormed = false) ∧
  ∀ (s : State) (program : List HostOp) (src : Source), HostOp.line src ∈ program → src.wellFormed = false →
    s.withProgram program = none

/-! ### Steps and the command cycle (41_hash_commands.md R150-R152, 60_exceptions.md R200-R211) -/

/-- R152: the engine's step completes the word the latch holds, a command as exec says and an ILLEGAL word as completeWord
does, when the engine's turn is next: with an empty schedule, at an engine event, and while the host waits (which goes on
waiting). With BUSY = 0 the engine has nothing to complete and changes nothing (R219), and the host's wait ends with its
read of STATUS (R107), which makes the engine's writes visible (R71(b), log entry 18). The schedule is the model's form of
the interleaving (log entry 7). -/
def Obligations.EngineStepRunsThePendingCommand : Prop :=
  ∀ s : State,
    (∀ w, s.pend = some w →
      (∀ i, decode w = .ok i →
        (s.schedule = [] → step s = exec i s) ∧
        (∀ rest, s.schedule = .engine :: rest → step s = exec i { s with schedule := rest }) ∧
        (∀ rest, s.schedule = .hostWait :: rest → step s = exec i s)) ∧
      (∀ e, decode w = .error e →
        (s.schedule = [] → step s = completeWord w s) ∧
        (∀ rest, s.schedule = .engine :: rest → step s = completeWord w { s with schedule := rest }) ∧
        (∀ rest, s.schedule = .hostWait :: rest → step s = completeWord w s))) ∧
    (s.pend = none →
      (s.schedule = [] → step s = .next s) ∧
      (∀ rest, s.schedule = .engine :: rest → step s = .next { s with schedule := rest }) ∧
      (∀ rest, s.schedule = .hostWait :: rest →
        step s = .next { s with schedule := rest, readData := statusWord s, unseen := [] }))

/-- R151, R152: after the submission of a table word the very next step runs the command it decodes to; INIT's submission
has cleared OVR. That the engine's turn follows is the model's choice (log entry 5). -/
def Obligations.SubmittedWordRunsNext : Prop :=
  ∀ (s : State) (nbits w : Nat) (i : Instr), decodeTableWord nbits w = some i →
    step (s.withFetchWord nbits w) =
      exec i { s with
        pend := some (BitVec.ofNat 32 (w % 2 ^ nbits))
        ovr := if i = .init then false else s.ovr
        raced := [] }

/-- R151: the acceptance of a CMD write. While BUSY = 1 the word is dropped and OVR set; else the word is latched, BUSY
becomes 1 and INIT clears OVR; nothing else changes. What a platform that orders memory writes before the access does
comes first (R7, R71(a); posted writes are the model's form of it, log entry 6). -/
def Obligations.CmdWriteIsAccepted : Prop :=
  ∀ (s : State) (w : Word) (rest : List Event), s.schedule = .hostWrite 0x00 .w32 w :: rest →
    let s0 := orderBeforeMmio { s with schedule := rest }
    (s.busy = true → step s = .next { s0 with ovr := true }) ∧
    (s.busy = false → decode w = .ok .init → step s = .next { s0 with pend := some w, ovr := false }) ∧
    (s.busy = false → decode w ≠ .ok .init → step s = .next { s0 with pend := some w })

/-- R150, R202: a command that R150's table does not allow in the current PHASE and T raises SEQ and has no other
effect. -/
def Obligations.CommandOutOfPhaseRaisesSeq : Prop :=
  ∀ (s : State) (b : BitVec 8) (n : BitVec 16),
    let seqOnly : Result := onlyRaises .seq s
    (s.phase = .load →
      exec .step s = seqOnly ∧ exec .fin s = seqOnly ∧ exec .hash s = seqOnly ∧ exec (.rdb n) s = seqOnly ∧
      exec (.xorb b) s = seqOnly ∧ exec .obf s = seqOnly) ∧
    (s.phase = .compress →
      exec (.ldb b) s = seqOnly ∧ exec .ldm s = seqOnly ∧ exec .pad s = seqOnly ∧ exec (.rdb n) s = seqOnly ∧
      exec (.xorb b) s = seqOnly ∧ exec .obf s = seqOnly ∧
      (s.t = 80 → exec .step s = seqOnly) ∧ (s.t.toNat < 80 → exec .fin s = seqOnly)) ∧
    (s.phase = .done →
      exec (.ldb b) s = seqOnly ∧ exec .ldm s = seqOnly ∧ exec .pad s = seqOnly ∧ exec .step s = seqOnly ∧
      exec .fin s = seqOnly ∧ exec .hash s = seqOnly)

/-- R207: in FAULT every command except INIT and NOP, and every ILLEGAL word, completes with no effect. -/
def Obligations.FaultIgnoresAllButInitAndNop : Prop :=
  ∀ s : State, s.phase = .fault →
    (∀ i, i ≠ .init → i ≠ .nop → exec i s = onlyCompletes s) ∧
    (∀ w e, decode w = .error e → completeWord w s = onlyCompletes s)

/-- R203: LENGTH is raised by LDB when 55 bytes are loaded and by LDM when IDLEN > 55 - LEN, with nothing read or
written and LEN kept. -/
def Obligations.LengthIsRaisedBeforeAnyWrite : Prop :=
  ∀ (s : State) (b : BitVec 8), s.phase = .load →
    (s.len = 55 → exec (.ldb b) s = onlyRaises .length s) ∧
    (55 < s.len.toNat + s.idlen.toNat → exec .ldm s = onlyRaises .length s)

/-! ### The hashing commands (41_hash_commands.md R153-R160) -/

/-- R154: NOP changes nothing but BUSY, in every phase; a word with opcode 0x00 and any other bit set is ILLEGAL. -/
def Obligations.NopChangesOnlyBusy : Prop :=
  decode 0x00000000 = .ok .nop ∧
  (∀ w : Word, opcodeField w = 0x00 → w ≠ 0x00000000 → decode w = .error .reservedBits) ∧
  ∀ s : State, exec .nop s = onlyCompletes s

/-- R153: INIT, in every phase, zeroes the block, LEN, T, OIDX and RES, puts IV into H and A..E, clears ERR and returns to
LOAD; SRC, IDLEN, FBASE, FLEN, OVR and external memory keep their values. -/
def Obligations.InitStartsAFreshHash : Prop :=
  decode 0x01000000 = .ok .init ∧
  (∀ w : Word, opcodeField w = 0x01 → w ≠ 0x01000000 → decode w = .error .reservedBits) ∧
  ∀ s : State, exec .init s = .next { s with
    w := Vector.replicate 16 0
    len := 0
    t := 0
    h := #v[0x67452301, 0xEFCDAB89, 0x98BADCFE, 0x10325476, 0xC3D2E1F0]
    v := ⟨0x67452301, 0xEFCDAB89, 0x98BADCFE, 0x10325476, 0xC3D2E1F0⟩
    oidx := 0
    res := 0
    err := .none
    phase := .load
    pend := none
    raced := [] }

/-- R155: in LOAD with fewer than 55 bytes loaded, LDB puts its byte at position LEN, leaves the other bytes of the block
as they were and advances LEN; with 55 loaded it raises LENGTH, in COMPRESS and DONE SEQ, and in FAULT it is ignored. -/
def Obligations.LdbAppendsItsByte : Prop :=
  ∀ (s : State) (b : BitVec 8),
    decode (0x02000000 + b.setWidth 32) = .ok (.ldb b) ∧
    (s.phase = .load → s.len.toNat < 55 →
      ∃ t, exec (.ldb b) s = .next t ∧
        getByte t.w s.len = b ∧ (∀ j, j ≠ s.len → getByte t.w j = getByte s.w j) ∧
        t.len.toNat = s.len.toNat + 1 ∧
        t = { s with w := t.w, len := t.len, pend := none, raced := [] }) ∧
    (s.phase = .load → s.len = 55 → exec (.ldb b) s = onlyRaises .length s) ∧
    (s.phase = .compress ∨ s.phase = .done → exec (.ldb b) s = onlyRaises .seq s) ∧
    (s.phase = .fault → exec (.ldb b) s = onlyCompletes s)

/-- R156: in LOAD, with LEN + IDLEN at most 55, no bus error and no byte at which a model refuses, LDM loads the IDLEN
bytes at SRC behind the LEN loaded ones. A byte for which the engine races with another agent is loaded as a free value
drawn meanwhile (R72, R78). -/
def Obligations.LdmAppendsBytesFromMemory : Prop :=
  ∀ s : State, s.phase = .load → s.len.toNat + s.idlen.toNat ≤ 55 →
    rangeUsable s.platform s.src s.idlen.toNat → rangeServed s.platform .read s.src s.idlen.toNat →
    ∃ t, exec .ldm s = .next t ∧
      (∀ j < s.idlen.toNat, s.contested (s.src + BitVec.ofNat 32 j) = false →
        getByte t.w (BitVec.ofNat 6 (s.len.toNat + j)) = s.byteAt (s.src + BitVec.ofNat 32 j)) ∧
      (∀ j < s.idlen.toNat, s.contested (s.src + BitVec.ofNat 32 j) = true →
        ∃ d, s.draws ≤ d ∧ d < t.draws ∧
          getByte t.w (BitVec.ofNat 6 (s.len.toNat + j)) = (Config.freeWord d).setWidth 8) ∧
      (∀ j : BitVec 6, j.toNat < s.len.toNat ∨ s.len.toNat + s.idlen.toNat ≤ j.toNat →
        getByte t.w j = getByte s.w j) ∧
      t.len.toNat = s.len.toNat + s.idlen.toNat ∧
      ((∀ j < s.idlen.toNat, s.contested (s.src + BitVec.ofNat 32 j) = false) → t.draws = s.draws) ∧
      t = { s with w := t.w, len := t.len, draws := t.draws, pend := none, raced := [] }

/-- R156, R204: where the read of byte j is the first to meet a bus error, LDM raises BUS; the j earlier bytes stay loaded
and LEN counts them; byte j is not loaded, and no byte of memory changes. An earlier byte for which the engine races is a
free value (R72, R78). -/
def Obligations.LdmStopsAtTheFirstBusError : Prop :=
  ∀ (s : State) (n : Nat), s.phase = .load → s.len.toNat + s.idlen.toNat ≤ 55 →
    rangeUsable s.platform s.src s.idlen.toNat → n < s.idlen.toNat → rangeServed s.platform .read s.src n →
    busError s.platform (s.src + BitVec.ofNat 32 n) .read = true →
    ∃ t, exec .ldm s = .next t ∧
      (∀ j < n, s.contested (s.src + BitVec.ofNat 32 j) = false →
        getByte t.w (BitVec.ofNat 6 (s.len.toNat + j)) = s.byteAt (s.src + BitVec.ofNat 32 j)) ∧
      (∀ j < n, s.contested (s.src + BitVec.ofNat 32 j) = true →
        ∃ d, s.draws ≤ d ∧ d < t.draws ∧
          getByte t.w (BitVec.ofNat 6 (s.len.toNat + j)) = (Config.freeWord d).setWidth 8) ∧
      (∀ j : BitVec 6, j.toNat < s.len.toNat ∨ s.len.toNat + n ≤ j.toNat → getByte t.w j = getByte s.w j) ∧
      t.len.toNat = s.len.toNat + n ∧
      ((∀ j < n, s.contested (s.src + BitVec.ofNat 32 j) = false) → t.draws = s.draws) ∧
      t = { s with
        w := t.w
        len := t.len
        draws := t.draws
        err := .bus
        phase := .fault
        pend := none
        raced := [] }

/-- R157: in LOAD, PAD puts 0x80 at position LEN and 8 * LEN into W[15], leaves the other bytes before W[15] as they were
and enters COMPRESS; in COMPRESS and DONE it raises SEQ, and in FAULT it is ignored. -/
def Obligations.PadPutsPaddingByteAndBitLength : Prop :=
  decode 0x04000000 = .ok .pad ∧
  ∀ s : State,
    (s.phase = .load → s.len.toNat ≤ 55 →
      ∃ t, exec .pad s = .next t ∧
        getByte t.w s.len = 0x80 ∧ t.w[15] = BitVec.ofNat 32 (8 * s.len.toNat) ∧
        (∀ j : BitVec 6, j ≠ s.len → j.toNat < 60 → getByte t.w j = getByte s.w j) ∧
        t = { s with w := t.w, phase := .compress, pend := none, raced := [] }) ∧
    (s.phase = .compress ∨ s.phase = .done → exec .pad s = onlyRaises .seq s) ∧
    (s.phase = .fault → exec .pad s = onlyCompletes s)

/-- R125: where the block holds message m of at most 55 bytes, PAD makes it m's padded block. -/
def Obligations.PadMakesThePaddedBlock : Prop :=
  ∀ (s : State) (m : List Byte), s.phase = .load → m.length ≤ 55 → holdsMessage m s →
    exec .pad s = .next { s with w := paddedBlock m, phase := .compress, pend := none, raced := [] }

/-- R158, R130-R133: in COMPRESS with T < 80, STEP runs Round(T): from T = 16 on it first overwrites W[T mod 16] from four
old entries; TEMP goes into A and the working variables shift; T advances and PHASE stays. At T = 80 and in LOAD and DONE
it raises SEQ, and in FAULT it is ignored. -/
def Obligations.StepRunsOneRound : Prop :=
  decode 0x05000000 = .ok .step ∧
  ∀ s : State,
    (s.phase = .compress → (ht : s.t.toNat < 80) →
      ∃ t, exec .step s = .next t ∧
        (s.t.toNat < 16 → t.w = s.w) ∧
        (16 ≤ s.t.toNat → ∀ j : Fin 16, t.w[j.val] =
          if j.val = s.t.toNat % 16 then
            rotl 1 (s.w[(s.t.toNat - 3) % 16] ^^^ s.w[(s.t.toNat - 8) % 16] ^^^ s.w[(s.t.toNat - 14) % 16] ^^^
              s.w[(s.t.toNat - 16) % 16])
          else s.w[j.val]) ∧
        t.v = ⟨rotl 5 s.v.a + roundFunction s.t.toNat s.v.b s.v.c s.v.d + s.v.e + kTable[s.t.toNat / 20] +
          t.w[s.t.toNat % 16], s.v.a, rotl 30 s.v.b, s.v.c, s.v.d⟩ ∧
        t.t.toNat = s.t.toNat + 1 ∧
        t = { s with w := t.w, v := t.v, t := t.t, pend := none, raced := [] }) ∧
    (s.phase = .compress → s.t = 80 → exec .step s = onlyRaises .seq s) ∧
    (s.phase = .load ∨ s.phase = .done → exec .step s = onlyRaises .seq s) ∧
    (s.phase = .fault → exec .step s = onlyCompletes s)

/-- R159, R134: in COMPRESS with T = 80, FIN puts IV_i plus the working variables into H0..H4 and enters DONE; A..E, T and
W are left as they are. With T < 80 and in LOAD and DONE it raises SEQ, and in FAULT it is ignored. -/
def Obligations.FinAddsTheInitialValue : Prop :=
  decode 0x06000000 = .ok .fin ∧
  ∀ s : State,
    (s.phase = .compress → s.t = 80 →
      exec .fin s = .next { s with
        h := #v[0x67452301 + s.v.a, 0xEFCDAB89 + s.v.b, 0x98BADCFE + s.v.c, 0x10325476 + s.v.d, 0xC3D2E1F0 + s.v.e]
        phase := .done
        pend := none
        raced := [] }) ∧
    (s.phase = .compress → s.t.toNat < 80 → exec .fin s = onlyRaises .seq s) ∧
    (s.phase = .load ∨ s.phase = .done → exec .fin s = onlyRaises .seq s) ∧
    (s.phase = .fault → exec .fin s = onlyCompletes s)

/-- R160: in COMPRESS, HASH runs the rounds T..79, raises T to 80, puts the final sums into H and enters DONE; nothing else
changes. In LOAD and DONE it raises SEQ, and in FAULT it is ignored. -/
def Obligations.HashRunsTheRemainingRounds : Prop :=
  decode 0x07000000 = .ok .hash ∧
  ∀ s : State,
    (s.phase = .compress → s.t.toNat ≤ 80 →
      ∃ t, exec .hash s = .next t ∧
        t.mixer = roundsFrom s.t.toNat (80 - s.t.toNat) s.mixer ∧ t.t = 80 ∧
        t.h = #v[0x67452301 + t.v.a, 0xEFCDAB89 + t.v.b, 0x98BADCFE + t.v.c, 0x10325476 + t.v.d,
          0xC3D2E1F0 + t.v.e] ∧
        t = { s with h := t.h, w := t.w, v := t.v, t := 80, phase := .done, pend := none, raced := [] }) ∧
    (s.phase = .load ∨ s.phase = .done → exec .hash s = onlyRaises .seq s) ∧
    (s.phase = .fault → exec .hash s = onlyCompletes s)

/-- R160: "The result equals 80 - T STEPs followed by FIN", from any T up to 80. -/
def Obligations.HashEqualsStepsThenFin : Prop :=
  ∀ s : State, s.phase = .compress → s.t.toNat ≤ 80 →
    exec .hash s = execAll (List.replicate (80 - s.t.toNat) .step ++ [.fin]) s

/-! ### Keystream and obfuscator (42_obfuscator_commands.md R180-R184) -/

/-- R180, R136, R138: in DONE, RDB n puts byte n mod 20 of the digest, most significant byte of each word first, into RES;
nothing else changes, OIDX and H among it. In LOAD and COMPRESS it raises SEQ, and in FAULT it is ignored. -/
def Obligations.RdbReadsTheKeystreamByte : Prop :=
  ∀ (s : State) (n : BitVec 16),
    decode (0x08000000 + n.setWidth 32) = .ok (.rdb n) ∧
    (s.phase = .done →
      exec (.rdb n) s = .next { s with
        res := (s.h[n.toNat % 20 / 4]'(by omega)).extractLsb' (24 - 8 * (n.toNat % 20 % 4)) 8
        pend := none
        raced := [] }) ∧
    (s.phase = .load ∨ s.phase = .compress → exec (.rdb n) s = onlyRaises .seq s) ∧
    (s.phase = .fault → exec (.rdb n) s = onlyCompletes s)

/-- R184 item 5, R139: RDB n and RDB n+20 do the same, as long as n + 20 is an index RDB can carry. -/
def Obligations.RdbHasPeriodTwenty : Prop :=
  ∀ (s : State) (n : BitVec 16), n.toNat + 20 ≤ 65535 → exec (.rdb (n + 20)) s = exec (.rdb n) s

/-- R181: ORST zeroes OIDX in every phase but FAULT, where it is ignored; nothing else changes. -/
def Obligations.OrstClearsTheIndex : Prop :=
  decode 0x09000000 = .ok .orst ∧
  ∀ s : State,
    (s.phase ≠ .fault → exec .orst s = .next { s with oidx := 0, pend := none, raced := [] }) ∧
    (s.phase = .fault → exec .orst s = onlyCompletes s)

/-- R182: in DONE, XORB puts its byte XOR get(OIDX) into RES and advances OIDX while OIDX < 1040; from 1040 on the byte
passes unchanged and OIDX stays. In LOAD and COMPRESS it raises SEQ, and in FAULT it is ignored. -/
def Obligations.XorbMasksInsideTheWindow : Prop :=
  ∀ (s : State) (b : BitVec 8),
    decode (0x0A000000 + b.setWidth 32) = .ok (.xorb b) ∧
    (s.phase = .done →
      (s.oidx.toNat < 1040 → ∃ t, exec (.xorb b) s = .next t ∧ t.oidx.toNat = s.oidx.toNat + 1 ∧
        t = { s with
          res := b ^^^ (s.h[s.oidx.toNat % 20 / 4]'(by omega)).extractLsb' (24 - 8 * (s.oidx.toNat % 20 % 4)) 8
          oidx := t.oidx
          pend := none
          raced := [] }) ∧
      (s.oidx.toNat = 1040 → exec (.xorb b) s = .next { s with res := b, pend := none, raced := [] })) ∧
    (s.phase = .load ∨ s.phase = .compress → exec (.xorb b) s = onlyRaises .seq s) ∧
    (s.phase = .fault → exec (.xorb b) s = onlyCompletes s)

/-- R141, R182, 92_eei_decisions.md D17: a stream of XORBs after ORST is the byte transform: the byte sent after the bytes
`sent` comes out as `transformByte` says for its position, and OIDX counts the bytes, saturating at 1040. -/
def Obligations.XorbStreamIsTheByteTransform : Prop :=
  ∀ (s : State) (sent : List Byte) (b : Byte), s.phase = .done →
    ∃ t, execAll (.orst :: (sent.map .xorb ++ [.xorb b])) s = .next t ∧
      t.res = transformByte s.h (sent.length + 1) sent.length b ∧
      t.oidx.toNat = min 1040 (sent.length + 1) ∧
      t = { s with res := t.res, oidx := t.oidx, pend := none, raced := [] }

/-- R183: in DONE, with no bus error and no byte at which a model refuses, OBF XORs byte i at FBASE + i (mod 2^32) with
get(i) for i < min(1040, FLEN), and changes no other byte and no register. A byte for which the engine races with another
agent ends as a free value drawn meanwhile (R72, R78). To the host and the other agents exactly these bytes, and those
before, are not visible yet (R71(b), R77; the model's field, log entry 18). -/
def Obligations.ObfTransformsTheWindow : Prop :=
  ∀ s : State, s.phase = .done → s.mem.wf = true →
    rangeUsable s.platform s.fbase (min 1040 s.flen.toNat) →
    rangeServed s.platform .read s.fbase (min 1040 s.flen.toNat) →
    rangeServed s.platform .write s.fbase (min 1040 s.flen.toNat) →
    ∃ t, exec .obf s = .next t ∧
      (∀ i < min 1040 s.flen.toNat, s.contested (engineAddr s.fbase i) = false →
        t.byteAt (engineAddr s.fbase i) = s.byteAt (engineAddr s.fbase i) ^^^ keystream s.h i) ∧
      (∀ i < min 1040 s.flen.toNat, s.contested (engineAddr s.fbase i) = true →
        ∃ d, s.draws ≤ d ∧ d < t.draws ∧ t.byteAt (engineAddr s.fbase i) = (Config.freeWord d).setWidth 8) ∧
      (∀ a, (∀ i < min 1040 s.flen.toNat, a ≠ engineAddr s.fbase i) → t.byteAt a = s.byteAt a) ∧
      ((∀ i < min 1040 s.flen.toNat, s.contested (engineAddr s.fbase i) = false) → t.draws = s.draws) ∧
      (∀ a, a ∈ t.unseen ↔ (∃ i < min 1040 s.flen.toNat, a = engineAddr s.fbase i) ∨ a ∈ s.unseen) ∧
      t = { s with mem := t.mem, unseen := t.unseen, draws := t.draws, pend := none, raced := [] }

/-- R183, R204: where byte n is the first whose read or write meets a bus error, OBF raises BUS; the bytes before it stay
transformed (one for which the engine races: a free value, R72, R78), and not visible to others yet (R71(b), log entry 18);
byte n and every other byte of memory keep their values. -/
def Obligations.ObfStopsAtTheFirstBusError : Prop :=
  ∀ (s : State) (n : Nat), s.phase = .done → s.mem.wf = true →
    rangeUsable s.platform s.fbase (min 1040 s.flen.toNat) → n < min 1040 s.flen.toNat →
    rangeServed s.platform .read s.fbase n → rangeServed s.platform .write s.fbase n →
    (busError s.platform (engineAddr s.fbase n) .read = true ∨
      busError s.platform (engineAddr s.fbase n) .write = true) →
    ∃ t, exec .obf s = .next t ∧
      (∀ i < n, s.contested (engineAddr s.fbase i) = false →
        t.byteAt (engineAddr s.fbase i) = s.byteAt (engineAddr s.fbase i) ^^^ keystream s.h i) ∧
      (∀ i < n, s.contested (engineAddr s.fbase i) = true →
        ∃ d, s.draws ≤ d ∧ d < t.draws ∧ t.byteAt (engineAddr s.fbase i) = (Config.freeWord d).setWidth 8) ∧
      (∀ a, (∀ i < n, a ≠ engineAddr s.fbase i) → t.byteAt a = s.byteAt a) ∧
      ((∀ i < n, s.contested (engineAddr s.fbase i) = false) → t.draws = s.draws) ∧
      (∀ a, a ∈ t.unseen ↔ (∃ i < n, a = engineAddr s.fbase i) ∨ a ∈ s.unseen) ∧
      t = { s with
        mem := t.mem
        unseen := t.unseen
        draws := t.draws
        err := .bus
        phase := .fault
        pend := none
        raced := [] }

/-- R184 items 1 and 3: whatever stops it, OBF changes no byte outside [FBASE, FBASE + min(1040, FLEN)), nor what is visible
of it (R71(b), log entry 18), and none at all when FLEN = 0. -/
def Obligations.ObfWritesOnlyInsideItsWindow : Prop :=
  ∀ s t : State, s.mem.wf = true → exec .obf s = .next t →
    (∀ a, inRange s.fbase (min 1040 s.flen.toNat) a = false →
      t.byteAt a = s.byteAt a ∧ (a ∈ t.unseen ↔ a ∈ s.unseen)) ∧
    (s.flen = 0 → t.mem = s.mem ∧ t.unseen = s.unseen)

/-- R184 item 2, R142: two OBFs with the same digest, FBASE and FLEN, with no error and no race, leave memory, and every
register, as before the first, also with no read of STATUS between them (R73). The bytes of the window are not visible to
others yet (R71(b), log entry 18). -/
def Obligations.ObfTwiceRestoresTheBuffer : Prop :=
  ∀ s : State, s.phase = .done → s.mem.wf = true →
    (∀ i < min 1040 s.flen.toNat, s.contested (engineAddr s.fbase i) = false) →
    rangeUsable s.platform s.fbase (min 1040 s.flen.toNat) →
    rangeServed s.platform .read s.fbase (min 1040 s.flen.toNat) →
    rangeServed s.platform .write s.fbase (min 1040 s.flen.toNat) →
    ∃ u, execAll [.obf, .obf] s = .next { s with unseen := u, pend := none, raced := [] } ∧
      ∀ a, a ∈ u ↔ (∃ i < min 1040 s.flen.toNat, a = engineAddr s.fbase i) ∨ a ∈ s.unseen

/-- R74, R67 and 93_implementation_defined.md U13: LDM and OBF are refused, without any effect, where a byte of their
range is one of the block's own register window, and where one has read side effects. When the refusal is checked is the
model's choice (log entry 10). -/
def Obligations.RangesTheSpecRefusesAreRefused : Prop :=
  ∀ (s : State) (i : Nat),
    (s.phase = .load → s.len.toNat + s.idlen.toNat ≤ 55 → i < s.idlen.toNat →
      (inOwnWindow s.platform (engineAddr s.src i) = true → exec .ldm s = .refused .selfAccess) ∧
      (hasSideEffects s.platform (engineAddr s.src i) = true → ∃ r, exec .ldm s = .refused r)) ∧
    (s.phase = .done → i < min 1040 s.flen.toNat →
      (inOwnWindow s.platform (engineAddr s.fbase i) = true → exec .obf s = .refused .selfAccess) ∧
      (hasSideEffects s.platform (engineAddr s.fbase i) = true → ∃ r, exec .obf s = .refused r))

/-! ### SHA-1 (40_sha1_datapath.md) -/

/-- R120: rotl_k moves bit i to bit (i + k) mod 32. -/
def Obligations.RotlMovesEveryBit : Prop :=
  ∀ (k : Nat) (x : Word) (i : Nat), k < 32 → i < 32 → (rotl k x).getLsbD ((i + k) % 32) = x.getLsbD i

/-- R126-R129, R122, R123: bit by bit, Ch chooses c where b is 1 and d where it is 0, Parity is the exclusive or, and Maj is
1 exactly when at least two of the three bits are. Rounds 0..19 use Ch, 20..39 Parity, 40..59 Maj and 60..79 Parity; K is
the four words of R122 and round t uses K[t div 20]. -/
def Obligations.RoundFunctionsBitByBit : Prop :=
  (∀ (b c d : Word) (i : Nat), i < 32 →
    ((ch b c d).getLsbD i = if b.getLsbD i then c.getLsbD i else d.getLsbD i) ∧
    ((parity b c d).getLsbD i = (b.getLsbD i ^^ (c.getLsbD i ^^ d.getLsbD i))) ∧
    ((maj b c d).getLsbD i = decide (2 ≤ (b.getLsbD i).toNat + (c.getLsbD i).toNat + (d.getLsbD i).toNat))) ∧
  (∀ (t : Nat) (b c d : Word),
    (t ≤ 19 → roundFunction t b c d = ch b c d) ∧
    (20 ≤ t → t ≤ 39 → roundFunction t b c d = parity b c d) ∧
    (40 ≤ t → t ≤ 59 → roundFunction t b c d = maj b c d) ∧
    (60 ≤ t → t ≤ 79 → roundFunction t b c d = parity b c d)) ∧
  kTable = #v[0x5A827999, 0x6ED9EBA1, 0x8F1BBCDC, 0xCA62C1D6] ∧
  ∀ t, (ht : t < 80) → roundConstant t = kTable[t / 20]

/-- R135: on the 16-word circular buffer the rounds compute what the standard's straight 80-word schedule computes, for
every message. -/
def Obligations.CircularBufferComputesTheStraightSchedule : Prop :=
  ∀ m : List Byte, sha1 m = sha1Straight m

/-- 95_test_vectors.md X2 and V7: the digests of "", "abc" and "urn:uuid:1234". -/
def Obligations.PublishedDigests : Prop :=
  sha1 [] = #v[0xDA39A3EE, 0x5E6B4B0D, 0x3255BFEF, 0x95601890, 0xAFD80709] ∧
  sha1 [0x61, 0x62, 0x63] = #v[0xA9993E36, 0x4706816A, 0xBA3E2571, 0x7850C26C, 0x9CD0D89D] ∧
  sha1 [0x75, 0x72, 0x6E, 0x3A, 0x75, 0x75, 0x69, 0x64, 0x3A, 0x31, 0x32, 0x33, 0x34] =
    #v[0xCBAE3E12, 0xBC092AA5, 0x61B8FACB, 0xBD9E610D, 0xCA57F4FE]

/-- R161 with the loads by LDB: INIT, the message, PAD, any number of STEPs up to 80 and HASH leave PHASE = DONE with the
SHA-1 digest in H; a message over 55 bytes leaves FAULT, LENGTH and H = IV. -/
def Obligations.HashingSequenceGivesTheDigest : Prop :=
  ∀ (s : State) (m : List Byte) (k : Nat), k ≤ 80 →
    ∃ t, execAll ([.init] ++ m.map .ldb ++ [.pad] ++ List.replicate k .step ++ [.hash]) s = .next t ∧
      (m.length ≤ 55 → t.phase = .done ∧ t.err = .none ∧ t.h = sha1 m ∧ t.len.toNat = m.length) ∧
      (55 < m.length → t.phase = .fault ∧ t.err = .length ∧ t.h = iv ∧ t.len = 55) ∧
      t.mem = s.mem ∧ t.src = s.src ∧ t.idlen = s.idlen ∧ t.fbase = s.fbase ∧ t.flen = s.flen

/-- R161, R156: where the block holds message m, LDM makes it hold m followed by the IDLEN bytes at SRC, so LDB and LDM
append in command order. -/
def Obligations.LdmExtendsTheMessageHeld : Prop :=
  ∀ (s : State) (m : List Byte), s.phase = .load → holdsMessage m s → m.length + s.idlen.toNat ≤ 55 →
    (∀ j < s.idlen.toNat, s.contested (engineAddr s.src j) = false) →
    rangeUsable s.platform s.src s.idlen.toNat → rangeServed s.platform .read s.src s.idlen.toNat →
    ∃ t, exec .ldm s = .next t ∧ t.phase = .load ∧
      holdsMessage (m ++ (List.range s.idlen.toNat).map fun j => s.byteAt (engineAddr s.src j)) t

/-- R105, R106: the pseudo-instructions' expansions; LDS "s", which the assembler does not check for its length, loads all
its bytes or raises LENGTH at the first that would make LEN exceed 55; and DIGEST "s" leaves the SHA-1 digest of the UTF-8
bytes of s with PHASE = DONE when s has at most 55 bytes, else PHASE = FAULT with ERR = LENGTH. -/
def Obligations.DigestPseudoInstructionHashesItsText : Prop :=
  ∀ (s : State) (text : List Char),
    let lds := (utf8Bytes text).map Instr.ldb
    let digest := [.init] ++ lds ++ [.pad, .hash]
    expand (.lds text) = some lds ∧ expand .sha1 = some [.pad, .hash] ∧ expand (.digest text) = some digest ∧
    (s.phase = .load → s.len.toNat ≤ 55 →
      ∃ t, execAll lds s = .next t ∧
        (s.len.toNat + (utf8Bytes text).length ≤ 55 →
          t.phase = .load ∧ t.len.toNat = s.len.toNat + (utf8Bytes text).length) ∧
        (55 < s.len.toNat + (utf8Bytes text).length → t.phase = .fault ∧ t.err = .length ∧ t.len = 55)) ∧
    ∃ t, execAll digest s = .next t ∧
      ((utf8Bytes text).length ≤ 55 → t.phase = .done ∧ t.h = sha1 (utf8Bytes text)) ∧
      (55 < (utf8Bytes text).length → t.phase = .fault ∧ t.err = .length)

/-! ### Invariants and whole-machine rules -/

/-- R44: the registers' invariant and the memory's hold right after reset, on every platform. -/
def Obligations.ResetMeetsTheInvariants : Prop :=
  registersInv State.reset ∧ memoryInv State.reset ∧
  ∀ p : Platform, registersInv (State.resetOn p) ∧ memoryInv (State.resetOn p)

/-- R44: every step of every agent keeps the registers' invariant: the counters' ranges, FAULT exactly with an error, the
zero bytes behind the message in LOAD, H = IV before DONE, and in DONE H = SHA-1 of a message of LEN bytes. -/
def Obligations.EveryStepKeepsTheRegistersInvariant : Prop :=
  ∀ s t : State, registersInv s → step s = .next t → registersInv t

/-- The model's memory (log entry 1), its races (log entry 8) and the other instances' running commands (log entry 13): every
step keeps the memory in canonical form, leaves no raced byte without a pending command, and lets only instances the platform
has run commands, each at most one. -/
def Obligations.EveryStepKeepsTheMemoryInvariant : Prop :=
  ∀ s t : State, memoryInv s → step s = .next t → memoryInv t

/-- R7, with the platform parameters held in State (log entry 3): no step changes them. -/
def Obligations.NoStepChangesThePlatform : Prop :=
  ∀ s t : State, step s = .next t → t.platform = s.platform

/-- R21: only INIT, FIN, HASH and reset change H: INIT and reset to IV, FIN and HASH to the final sums; in DONE only INIT
and reset do. -/
def Obligations.OnlyInitFinHashAndResetWriteTheDigest : Prop :=
  ∀ s t : State, step s = .next t → t.h ≠ s.h →
    ((∃ rest, s.schedule = .reset :: rest) ∧ t.h = iv) ∨
    (pendingCommand s = some .init ∧ t.pend = none ∧ t.h = iv) ∨
    ((pendingCommand s = some .fin ∨ pendingCommand s = some .hash) ∧ s.phase = .compress ∧ t.phase = .done ∧
      t.h = finalSum t.v)

/-- R29, R207, R210: in FAULT, ERR and PHASE stay as they are through every step but the completion of INIT and a reset,
which lead to LOAD with ERR = NONE. -/
def Obligations.OnlyInitAndResetLeaveFault : Prop :=
  ∀ s t : State, s.phase = .fault → step s = .next t →
    (t.phase = .fault ∧ t.err = s.err) ∨
    (t.phase = .load ∧ t.err = .none ∧ (pendingCommand s = some .init ∨ ∃ rest, s.schedule = .reset :: rest))

/-- R28, R205: OVR becomes 1 only by a host write to a writable register while BUSY = 1, and 0 only by a reset or the
acceptance of INIT. -/
def Obligations.OvrChangesOnlyAsItsRuleSays : Prop :=
  ∀ s t : State, step s = .next t → t.ovr ≠ s.ovr →
    (t.ovr = true ∧ s.busy = true ∧ ∃ r v rest, writable r = true ∧ s.schedule = .hostWrite (regOffset r) .w32 v :: rest) ∨
    (t.ovr = false ∧ ∃ rest, s.schedule = .reset :: rest) ∨
    (t.ovr = false ∧ s.busy = false ∧ ∃ v rest, decode v = .ok .init ∧ s.schedule = .hostWrite 0x00 .w32 v :: rest)

/-- R32-R35: SRC, IDLEN, FBASE and FLEN change only by a host write to the register with BUSY = 0, to the value written,
and by a reset, to 0. -/
def Obligations.OnlyTheHostWritesTheOperandRegisters : Prop :=
  ∀ s t : State, step s = .next t → (∀ rest, s.schedule ≠ .reset :: rest) →
    (t.src ≠ s.src → s.busy = false ∧ ∃ rest, s.schedule = .hostWrite 0x18 .w32 t.src :: rest) ∧
    (t.idlen ≠ s.idlen → s.busy = false ∧ ∃ rest, s.schedule = .hostWrite 0x1C .w32 t.idlen :: rest) ∧
    (t.fbase ≠ s.fbase → s.busy = false ∧ ∃ rest, s.schedule = .hostWrite 0x20 .w32 t.fbase :: rest) ∧
    (t.flen ≠ s.flen → s.busy = false ∧ ∃ rest, s.schedule = .hostWrite 0x24 .w32 t.flen :: rest)

/-- R62, R183: no command but OBF changes external memory, nor what of it is visible to others (R71(b), log entry 18). -/
def Obligations.OnlyObfWritesMemory : Prop :=
  ∀ (i : Instr) (s t : State), i ≠ .obf → exec i s = .next t → t.mem = s.mem ∧ t.unseen = s.unseen

/-- R62, R156: external memory reaches the block's registers only through LDM: any other command completes alike in two
states that differ in memory only, and the next states differ in memory only. -/
def Obligations.OnlyLdmLearnsFromMemory : Prop :=
  ∀ (i : Instr) (s t : State) (m : Memory), i ≠ .ldm → exec i s = .next t →
    ∃ m', exec i { s with mem := m } = .next { t with mem := m' }

/-- 20_memory.md R74, 10_state.md R41, 93_implementation_defined.md U13: a step is refused only for a next event that is a
sub-word, wider or misaligned host access to the window, and for the completion, or the abandoning by reset (log entry 9), of
an LDM or OBF that would execute and has a byte of the block's own window, or one with read side effects, in its range. -/
def Obligations.RefusalsAreTheSpecsOwn : Prop :=
  ∀ (s : State) (r : Refusal), step s = .refused r →
    (r = .hostAccess ∧ ∃ o width rest, (width ≠ .w32 ∨ o.toNat % 4 ≠ 0) ∧
      (s.schedule = .hostRead o width :: rest ∨ ∃ v, s.schedule = .hostWrite o width v :: rest)) ∨
    (pendingRefusal s = some r ∧
      (s.schedule = [] ∨ ∃ rest, s.schedule = .engine :: rest ∨ s.schedule = .hostWait :: rest ∨
        s.schedule = .reset :: rest) ∧
      ∃ a, ((r = .selfAccess ∧ inOwnWindow s.platform a = true) ∨
          (r = .readSideEffects ∧ hasSideEffects s.platform a = true)) ∧
        ((pendingCommand s = some .ldm ∧ s.phase = .load ∧ s.len.toNat + s.idlen.toNat ≤ 55 ∧
            ∃ j < s.idlen.toNat, a = engineAddr s.src j) ∨
          (pendingCommand s = some .obf ∧ s.phase = .done ∧ ∃ i < min 1040 s.flen.toNat, a = engineAddr s.fbase i)))

/-- R240, R152, R231: on every schedule of defined accesses, unless a model refuses the command's range, a pending command
is completed, or abandoned by a reset, within one step more than the schedule has events; and with no reset in the schedule
it is completed: after at most as many steps as the schedule has events the engine completes the very word that was pending,
and BUSY = 0. That the engine has its turn after the schedule is the model's form of weak fairness (log entry 7). -/
def Obligations.PendingCommandCompletes : Prop :=
  ∀ (s : State) (w : Word), s.pend = some w → scheduleDefined s → pendingRefusal s = none →
    (∃ (k : Nat) (u : State), k ≤ s.schedule.length + 1 ∧ stepsTo k s u ∧ u.busy = false) ∧
    (Event.reset ∉ s.schedule →
      ∃ (k : Nat) (v u : State) (sched : List Event), k ≤ s.schedule.length ∧ stepsTo k s v ∧ v.pend = some w ∧
        step v = .next u ∧ completeWord w { v with schedule := sched } = .next u ∧ u.pend = none)

/-! ### The register window (10_state.md R39-R43) -/

/-- R39, R26, R200: the fields of STATUS, with the codes of PHASE and of ERR. -/
def Obligations.StatusLayout : Prop :=
  ∀ s : State,
    (statusWord s).extractLsb' 0 1 = BitVec.ofBool s.busy ∧
    (statusWord s).extractLsb' 1 1 = BitVec.ofBool s.ovr ∧
    (statusWord s).extractLsb' 2 2 = (match s.phase with
      | .load => 0
      | .compress => 1
      | .done => 2
      | .fault => 3) ∧
    (statusWord s).extractLsb' 4 4 = (match s.err with
      | .none => 0
      | .illegal => 1
      | .seq => 2
      | .length => 3
      | .bus => 4) ∧
    (statusWord s).extractLsb' 8 24 = 0

/-- R42: while BUSY = 1, a read of RES, LEN, T, OIDX, H0..H4, A..E or W[0..15] returns a fresh free value (numbered by the
model's counter, log entry 4); STATUS, SRC, IDLEN, FBASE and FLEN, and with BUSY = 0 every register, read their true values,
which R40 names: the narrow ones zero-extended. CMD always reads 0 (R40). No register changes (R67). After a read of STATUS
with BUSY = 0 every byte the engine has written is visible to the host and the other agents (R71(b)), and no other read
makes one so (the model's field, log entry 18). -/
def Obligations.HostReadsReturnTrueOrFreeValues : Prop :=
  ∀ (s : State) (r : Reg) (rest : List Event), s.schedule = .hostRead (regOffset r) .w32 :: rest →
    (s.busy = true → r ∉ ([.cmd, .status, .src, .idlen, .fbase, .flen] : List Reg) →
      step s = .next { s with schedule := rest, readData := Config.freeWord s.draws, draws := s.draws + 1 }) ∧
    ((s.busy = false ∨ r ∈ ([.cmd, .status, .src, .idlen, .fbase, .flen] : List Reg)) →
      step s = .next { s with
        schedule := rest
        readData := match r with
          | .cmd => 0
          | .status => statusWord s
          | .res => s.res.setWidth 32
          | .len => s.len.setWidth 32
          | .t => s.t.setWidth 32
          | .oidx => s.oidx.setWidth 32
          | .src => s.src
          | .idlen => s.idlen
          | .fbase => s.fbase
          | .flen => s.flen
          | .h i => s.h[i.val]
          | .a => s.v.a
          | .b => s.v.b
          | .c => s.v.c
          | .d => s.v.d
          | .e => s.v.e
          | .w j => s.w[j.val]
        unseen := if r = .status ∧ s.busy = false then [] else s.unseen })

/-- R40: the offset at which each register stands, and no register stands at two offsets or shares one. -/
def Obligations.RegisterMapIsOneToOne : Prop :=
  (regOffset .cmd = 0x00 ∧ regOffset .status = 0x04 ∧ regOffset .res = 0x08 ∧ regOffset .len = 0x0C ∧
    regOffset .t = 0x10 ∧ regOffset .oidx = 0x14 ∧ regOffset .src = 0x18 ∧ regOffset .idlen = 0x1C ∧
    regOffset .fbase = 0x20 ∧ regOffset .flen = 0x24 ∧
    (∀ i : Fin 5, (regOffset (.h i)).toNat = 0x40 + 4 * i.val) ∧
    regOffset .a = 0x60 ∧ regOffset .b = 0x64 ∧ regOffset .c = 0x68 ∧ regOffset .d = 0x6C ∧ regOffset .e = 0x70 ∧
    (∀ j : Fin 16, (regOffset (.w j)).toNat = 0x80 + 4 * j.val)) ∧
  (∀ r : Reg, regAt (regOffset r) = some r) ∧ (∀ (o : BitVec 8) (r : Reg), regAt o = some r → regOffset r = o)

/-- R41: a defined read has no side effect (but that one of STATUS with BUSY = 0 is that of R71(b), after which the engine's
writes are visible, log entry 18), at an unmapped offset it returns 0; a write to an unmapped offset or to a
read-only register is ignored and does not set OVR; a sub-word, misaligned or wider access is refused. What a platform
that orders memory writes before a window write does at it comes first (R7, log entry 6). -/
def Obligations.UnmappedReadOnlyAndUndefinedAccesses : Prop :=
  ∀ (s : State) (o : BitVec 8) (v : Word) (rest : List Event),
    (o.toNat % 4 = 0 → s.schedule = .hostRead o .w32 :: rest →
      ∃ t, step s = .next t ∧ (regAt o = none → t.readData = 0 ∧ t.draws = s.draws) ∧
        ((regAt o ≠ some .status ∨ s.busy = true) → t.unseen = s.unseen) ∧
        t = { s with schedule := rest, readData := t.readData, unseen := t.unseen, draws := t.draws }) ∧
    (o.toNat % 4 = 0 → regAt o = none →
      s.schedule = .hostWrite o .w32 v :: rest → step s = .next (orderBeforeMmio { s with schedule := rest })) ∧
    (∀ r, regAt o = some r → r ∉ ([.cmd, .src, .idlen, .fbase, .flen] : List Reg) →
      s.schedule = .hostWrite o .w32 v :: rest → step s = .next (orderBeforeMmio { s with schedule := rest })) ∧
    (∀ width, (width ≠ .w32 ∨ o.toNat % 4 ≠ 0) →
      (s.schedule = .hostRead o width :: rest → step s = .refused .hostAccess) ∧
      (s.schedule = .hostWrite o width v :: rest → step s = .refused .hostAccess))

/-- R43: a host write to CMD, SRC, IDLEN, FBASE or FLEN while BUSY = 1 sets OVR and has no other effect; with BUSY = 0 a
write to SRC, IDLEN, FBASE or FLEN stores the value. What an ordered platform does before it comes first (log entry 6). -/
def Obligations.OperandWritesStoreOrOverrun : Prop :=
  ∀ (s : State) (r : Reg) (v : Word) (rest : List Event), s.schedule = .hostWrite (regOffset r) .w32 v :: rest →
    let s0 := orderBeforeMmio { s with schedule := rest }
    (s.busy = true → r ∈ ([.cmd, .src, .idlen, .fbase, .flen] : List Reg) → step s = .next { s0 with ovr := true }) ∧
    (s.busy = false →
      (r = .src → step s = .next { s0 with src := v }) ∧ (r = .idlen → step s = .next { s0 with idlen := v }) ∧
      (r = .fbase → step s = .next { s0 with fbase := v }) ∧ (r = .flen → step s = .next { s0 with flen := v }))

/-! ### Reset, races and ordering -/

/-- R230: a reset sets every register of the block to its reset value and does not touch external memory, where it abandons
no OBF and no command a model refuses (log entry 9). What is visible of memory it leaves as it is (log entry 14). -/
def Obligations.ResetSetsEveryRegister : Prop :=
  ∀ (s : State) (rest : List Event), s.schedule = .reset :: rest → pendingRefusal s = none →
    pendingCommand s ≠ some .obf →
    step s = .next { s with
      h := #v[0x67452301, 0xEFCDAB89, 0x98BADCFE, 0x10325476, 0xC3D2E1F0]
      v := ⟨0x67452301, 0xEFCDAB89, 0x98BADCFE, 0x10325476, 0xC3D2E1F0⟩
      w := Vector.replicate 16 0
      len := 0
      t := 0
      phase := .load
      ovr := false
      err := .none
      res := 0
      oidx := 0
      src := 0
      idlen := 0
      fbase := 0
      flen := 0
      pend := none
      raced := []
      schedule := rest }

/-- R231: a reset that abandons an OBF leaves each byte of its window at its old or its transformed value, byte by byte
(one for which the engine races: a free value, R72, R78), changes no other byte, and sets every register as any reset does.
An OBF outside DONE writes nothing (R202), and its reset changes no byte and draws nothing (log entry 9). The window's bytes
are not visible to others yet, the model's choice (log entry 18). -/
def Obligations.ResetAbandoningObfMixesItsWindow : Prop :=
  ∀ (s : State) (rest : List Event), s.schedule = .reset :: rest → pendingRefusal s = none → s.mem.wf = true →
    pendingCommand s = some .obf →
    ∃ t, step s = .next t ∧
      (∀ i < min 1040 s.flen.toNat, s.contested (engineAddr s.fbase i) = false →
        t.byteAt (engineAddr s.fbase i) = s.byteAt (engineAddr s.fbase i) ∨
        t.byteAt (engineAddr s.fbase i) = s.byteAt (engineAddr s.fbase i) ^^^ keystream s.h i) ∧
      (s.phase = .done → ∀ i < min 1040 s.flen.toNat, s.contested (engineAddr s.fbase i) = true →
        ∃ d, s.draws ≤ d ∧ d < t.draws ∧ t.byteAt (engineAddr s.fbase i) = (Config.freeWord d).setWidth 8) ∧
      (∀ a, inRange s.fbase (min 1040 s.flen.toNat) a = false → t.byteAt a = s.byteAt a) ∧
      (s.phase ≠ .done → t.mem = s.mem ∧ t.draws = s.draws ∧ t.unseen = s.unseen) ∧
      (s.phase = .done → ∀ a, a ∈ t.unseen ↔ (∃ i < min 1040 s.flen.toNat, a = engineAddr s.fbase i) ∨ a ∈ s.unseen) ∧
      t = { State.resetOn s.platform with
        mem := t.mem
        unseen := t.unseen
        draws := t.draws
        schedule := rest
        posted := s.posted
        peers := s.peers
        readData := s.readData }

/-- R72, R78: while LDM or OBF is pending, another agent's read of a byte of its range returns any byte and another agent's
write leaves any byte there, for which the engine races from then on; so does an access to a byte that a running command of
another instance (other than the agent itself) touches, or to one the engine has written and no read of STATUS with BUSY = 0
has made visible (R71(b), N6); any other byte is read and written as usual, and after such a read of STATUS every byte that
no running command touches is read as it stands in memory. Every byte a command of another instance touches is one the engine
races for, until the pending command ends, also where the other one ends before. An instance beyond the platform's
n_instances (R7) does nothing (log entries 4, 8, 13, 18 and 21). -/
def Obligations.RacingAccessesGiveFreeValues : Prop :=
  ∀ (s : State) (g : Agent) (a : Addr) (b : Byte) (id : Nat) (range : Region) (rest : List Event), s.mem.wf = true →
    let ours := (pendingCommand s = some .ldm ∧ inRange s.src s.idlen.toNat a = true) ∨
      (pendingCommand s = some .obf ∧ inRange s.fbase (min 1040 s.flen.toNat) a = true)
    let theirs := ∃ p ∈ s.peers, g ≠ .peer p.id ∧ inRange p.range.base p.range.size a = true
    let unseen := a ∈ s.unseen
    let onPlatform := fun k : Nat => 1 ≤ k ∧ k < s.platform.instances
    let present := ∀ k, g = .peer k → onPlatform k
    (s.schedule = .agentLoad g a :: rest →
      (present → ours ∨ theirs ∨ unseen → step s = .next { s with
        schedule := rest
        readData := ((Config.freeWord s.draws).setWidth 8 : Byte).setWidth 32
        draws := s.draws + 1 }) ∧
      (present → ¬ ours → ¬ theirs → ¬ unseen →
        step s = .next { s with schedule := rest, readData := (s.byteAt a).setWidth 32 }) ∧
      (¬ present → step s = .next { s with schedule := rest })) ∧
    (s.schedule = .hostRead 0x04 .w32 :: .agentLoad g a :: rest → s.busy = false → present → ¬ theirs →
      stepsTo 2 s { s with schedule := rest, unseen := [], readData := (s.byteAt a).setWidth 32 }) ∧
    (s.schedule = .agentStore g a b :: rest →
      (present → ∃ t, step s = .next t ∧ (∀ x, x ≠ a → t.byteAt x = s.byteAt x) ∧
        (ours ∨ theirs ∨ unseen → t.byteAt a = (Config.freeWord s.draws).setWidth 8 ∧ t.draws = s.draws + 1) ∧
        (¬ ours → ¬ theirs → ¬ unseen → t.byteAt a = b ∧ t.draws = s.draws) ∧
        (ours → ∀ x, t.contested x = true ↔ (x = a ∨ s.contested x = true)) ∧
        (¬ ours → t.raced = s.raced) ∧
        t = { s with schedule := rest, mem := t.mem, raced := t.raced, draws := t.draws }) ∧
      (¬ present → step s = .next { s with schedule := rest })) ∧
    (s.schedule = .peerStarts id range :: rest →
      (onPlatform id → ∃ t, step s = .next t ∧
        (∀ p, p ∈ t.peers ↔ (p = { id := id, range := range } ∨ (p ∈ s.peers ∧ p.id ≠ id))) ∧
        (∀ x, inRange range.base range.size x = true → t.contested x = true) ∧
        (s.busy = true → ∀ x, t.contested x = true ↔
          (inRange range.base range.size x = true ∨ s.contested x = true)) ∧
        (s.busy = false → t.raced = s.raced) ∧
        t = { s with schedule := rest, raced := t.raced, peers := t.peers }) ∧
      (¬ onPlatform id → step s = .next { s with schedule := rest })) ∧
    (s.schedule = .peerEnds id :: rest →
      (onPlatform id → ∃ t, step s = .next t ∧ (∀ p, p ∈ t.peers ↔ (p ∈ s.peers ∧ p.id ≠ id)) ∧
        (s.busy = true → ∀ x, t.contested x = s.contested x) ∧
        (s.busy = false → t.raced = s.raced) ∧
        t = { s with schedule := rest, raced := t.raced, peers := t.peers }) ∧
      (¬ onPlatform id → step s = .next { s with schedule := rest }))

/-- R71(a): on a platform that does not order a host's memory writes before its later window writes, such a write lands no
posted one. On one that does, it lands all: memory, the race and the draws are all that changes beside them, and only at the
posted addresses; the engine then races for those of them in the range of the pending command, and where nothing is open
nothing is drawn. A CMD write with BUSY = 0 then finds the newest posted write to each address in memory, where no other
instance's command touches it and no write of the engine is still to become visible (R71(b)), and else a free value (R78);
none is posted any more. Posted writes are the model's form of R71(a) (log entries 6, 18 and 20). -/
def Obligations.OrderedPlatformLandsWritesBeforeCmd : Prop :=
  ∀ s : State, s.mem.wf = true →
    let ours := fun x : Addr =>
      (pendingCommand s = some .ldm ∧ inRange s.src s.idlen.toNat x = true) ∨
      (pendingCommand s = some .obf ∧ inRange s.fbase (min 1040 s.flen.toNat) x = true)
    let theirs := fun x : Addr => (∃ p ∈ s.peers, inRange p.range.base p.range.size x = true) ∨ x ∈ s.unseen
    (s.platform.hostOrdersMmio = false → orderBeforeMmio s = s) ∧
    (s.platform.hostOrdersMmio = true →
      let t := orderBeforeMmio s
      t = { s with mem := t.mem, posted := [], raced := t.raced, draws := t.draws } ∧
      (∀ a, (∀ c ∈ s.posted, c.1 ≠ a) → t.byteAt a = s.byteAt a) ∧
      (∀ x, t.contested x = true ↔ ((ours x ∧ ∃ c ∈ s.posted, c.1 = x) ∨ s.contested x = true)) ∧
      ((∀ c ∈ s.posted, ¬ ours c.1) → t.raced = s.raced) ∧
      ((∀ c ∈ s.posted, ¬ ours c.1 ∧ ¬ theirs c.1) → t.draws = s.draws) ∧
      (s.busy = false → t.raced = s.raced)) ∧
    (∀ (w : Word) (rest : List Event), s.schedule = .hostWrite 0x00 .w32 w :: rest → s.busy = false →
      s.platform.hostOrdersMmio = true →
      ∃ t, step s = .next t ∧ t.pend = some w ∧ t.posted = [] ∧
        ∀ a,
          ((∀ p ∈ s.peers, inRange p.range.base p.range.size a = false) → a ∉ s.unseen →
            t.byteAt a = match postedByte s a with
              | some b => b
              | none => s.byteAt a) ∧
          ((∃ p ∈ s.peers, inRange p.range.base p.range.size a = true) ∨ a ∈ s.unseen → (∃ c ∈ s.posted, c.1 = a) →
            ∃ d, s.draws ≤ d ∧ d < t.draws ∧ t.byteAt a = (Config.freeWord d).setWidth 8))

/-- R71, R72: the host's memory accesses. Its write is posted and changes nothing else. Its read returns any byte where it
races (with the pending LDM or OBF, or with another instance's running one) or the byte is one the engine has written and no
read of STATUS with BUSY = 0 has made visible (R71(b), N6), else its newest posted byte of that address, and with none posted
the byte in memory; after such a read of STATUS it is the byte in memory for every byte of a completed OBF (R71(b)). The
oldest posted write to an address lands there, as a free value in those same two cases; the barrier lands all of them; the
engine races from then on for a byte so written in the range of the pending command. That writes are posted, that the landing
is the access that races, and that a write to a byte not visible yet leaves any value is the model's choice (log entries 4,
6, 18 and 20). -/
def Obligations.HostMemoryAccessesAreSeenWhenTheyLand : Prop :=
  ∀ (s : State) (a : Addr) (b : Byte) (rest : List Event), s.mem.wf = true →
    let ours := fun x : Addr =>
      (pendingCommand s = some .ldm ∧ inRange s.src s.idlen.toNat x = true) ∨
      (pendingCommand s = some .obf ∧ inRange s.fbase (min 1040 s.flen.toNat) x = true)
    let theirs := fun x : Addr => ∃ p ∈ s.peers, inRange p.range.base p.range.size x = true
    let isOpen := fun x : Addr => ours x ∨ theirs x ∨ x ∈ s.unseen
    let newest := fun (x : Addr) (v : Byte) =>
      ∃ before after, s.posted = before ++ (x, v) :: after ∧ ∀ c ∈ after, c.1 ≠ x
    (s.schedule = .hostStore a b :: rest →
      step s = .next { s with schedule := rest, posted := s.posted ++ [(a, b)] }) ∧
    (s.schedule = .hostLoad a :: rest →
      (isOpen a → step s = .next { s with
        schedule := rest
        readData := ((Config.freeWord s.draws).setWidth 8 : Byte).setWidth 32
        draws := s.draws + 1 }) ∧
      (¬ isOpen a → ∀ v, newest a v → step s = .next { s with schedule := rest, readData := v.setWidth 32 }) ∧
      (¬ isOpen a → (∀ c ∈ s.posted, c.1 ≠ a) →
        step s = .next { s with schedule := rest, readData := (s.byteAt a).setWidth 32 })) ∧
    (s.schedule = .hostRead 0x04 .w32 :: .hostLoad a :: rest → s.busy = false → ¬ theirs a →
      (∀ c ∈ s.posted, c.1 ≠ a) →
      stepsTo 2 s { s with schedule := rest, unseen := [], readData := (s.byteAt a).setWidth 32 }) ∧
    (s.schedule = .postedLands a :: rest →
      ((∀ c ∈ s.posted, c.1 ≠ a) → step s = .next { s with schedule := rest }) ∧
      (∀ before v after, s.posted = before ++ (a, v) :: after → (∀ c ∈ before, c.1 ≠ a) →
        ∃ t, step s = .next t ∧ (∀ x, x ≠ a → t.byteAt x = s.byteAt x) ∧
          (isOpen a → t.byteAt a = (Config.freeWord s.draws).setWidth 8 ∧ t.draws = s.draws + 1) ∧
          (¬ isOpen a → t.byteAt a = v ∧ t.draws = s.draws) ∧
          (ours a → ∀ x, t.contested x = true ↔ (x = a ∨ s.contested x = true)) ∧
          (¬ ours a → t.raced = s.raced) ∧
          t = { s with
            schedule := rest
            posted := before ++ after
            mem := t.mem
            raced := t.raced
            draws := t.draws })) ∧
    (s.schedule = .hostBarrier :: rest →
      ∃ t, step s = .next t ∧
        (∀ x, (∀ c ∈ s.posted, c.1 ≠ x) → t.byteAt x = s.byteAt x) ∧
        (∀ x v, ¬ isOpen x → newest x v → t.byteAt x = v) ∧
        (∀ x v, isOpen x → newest x v →
          ∃ d, s.draws ≤ d ∧ d < t.draws ∧ t.byteAt x = (Config.freeWord d).setWidth 8) ∧
        (∀ x, t.contested x = true ↔ ((ours x ∧ ∃ c ∈ s.posted, c.1 = x) ∨ s.contested x = true)) ∧
        ((∀ c ∈ s.posted, ¬ ours c.1) → t.raced = s.raced) ∧
        ((∀ c ∈ s.posted, ¬ isOpen c.1) → t.draws = s.draws) ∧
        t = { s with schedule := rest, posted := [], mem := t.mem, raced := t.raced, draws := t.draws })
end

