-- ==== Sys2Proof/Laws/Assembler.lean ====
section
/-! SUPPORT. What the assembler turns down (30_encoding.md R103, R104): exactly the ill-formed source commands, and every
host program that holds one. -/

namespace Sys2Proof.Machine

/-- A literal in range is the operand, one out of range is none (R104). -/
theorem operandLiteral_cases (w n : Nat) :
    (n < 2 ^ w ∧ operandLiteral w n = some (BitVec.ofNat w n)) ∨ (2 ^ w ≤ n ∧ operandLiteral w n = none) := by
  unfold operandLiteral
  split
  · next h => exact .inl ⟨h, rfl⟩
  · next h => exact .inr ⟨Nat.le_of_not_lt h, rfl⟩

/-- A source command has an expansion exactly if it is well formed (R103, R104). -/
theorem expand_eq_none {src : Source} : expand src = none ↔ src.wellFormed = false := by
  cases src with
  | command m operand =>
    cases m <;> cases operand <;> simp [expand, commandOf, operandLiteral, Source.wellFormed] <;> omega
  | _ => simp [expand, Source.wellFormed]

/-- Only a command line can be an assembly error of a host program (R107). -/
theorem hostEvents_eq_none {op : HostOp} : hostEvents op = none ↔ ∃ src, op = .line src ∧ src.wellFormed = false := by
  cases op <;> simp [hostEvents, expand_eq_none]

/-- A host program is turned down exactly if one of its lines is an assembly error (R104, R107). -/
theorem programEvents_eq_none {program : List HostOp} :
    programEvents program = none ↔ ∃ src, HostOp.line src ∈ program ∧ src.wellFormed = false := by
  induction program with
  | nil => simp [programEvents]
  | cons op ops ih =>
    have h : programEvents (op :: ops) = none ↔ hostEvents op = none ∨ programEvents ops = none := by
      rw [programEvents]
      cases hostEvents op <;> cases programEvents ops <;> simp
    rw [h, hostEvents_eq_none, ih]
    constructor
    · rintro (⟨src, rfl, hs⟩ | ⟨src, hm, hs⟩)
      · exact ⟨src, List.mem_cons_self, hs⟩
      · exact ⟨src, List.mem_cons_of_mem _ hm, hs⟩
    · rintro ⟨src, hm, hs⟩
      rcases List.mem_cons.1 hm with rfl | hm
      · exact .inl ⟨src, rfl, hs⟩
      · exact .inr ⟨src, hm, hs⟩

end Sys2Proof.Machine
end

