-- ==== Sys2Proof/Laws/Decode.lean ====
section
/-! SUPPORT. The fields of an encoded command as numbers (30_encoding.md R91-R95, R108). -/

namespace Sys2Proof

/-- The value of two fields side by side. -/
theorem toNat_append_eq {n k : Nat} (x : BitVec n) (y : BitVec k) : (x ++ y).toNat = x.toNat * 2 ^ k + y.toNat := by
  rw [BitVec.toNat_append, ← Nat.shiftLeft_add_eq_or_of_lt y.isLt, Nat.shiftLeft_eq]

/-- The opcode of an encoded command (R91). -/
theorem opcodeField_encode (i : Instr) : opcodeField (encode i) = opcodeOf i := by
  apply BitVec.eq_of_toNat_eq
  have h := toNat_append_eq (opcodeOf i) (operandBits i)
  have h1 := (opcodeOf i).isLt
  have h2 := (operandBits i).isLt
  rw [opcodeField, BitVec.extractLsb_toNat, encode, h, Nat.shiftRight_eq_div_pow]
  omega

/-- The low field of an encoded command (R92-R94). -/
theorem extract_encode (i : Instr) (lo len : Nat) (h : lo + len ≤ 24) :
    ((encode i).extractLsb' lo len).toNat = (operandBits i).toNat / 2 ^ lo % 2 ^ len := by
  have e := toNat_append_eq (opcodeOf i) (operandBits i)
  rw [BitVec.extractLsb'_toNat, encode, e, Nat.shiftRight_eq_div_pow]
  obtain ⟨d, hd⟩ : ∃ d, 24 = lo + len + d := ⟨24 - (lo + len), by omega⟩
  have : (opcodeOf i).toNat * 2 ^ 24 = 2 ^ lo * (2 ^ len * ((opcodeOf i).toNat * 2 ^ d)) := by
    rw [hd, Nat.pow_add, Nat.pow_add]; ring
  rw [this, Nat.mul_add_div (Nat.two_pow_pos lo), Nat.mul_add_mod]

/-- A command word in terms of its opcode and its low 24 bits. -/
theorem encode_toNat (i : Instr) : (encode i).toNat = (opcodeOf i).toNat * 2 ^ 24 + (operandBits i).toNat :=
  toNat_append_eq _ _

/-- Every word is its opcode and its low 24 bits. -/
theorem word_toNat (w : Word) : w.toNat = (opcodeField w).toNat * 2 ^ 24 + (reservedN w).toNat := by
  have := w.isLt
  rw [opcodeField, reservedN, BitVec.extractLsb_toNat, BitVec.extractLsb_toNat, Nat.shiftRight_eq_div_pow,
    Nat.shiftRight_eq_div_pow]
  omega

end Sys2Proof
end

