-- ==== Sys2Proof/Laws/State.lean ====
section
/-! SUPPORT. One lemma per field for each named update of State, true by rfl, so that no proof unfolds a record update. -/

namespace Sys2Proof.Machine

/-! ### State.drawn -/

@[simp] theorem State.drawn_h (s : State) : s.drawn.h = s.h := rfl
@[simp] theorem State.drawn_v (s : State) : s.drawn.v = s.v := rfl
@[simp] theorem State.drawn_w (s : State) : s.drawn.w = s.w := rfl
@[simp] theorem State.drawn_len (s : State) : s.drawn.len = s.len := rfl
@[simp] theorem State.drawn_t (s : State) : s.drawn.t = s.t := rfl
@[simp] theorem State.drawn_phase (s : State) : s.drawn.phase = s.phase := rfl
@[simp] theorem State.drawn_ovr (s : State) : s.drawn.ovr = s.ovr := rfl
@[simp] theorem State.drawn_err (s : State) : s.drawn.err = s.err := rfl
@[simp] theorem State.drawn_res (s : State) : s.drawn.res = s.res := rfl
@[simp] theorem State.drawn_oidx (s : State) : s.drawn.oidx = s.oidx := rfl
@[simp] theorem State.drawn_src (s : State) : s.drawn.src = s.src := rfl
@[simp] theorem State.drawn_idlen (s : State) : s.drawn.idlen = s.idlen := rfl
@[simp] theorem State.drawn_fbase (s : State) : s.drawn.fbase = s.fbase := rfl
@[simp] theorem State.drawn_flen (s : State) : s.drawn.flen = s.flen := rfl
@[simp] theorem State.drawn_pend (s : State) : s.drawn.pend = s.pend := rfl
@[simp] theorem State.drawn_mem (s : State) : s.drawn.mem = s.mem := rfl
@[simp] theorem State.drawn_platform (s : State) : s.drawn.platform = s.platform := rfl
@[simp] theorem State.drawn_schedule (s : State) : s.drawn.schedule = s.schedule := rfl
@[simp] theorem State.drawn_posted (s : State) : s.drawn.posted = s.posted := rfl
@[simp] theorem State.drawn_raced (s : State) : s.drawn.raced = s.raced := rfl
@[simp] theorem State.drawn_unseen (s : State) : s.drawn.unseen = s.unseen := rfl
@[simp] theorem State.drawn_peers (s : State) : s.drawn.peers = s.peers := rfl
@[simp] theorem State.drawn_draws (s : State) : s.drawn.draws = s.draws + 1 := rfl
@[simp] theorem State.drawn_readData (s : State) : s.drawn.readData = s.readData := rfl

/-! ### State.setByteAt -/

@[simp] theorem State.setByteAt_h (s : State) (a : Addr) (b : Byte) : (s.setByteAt a b).h = s.h := rfl
@[simp] theorem State.setByteAt_v (s : State) (a : Addr) (b : Byte) : (s.setByteAt a b).v = s.v := rfl
@[simp] theorem State.setByteAt_w (s : State) (a : Addr) (b : Byte) : (s.setByteAt a b).w = s.w := rfl
@[simp] theorem State.setByteAt_len (s : State) (a : Addr) (b : Byte) : (s.setByteAt a b).len = s.len := rfl
@[simp] theorem State.setByteAt_t (s : State) (a : Addr) (b : Byte) : (s.setByteAt a b).t = s.t := rfl
@[simp] theorem State.setByteAt_phase (s : State) (a : Addr) (b : Byte) : (s.setByteAt a b).phase = s.phase := rfl
@[simp] theorem State.setByteAt_ovr (s : State) (a : Addr) (b : Byte) : (s.setByteAt a b).ovr = s.ovr := rfl
@[simp] theorem State.setByteAt_err (s : State) (a : Addr) (b : Byte) : (s.setByteAt a b).err = s.err := rfl
@[simp] theorem State.setByteAt_res (s : State) (a : Addr) (b : Byte) : (s.setByteAt a b).res = s.res := rfl
@[simp] theorem State.setByteAt_oidx (s : State) (a : Addr) (b : Byte) : (s.setByteAt a b).oidx = s.oidx := rfl
@[simp] theorem State.setByteAt_src (s : State) (a : Addr) (b : Byte) : (s.setByteAt a b).src = s.src := rfl
@[simp] theorem State.setByteAt_idlen (s : State) (a : Addr) (b : Byte) : (s.setByteAt a b).idlen = s.idlen := rfl
@[simp] theorem State.setByteAt_fbase (s : State) (a : Addr) (b : Byte) : (s.setByteAt a b).fbase = s.fbase := rfl
@[simp] theorem State.setByteAt_flen (s : State) (a : Addr) (b : Byte) : (s.setByteAt a b).flen = s.flen := rfl
@[simp] theorem State.setByteAt_pend (s : State) (a : Addr) (b : Byte) : (s.setByteAt a b).pend = s.pend := rfl
@[simp] theorem State.setByteAt_mem (s : State) (a : Addr) (b : Byte) : (s.setByteAt a b).mem = s.mem.write a.toNat b := rfl
@[simp] theorem State.setByteAt_platform (s : State) (a : Addr) (b : Byte) : (s.setByteAt a b).platform = s.platform := rfl
@[simp] theorem State.setByteAt_schedule (s : State) (a : Addr) (b : Byte) : (s.setByteAt a b).schedule = s.schedule := rfl
@[simp] theorem State.setByteAt_posted (s : State) (a : Addr) (b : Byte) : (s.setByteAt a b).posted = s.posted := rfl
@[simp] theorem State.setByteAt_raced (s : State) (a : Addr) (b : Byte) : (s.setByteAt a b).raced = s.raced := rfl
@[simp] theorem State.setByteAt_unseen (s : State) (a : Addr) (b : Byte) : (s.setByteAt a b).unseen = s.unseen := rfl
@[simp] theorem State.setByteAt_peers (s : State) (a : Addr) (b : Byte) : (s.setByteAt a b).peers = s.peers := rfl
@[simp] theorem State.setByteAt_draws (s : State) (a : Addr) (b : Byte) : (s.setByteAt a b).draws = s.draws := rfl
@[simp] theorem State.setByteAt_readData (s : State) (a : Addr) (b : Byte) : (s.setByteAt a b).readData = s.readData := rfl

/-! ### State.loadByte -/

@[simp] theorem State.loadByte_h (s : State) (b : Byte) : (s.loadByte b).h = s.h := rfl
@[simp] theorem State.loadByte_v (s : State) (b : Byte) : (s.loadByte b).v = s.v := rfl
@[simp] theorem State.loadByte_w (s : State) (b : Byte) : (s.loadByte b).w = setByte s.w s.len b := rfl
@[simp] theorem State.loadByte_len (s : State) (b : Byte) : (s.loadByte b).len = s.len + 1 := rfl
@[simp] theorem State.loadByte_t (s : State) (b : Byte) : (s.loadByte b).t = s.t := rfl
@[simp] theorem State.loadByte_phase (s : State) (b : Byte) : (s.loadByte b).phase = s.phase := rfl
@[simp] theorem State.loadByte_ovr (s : State) (b : Byte) : (s.loadByte b).ovr = s.ovr := rfl
@[simp] theorem State.loadByte_err (s : State) (b : Byte) : (s.loadByte b).err = s.err := rfl
@[simp] theorem State.loadByte_res (s : State) (b : Byte) : (s.loadByte b).res = s.res := rfl
@[simp] theorem State.loadByte_oidx (s : State) (b : Byte) : (s.loadByte b).oidx = s.oidx := rfl
@[simp] theorem State.loadByte_src (s : State) (b : Byte) : (s.loadByte b).src = s.src := rfl
@[simp] theorem State.loadByte_idlen (s : State) (b : Byte) : (s.loadByte b).idlen = s.idlen := rfl
@[simp] theorem State.loadByte_fbase (s : State) (b : Byte) : (s.loadByte b).fbase = s.fbase := rfl
@[simp] theorem State.loadByte_flen (s : State) (b : Byte) : (s.loadByte b).flen = s.flen := rfl
@[simp] theorem State.loadByte_pend (s : State) (b : Byte) : (s.loadByte b).pend = s.pend := rfl
@[simp] theorem State.loadByte_mem (s : State) (b : Byte) : (s.loadByte b).mem = s.mem := rfl
@[simp] theorem State.loadByte_platform (s : State) (b : Byte) : (s.loadByte b).platform = s.platform := rfl
@[simp] theorem State.loadByte_schedule (s : State) (b : Byte) : (s.loadByte b).schedule = s.schedule := rfl
@[simp] theorem State.loadByte_posted (s : State) (b : Byte) : (s.loadByte b).posted = s.posted := rfl
@[simp] theorem State.loadByte_raced (s : State) (b : Byte) : (s.loadByte b).raced = s.raced := rfl
@[simp] theorem State.loadByte_unseen (s : State) (b : Byte) : (s.loadByte b).unseen = s.unseen := rfl
@[simp] theorem State.loadByte_peers (s : State) (b : Byte) : (s.loadByte b).peers = s.peers := rfl
@[simp] theorem State.loadByte_draws (s : State) (b : Byte) : (s.loadByte b).draws = s.draws := rfl
@[simp] theorem State.loadByte_readData (s : State) (b : Byte) : (s.loadByte b).readData = s.readData := rfl

/-! ### State.setMixer -/

@[simp] theorem State.setMixer_h (s : State) (m : Mixer) : (s.setMixer m).h = s.h := rfl
@[simp] theorem State.setMixer_v (s : State) (m : Mixer) : (s.setMixer m).v = m.v := rfl
@[simp] theorem State.setMixer_w (s : State) (m : Mixer) : (s.setMixer m).w = m.w := rfl
@[simp] theorem State.setMixer_len (s : State) (m : Mixer) : (s.setMixer m).len = s.len := rfl
@[simp] theorem State.setMixer_t (s : State) (m : Mixer) : (s.setMixer m).t = s.t := rfl
@[simp] theorem State.setMixer_phase (s : State) (m : Mixer) : (s.setMixer m).phase = s.phase := rfl
@[simp] theorem State.setMixer_ovr (s : State) (m : Mixer) : (s.setMixer m).ovr = s.ovr := rfl
@[simp] theorem State.setMixer_err (s : State) (m : Mixer) : (s.setMixer m).err = s.err := rfl
@[simp] theorem State.setMixer_res (s : State) (m : Mixer) : (s.setMixer m).res = s.res := rfl
@[simp] theorem State.setMixer_oidx (s : State) (m : Mixer) : (s.setMixer m).oidx = s.oidx := rfl
@[simp] theorem State.setMixer_src (s : State) (m : Mixer) : (s.setMixer m).src = s.src := rfl
@[simp] theorem State.setMixer_idlen (s : State) (m : Mixer) : (s.setMixer m).idlen = s.idlen := rfl
@[simp] theorem State.setMixer_fbase (s : State) (m : Mixer) : (s.setMixer m).fbase = s.fbase := rfl
@[simp] theorem State.setMixer_flen (s : State) (m : Mixer) : (s.setMixer m).flen = s.flen := rfl
@[simp] theorem State.setMixer_pend (s : State) (m : Mixer) : (s.setMixer m).pend = s.pend := rfl
@[simp] theorem State.setMixer_mem (s : State) (m : Mixer) : (s.setMixer m).mem = s.mem := rfl
@[simp] theorem State.setMixer_platform (s : State) (m : Mixer) : (s.setMixer m).platform = s.platform := rfl
@[simp] theorem State.setMixer_schedule (s : State) (m : Mixer) : (s.setMixer m).schedule = s.schedule := rfl
@[simp] theorem State.setMixer_posted (s : State) (m : Mixer) : (s.setMixer m).posted = s.posted := rfl
@[simp] theorem State.setMixer_raced (s : State) (m : Mixer) : (s.setMixer m).raced = s.raced := rfl
@[simp] theorem State.setMixer_unseen (s : State) (m : Mixer) : (s.setMixer m).unseen = s.unseen := rfl
@[simp] theorem State.setMixer_peers (s : State) (m : Mixer) : (s.setMixer m).peers = s.peers := rfl
@[simp] theorem State.setMixer_draws (s : State) (m : Mixer) : (s.setMixer m).draws = s.draws := rfl
@[simp] theorem State.setMixer_readData (s : State) (m : Mixer) : (s.setMixer m).readData = s.readData := rfl

/-! ### State.finalAddition -/

@[simp] theorem State.finalAddition_h (s : State) : s.finalAddition.h = finalSum s.v := rfl
@[simp] theorem State.finalAddition_v (s : State) : s.finalAddition.v = s.v := rfl
@[simp] theorem State.finalAddition_w (s : State) : s.finalAddition.w = s.w := rfl
@[simp] theorem State.finalAddition_len (s : State) : s.finalAddition.len = s.len := rfl
@[simp] theorem State.finalAddition_t (s : State) : s.finalAddition.t = s.t := rfl
@[simp] theorem State.finalAddition_phase (s : State) : s.finalAddition.phase = .done := rfl
@[simp] theorem State.finalAddition_ovr (s : State) : s.finalAddition.ovr = s.ovr := rfl
@[simp] theorem State.finalAddition_err (s : State) : s.finalAddition.err = s.err := rfl
@[simp] theorem State.finalAddition_res (s : State) : s.finalAddition.res = s.res := rfl
@[simp] theorem State.finalAddition_oidx (s : State) : s.finalAddition.oidx = s.oidx := rfl
@[simp] theorem State.finalAddition_src (s : State) : s.finalAddition.src = s.src := rfl
@[simp] theorem State.finalAddition_idlen (s : State) : s.finalAddition.idlen = s.idlen := rfl
@[simp] theorem State.finalAddition_fbase (s : State) : s.finalAddition.fbase = s.fbase := rfl
@[simp] theorem State.finalAddition_flen (s : State) : s.finalAddition.flen = s.flen := rfl
@[simp] theorem State.finalAddition_pend (s : State) : s.finalAddition.pend = s.pend := rfl
@[simp] theorem State.finalAddition_mem (s : State) : s.finalAddition.mem = s.mem := rfl
@[simp] theorem State.finalAddition_platform (s : State) : s.finalAddition.platform = s.platform := rfl
@[simp] theorem State.finalAddition_schedule (s : State) : s.finalAddition.schedule = s.schedule := rfl
@[simp] theorem State.finalAddition_posted (s : State) : s.finalAddition.posted = s.posted := rfl
@[simp] theorem State.finalAddition_raced (s : State) : s.finalAddition.raced = s.raced := rfl
@[simp] theorem State.finalAddition_unseen (s : State) : s.finalAddition.unseen = s.unseen := rfl
@[simp] theorem State.finalAddition_peers (s : State) : s.finalAddition.peers = s.peers := rfl
@[simp] theorem State.finalAddition_draws (s : State) : s.finalAddition.draws = s.draws := rfl
@[simp] theorem State.finalAddition_readData (s : State) : s.finalAddition.readData = s.readData := rfl

/-! ### State.raise -/

@[simp] theorem State.raise_h (s : State) (e : ErrCause) : (s.raise e).h = s.h := rfl
@[simp] theorem State.raise_v (s : State) (e : ErrCause) : (s.raise e).v = s.v := rfl
@[simp] theorem State.raise_w (s : State) (e : ErrCause) : (s.raise e).w = s.w := rfl
@[simp] theorem State.raise_len (s : State) (e : ErrCause) : (s.raise e).len = s.len := rfl
@[simp] theorem State.raise_t (s : State) (e : ErrCause) : (s.raise e).t = s.t := rfl
@[simp] theorem State.raise_phase (s : State) (e : ErrCause) : (s.raise e).phase = .fault := rfl
@[simp] theorem State.raise_ovr (s : State) (e : ErrCause) : (s.raise e).ovr = s.ovr := rfl
@[simp] theorem State.raise_err (s : State) (e : ErrCause) : (s.raise e).err = e := rfl
@[simp] theorem State.raise_res (s : State) (e : ErrCause) : (s.raise e).res = s.res := rfl
@[simp] theorem State.raise_oidx (s : State) (e : ErrCause) : (s.raise e).oidx = s.oidx := rfl
@[simp] theorem State.raise_src (s : State) (e : ErrCause) : (s.raise e).src = s.src := rfl
@[simp] theorem State.raise_idlen (s : State) (e : ErrCause) : (s.raise e).idlen = s.idlen := rfl
@[simp] theorem State.raise_fbase (s : State) (e : ErrCause) : (s.raise e).fbase = s.fbase := rfl
@[simp] theorem State.raise_flen (s : State) (e : ErrCause) : (s.raise e).flen = s.flen := rfl
@[simp] theorem State.raise_pend (s : State) (e : ErrCause) : (s.raise e).pend = s.pend := rfl
@[simp] theorem State.raise_mem (s : State) (e : ErrCause) : (s.raise e).mem = s.mem := rfl
@[simp] theorem State.raise_platform (s : State) (e : ErrCause) : (s.raise e).platform = s.platform := rfl
@[simp] theorem State.raise_schedule (s : State) (e : ErrCause) : (s.raise e).schedule = s.schedule := rfl
@[simp] theorem State.raise_posted (s : State) (e : ErrCause) : (s.raise e).posted = s.posted := rfl
@[simp] theorem State.raise_raced (s : State) (e : ErrCause) : (s.raise e).raced = s.raced := rfl
@[simp] theorem State.raise_unseen (s : State) (e : ErrCause) : (s.raise e).unseen = s.unseen := rfl
@[simp] theorem State.raise_peers (s : State) (e : ErrCause) : (s.raise e).peers = s.peers := rfl
@[simp] theorem State.raise_draws (s : State) (e : ErrCause) : (s.raise e).draws = s.draws := rfl
@[simp] theorem State.raise_readData (s : State) (e : ErrCause) : (s.raise e).readData = s.readData := rfl

/-! ### State.finish -/

@[simp] theorem State.finish_h (s : State) : s.finish.h = s.h := rfl
@[simp] theorem State.finish_v (s : State) : s.finish.v = s.v := rfl
@[simp] theorem State.finish_w (s : State) : s.finish.w = s.w := rfl
@[simp] theorem State.finish_len (s : State) : s.finish.len = s.len := rfl
@[simp] theorem State.finish_t (s : State) : s.finish.t = s.t := rfl
@[simp] theorem State.finish_phase (s : State) : s.finish.phase = s.phase := rfl
@[simp] theorem State.finish_ovr (s : State) : s.finish.ovr = s.ovr := rfl
@[simp] theorem State.finish_err (s : State) : s.finish.err = s.err := rfl
@[simp] theorem State.finish_res (s : State) : s.finish.res = s.res := rfl
@[simp] theorem State.finish_oidx (s : State) : s.finish.oidx = s.oidx := rfl
@[simp] theorem State.finish_src (s : State) : s.finish.src = s.src := rfl
@[simp] theorem State.finish_idlen (s : State) : s.finish.idlen = s.idlen := rfl
@[simp] theorem State.finish_fbase (s : State) : s.finish.fbase = s.fbase := rfl
@[simp] theorem State.finish_flen (s : State) : s.finish.flen = s.flen := rfl
@[simp] theorem State.finish_pend (s : State) : s.finish.pend = none := rfl
@[simp] theorem State.finish_mem (s : State) : s.finish.mem = s.mem := rfl
@[simp] theorem State.finish_platform (s : State) : s.finish.platform = s.platform := rfl
@[simp] theorem State.finish_schedule (s : State) : s.finish.schedule = s.schedule := rfl
@[simp] theorem State.finish_posted (s : State) : s.finish.posted = s.posted := rfl
@[simp] theorem State.finish_raced (s : State) : s.finish.raced = [] := rfl
@[simp] theorem State.finish_unseen (s : State) : s.finish.unseen = s.unseen := rfl
@[simp] theorem State.finish_peers (s : State) : s.finish.peers = s.peers := rfl
@[simp] theorem State.finish_draws (s : State) : s.finish.draws = s.draws := rfl
@[simp] theorem State.finish_readData (s : State) : s.finish.readData = s.readData := rfl

/-! ### State.addUnseen -/

@[simp] theorem State.addUnseen_h (s : State) (a : Addr) : (s.addUnseen a).h = s.h := rfl
@[simp] theorem State.addUnseen_v (s : State) (a : Addr) : (s.addUnseen a).v = s.v := rfl
@[simp] theorem State.addUnseen_w (s : State) (a : Addr) : (s.addUnseen a).w = s.w := rfl
@[simp] theorem State.addUnseen_len (s : State) (a : Addr) : (s.addUnseen a).len = s.len := rfl
@[simp] theorem State.addUnseen_t (s : State) (a : Addr) : (s.addUnseen a).t = s.t := rfl
@[simp] theorem State.addUnseen_phase (s : State) (a : Addr) : (s.addUnseen a).phase = s.phase := rfl
@[simp] theorem State.addUnseen_ovr (s : State) (a : Addr) : (s.addUnseen a).ovr = s.ovr := rfl
@[simp] theorem State.addUnseen_err (s : State) (a : Addr) : (s.addUnseen a).err = s.err := rfl
@[simp] theorem State.addUnseen_res (s : State) (a : Addr) : (s.addUnseen a).res = s.res := rfl
@[simp] theorem State.addUnseen_oidx (s : State) (a : Addr) : (s.addUnseen a).oidx = s.oidx := rfl
@[simp] theorem State.addUnseen_src (s : State) (a : Addr) : (s.addUnseen a).src = s.src := rfl
@[simp] theorem State.addUnseen_idlen (s : State) (a : Addr) : (s.addUnseen a).idlen = s.idlen := rfl
@[simp] theorem State.addUnseen_fbase (s : State) (a : Addr) : (s.addUnseen a).fbase = s.fbase := rfl
@[simp] theorem State.addUnseen_flen (s : State) (a : Addr) : (s.addUnseen a).flen = s.flen := rfl
@[simp] theorem State.addUnseen_pend (s : State) (a : Addr) : (s.addUnseen a).pend = s.pend := rfl
@[simp] theorem State.addUnseen_mem (s : State) (a : Addr) : (s.addUnseen a).mem = s.mem := rfl
@[simp] theorem State.addUnseen_platform (s : State) (a : Addr) : (s.addUnseen a).platform = s.platform := rfl
@[simp] theorem State.addUnseen_schedule (s : State) (a : Addr) : (s.addUnseen a).schedule = s.schedule := rfl
@[simp] theorem State.addUnseen_posted (s : State) (a : Addr) : (s.addUnseen a).posted = s.posted := rfl
@[simp] theorem State.addUnseen_raced (s : State) (a : Addr) : (s.addUnseen a).raced = s.raced := rfl
@[simp] theorem State.addUnseen_unseen (s : State) (a : Addr) : (s.addUnseen a).unseen = a :: s.unseen := rfl
@[simp] theorem State.addUnseen_peers (s : State) (a : Addr) : (s.addUnseen a).peers = s.peers := rfl
@[simp] theorem State.addUnseen_draws (s : State) (a : Addr) : (s.addUnseen a).draws = s.draws := rfl
@[simp] theorem State.addUnseen_readData (s : State) (a : Addr) : (s.addUnseen a).readData = s.readData := rfl

/-! ### State.addRaced -/

@[simp] theorem State.addRaced_h (s : State) (r : Region) : (s.addRaced r).h = s.h := rfl
@[simp] theorem State.addRaced_v (s : State) (r : Region) : (s.addRaced r).v = s.v := rfl
@[simp] theorem State.addRaced_w (s : State) (r : Region) : (s.addRaced r).w = s.w := rfl
@[simp] theorem State.addRaced_len (s : State) (r : Region) : (s.addRaced r).len = s.len := rfl
@[simp] theorem State.addRaced_t (s : State) (r : Region) : (s.addRaced r).t = s.t := rfl
@[simp] theorem State.addRaced_phase (s : State) (r : Region) : (s.addRaced r).phase = s.phase := rfl
@[simp] theorem State.addRaced_ovr (s : State) (r : Region) : (s.addRaced r).ovr = s.ovr := rfl
@[simp] theorem State.addRaced_err (s : State) (r : Region) : (s.addRaced r).err = s.err := rfl
@[simp] theorem State.addRaced_res (s : State) (r : Region) : (s.addRaced r).res = s.res := rfl
@[simp] theorem State.addRaced_oidx (s : State) (r : Region) : (s.addRaced r).oidx = s.oidx := rfl
@[simp] theorem State.addRaced_src (s : State) (r : Region) : (s.addRaced r).src = s.src := rfl
@[simp] theorem State.addRaced_idlen (s : State) (r : Region) : (s.addRaced r).idlen = s.idlen := rfl
@[simp] theorem State.addRaced_fbase (s : State) (r : Region) : (s.addRaced r).fbase = s.fbase := rfl
@[simp] theorem State.addRaced_flen (s : State) (r : Region) : (s.addRaced r).flen = s.flen := rfl
@[simp] theorem State.addRaced_pend (s : State) (r : Region) : (s.addRaced r).pend = s.pend := rfl
@[simp] theorem State.addRaced_mem (s : State) (r : Region) : (s.addRaced r).mem = s.mem := rfl
@[simp] theorem State.addRaced_platform (s : State) (r : Region) : (s.addRaced r).platform = s.platform := rfl
@[simp] theorem State.addRaced_schedule (s : State) (r : Region) : (s.addRaced r).schedule = s.schedule := rfl
@[simp] theorem State.addRaced_posted (s : State) (r : Region) : (s.addRaced r).posted = s.posted := rfl
@[simp] theorem State.addRaced_raced (s : State) (r : Region) : (s.addRaced r).raced = r :: s.raced := rfl
@[simp] theorem State.addRaced_unseen (s : State) (r : Region) : (s.addRaced r).unseen = s.unseen := rfl
@[simp] theorem State.addRaced_peers (s : State) (r : Region) : (s.addRaced r).peers = s.peers := rfl
@[simp] theorem State.addRaced_draws (s : State) (r : Region) : (s.addRaced r).draws = s.draws := rfl
@[simp] theorem State.addRaced_readData (s : State) (r : Region) : (s.addRaced r).readData = s.readData := rfl

/-! ### stepRound -/

@[simp] theorem stepRound_h (s : State) : (stepRound s).h = s.h := rfl
@[simp] theorem stepRound_v (s : State) : (stepRound s).v = shiftWorking (roundSum s.t.toNat (schedule s.t.toNat s.w) s.v) s.v := rfl
@[simp] theorem stepRound_w (s : State) : (stepRound s).w = schedule s.t.toNat s.w := rfl
@[simp] theorem stepRound_len (s : State) : (stepRound s).len = s.len := rfl
@[simp] theorem stepRound_t (s : State) : (stepRound s).t = s.t + 1 := rfl
@[simp] theorem stepRound_phase (s : State) : (stepRound s).phase = s.phase := rfl
@[simp] theorem stepRound_ovr (s : State) : (stepRound s).ovr = s.ovr := rfl
@[simp] theorem stepRound_err (s : State) : (stepRound s).err = s.err := rfl
@[simp] theorem stepRound_res (s : State) : (stepRound s).res = s.res := rfl
@[simp] theorem stepRound_oidx (s : State) : (stepRound s).oidx = s.oidx := rfl
@[simp] theorem stepRound_src (s : State) : (stepRound s).src = s.src := rfl
@[simp] theorem stepRound_idlen (s : State) : (stepRound s).idlen = s.idlen := rfl
@[simp] theorem stepRound_fbase (s : State) : (stepRound s).fbase = s.fbase := rfl
@[simp] theorem stepRound_flen (s : State) : (stepRound s).flen = s.flen := rfl
@[simp] theorem stepRound_pend (s : State) : (stepRound s).pend = s.pend := rfl
@[simp] theorem stepRound_mem (s : State) : (stepRound s).mem = s.mem := rfl
@[simp] theorem stepRound_platform (s : State) : (stepRound s).platform = s.platform := rfl
@[simp] theorem stepRound_schedule (s : State) : (stepRound s).schedule = s.schedule := rfl
@[simp] theorem stepRound_posted (s : State) : (stepRound s).posted = s.posted := rfl
@[simp] theorem stepRound_raced (s : State) : (stepRound s).raced = s.raced := rfl
@[simp] theorem stepRound_unseen (s : State) : (stepRound s).unseen = s.unseen := rfl
@[simp] theorem stepRound_peers (s : State) : (stepRound s).peers = s.peers := rfl
@[simp] theorem stepRound_draws (s : State) : (stepRound s).draws = s.draws := rfl
@[simp] theorem stepRound_readData (s : State) : (stepRound s).readData = s.readData := rfl

/-! ### freshHash -/

@[simp] theorem freshHash_h (s : State) : (freshHash s).h = iv := rfl
@[simp] theorem freshHash_v (s : State) : (freshHash s).v = ivWorking := rfl
@[simp] theorem freshHash_w (s : State) : (freshHash s).w = Vector.replicate 16 0 := rfl
@[simp] theorem freshHash_len (s : State) : (freshHash s).len = 0 := rfl
@[simp] theorem freshHash_t (s : State) : (freshHash s).t = 0 := rfl
@[simp] theorem freshHash_phase (s : State) : (freshHash s).phase = .load := rfl
@[simp] theorem freshHash_ovr (s : State) : (freshHash s).ovr = s.ovr := rfl
@[simp] theorem freshHash_err (s : State) : (freshHash s).err = .none := rfl
@[simp] theorem freshHash_res (s : State) : (freshHash s).res = 0 := rfl
@[simp] theorem freshHash_oidx (s : State) : (freshHash s).oidx = 0 := rfl
@[simp] theorem freshHash_src (s : State) : (freshHash s).src = s.src := rfl
@[simp] theorem freshHash_idlen (s : State) : (freshHash s).idlen = s.idlen := rfl
@[simp] theorem freshHash_fbase (s : State) : (freshHash s).fbase = s.fbase := rfl
@[simp] theorem freshHash_flen (s : State) : (freshHash s).flen = s.flen := rfl
@[simp] theorem freshHash_pend (s : State) : (freshHash s).pend = s.pend := rfl
@[simp] theorem freshHash_mem (s : State) : (freshHash s).mem = s.mem := rfl
@[simp] theorem freshHash_platform (s : State) : (freshHash s).platform = s.platform := rfl
@[simp] theorem freshHash_schedule (s : State) : (freshHash s).schedule = s.schedule := rfl
@[simp] theorem freshHash_posted (s : State) : (freshHash s).posted = s.posted := rfl
@[simp] theorem freshHash_raced (s : State) : (freshHash s).raced = s.raced := rfl
@[simp] theorem freshHash_unseen (s : State) : (freshHash s).unseen = s.unseen := rfl
@[simp] theorem freshHash_peers (s : State) : (freshHash s).peers = s.peers := rfl
@[simp] theorem freshHash_draws (s : State) : (freshHash s).draws = s.draws := rfl
@[simp] theorem freshHash_readData (s : State) : (freshHash s).readData = s.readData := rfl

/-! ### padBlock -/

@[simp] theorem padBlock_h (s : State) : (padBlock s).h = s.h := rfl
@[simp] theorem padBlock_v (s : State) : (padBlock s).v = s.v := rfl
@[simp] theorem padBlock_w (s : State) : (padBlock s).w = (setByte s.w s.len 0x80).set 15 (BitVec.ofNat 32 (8 * s.len.toNat)) := rfl
@[simp] theorem padBlock_len (s : State) : (padBlock s).len = s.len := rfl
@[simp] theorem padBlock_t (s : State) : (padBlock s).t = s.t := rfl
@[simp] theorem padBlock_phase (s : State) : (padBlock s).phase = .compress := rfl
@[simp] theorem padBlock_ovr (s : State) : (padBlock s).ovr = s.ovr := rfl
@[simp] theorem padBlock_err (s : State) : (padBlock s).err = s.err := rfl
@[simp] theorem padBlock_res (s : State) : (padBlock s).res = s.res := rfl
@[simp] theorem padBlock_oidx (s : State) : (padBlock s).oidx = s.oidx := rfl
@[simp] theorem padBlock_src (s : State) : (padBlock s).src = s.src := rfl
@[simp] theorem padBlock_idlen (s : State) : (padBlock s).idlen = s.idlen := rfl
@[simp] theorem padBlock_fbase (s : State) : (padBlock s).fbase = s.fbase := rfl
@[simp] theorem padBlock_flen (s : State) : (padBlock s).flen = s.flen := rfl
@[simp] theorem padBlock_pend (s : State) : (padBlock s).pend = s.pend := rfl
@[simp] theorem padBlock_mem (s : State) : (padBlock s).mem = s.mem := rfl
@[simp] theorem padBlock_platform (s : State) : (padBlock s).platform = s.platform := rfl
@[simp] theorem padBlock_schedule (s : State) : (padBlock s).schedule = s.schedule := rfl
@[simp] theorem padBlock_posted (s : State) : (padBlock s).posted = s.posted := rfl
@[simp] theorem padBlock_raced (s : State) : (padBlock s).raced = s.raced := rfl
@[simp] theorem padBlock_unseen (s : State) : (padBlock s).unseen = s.unseen := rfl
@[simp] theorem padBlock_peers (s : State) : (padBlock s).peers = s.peers := rfl
@[simp] theorem padBlock_draws (s : State) : (padBlock s).draws = s.draws := rfl
@[simp] theorem padBlock_readData (s : State) : (padBlock s).readData = s.readData := rfl

/-! ### accept -/

@[simp] theorem accept_h (s : State) (c : Word) : (accept c s).h = s.h := rfl
@[simp] theorem accept_v (s : State) (c : Word) : (accept c s).v = s.v := rfl
@[simp] theorem accept_w (s : State) (c : Word) : (accept c s).w = s.w := rfl
@[simp] theorem accept_len (s : State) (c : Word) : (accept c s).len = s.len := rfl
@[simp] theorem accept_t (s : State) (c : Word) : (accept c s).t = s.t := rfl
@[simp] theorem accept_phase (s : State) (c : Word) : (accept c s).phase = s.phase := rfl
@[simp] theorem accept_ovr (s : State) (c : Word) : (accept c s).ovr = if isInitWord c then false else s.ovr := rfl
@[simp] theorem accept_err (s : State) (c : Word) : (accept c s).err = s.err := rfl
@[simp] theorem accept_res (s : State) (c : Word) : (accept c s).res = s.res := rfl
@[simp] theorem accept_oidx (s : State) (c : Word) : (accept c s).oidx = s.oidx := rfl
@[simp] theorem accept_src (s : State) (c : Word) : (accept c s).src = s.src := rfl
@[simp] theorem accept_idlen (s : State) (c : Word) : (accept c s).idlen = s.idlen := rfl
@[simp] theorem accept_fbase (s : State) (c : Word) : (accept c s).fbase = s.fbase := rfl
@[simp] theorem accept_flen (s : State) (c : Word) : (accept c s).flen = s.flen := rfl
@[simp] theorem accept_pend (s : State) (c : Word) : (accept c s).pend = some c := rfl
@[simp] theorem accept_mem (s : State) (c : Word) : (accept c s).mem = s.mem := rfl
@[simp] theorem accept_platform (s : State) (c : Word) : (accept c s).platform = s.platform := rfl
@[simp] theorem accept_schedule (s : State) (c : Word) : (accept c s).schedule = s.schedule := rfl
@[simp] theorem accept_posted (s : State) (c : Word) : (accept c s).posted = s.posted := rfl
@[simp] theorem accept_raced (s : State) (c : Word) : (accept c s).raced = s.raced := rfl
@[simp] theorem accept_unseen (s : State) (c : Word) : (accept c s).unseen = s.unseen := rfl
@[simp] theorem accept_peers (s : State) (c : Word) : (accept c s).peers = s.peers := rfl
@[simp] theorem accept_draws (s : State) (c : Word) : (accept c s).draws = s.draws := rfl
@[simp] theorem accept_readData (s : State) (c : Word) : (accept c s).readData = s.readData := rfl

/-! ### The views -/

@[simp] theorem State.mixer_w (s : State) : s.mixer.w = s.w := rfl
@[simp] theorem State.mixer_v (s : State) : s.mixer.v = s.v := rfl
@[simp] theorem State.mixer_setMixer (s : State) (m : Mixer) : (s.setMixer m).mixer = m := rfl
@[simp] theorem State.busy_of_pend_none (s : State) (h : s.pend = none) : s.busy = false := by simp [State.busy, h]
@[simp] theorem State.busy_of_pend_some (s : State) (w : Word) (h : s.pend = some w) : s.busy = true := by simp [State.busy, h]

/-! ### Races: who races depends on `raced` and `peers` only -/

@[simp] theorem State.drawn_contested (s : State) (x : Addr) : s.drawn.contested x = s.contested x := rfl
@[simp] theorem State.setByteAt_contested (s : State) (a : Addr) (b : Byte) (x : Addr) : (s.setByteAt a b).contested x = s.contested x := rfl
@[simp] theorem State.loadByte_contested (s : State) (b : Byte) (x : Addr) : (s.loadByte b).contested x = s.contested x := rfl
@[simp] theorem State.setMixer_contested (s : State) (m : Mixer) (x : Addr) : (s.setMixer m).contested x = s.contested x := rfl
@[simp] theorem State.finalAddition_contested (s : State) (x : Addr) : s.finalAddition.contested x = s.contested x := rfl
@[simp] theorem State.raise_contested (s : State) (e : ErrCause) (x : Addr) : (s.raise e).contested x = s.contested x := rfl
@[simp] theorem State.addUnseen_contested (s : State) (a : Addr) (x : Addr) : (s.addUnseen a).contested x = s.contested x := rfl
@[simp] theorem stepRound_contested (s : State) (x : Addr) : (stepRound s).contested x = s.contested x := rfl
@[simp] theorem freshHash_contested (s : State) (x : Addr) : (freshHash s).contested x = s.contested x := rfl
@[simp] theorem padBlock_contested (s : State) (x : Addr) : (padBlock s).contested x = s.contested x := rfl
@[simp] theorem accept_contested (s : State) (c : Word) (x : Addr) : (accept c s).contested x = s.contested x := rfl

end Sys2Proof.Machine
end

