-- ==== Sys2Proof/Laws/Datapath.lean ====
section
/-! SUPPORT. The laws of the datapath functions: the byte view of the block, runs of rounds, the keystream
(40_sha1_datapath.md). -/

namespace Sys2Proof.Machine

/-! ### The byte view (R124) -/

theorem putByte_get_same (x : Word) (v : Byte) (q : Nat) (hq : q < 4) :
    (putByte x (24 - 8 * q) v >>> (24 - 8 * q)).setWidth 8 = v := by
  have : q = 0 ∨ q = 1 ∨ q = 2 ∨ q = 3 := by omega
  rcases this with rfl | rfl | rfl | rfl <;>
  · ext i hi
    have : i = 0 ∨ i = 1 ∨ i = 2 ∨ i = 3 ∨ i = 4 ∨ i = 5 ∨ i = 6 ∨ i = 7 := by omega
    rcases this with rfl | rfl | rfl | rfl | rfl | rfl | rfl | rfl <;> simp [putByte] 

theorem putByte_get_other (x : Word) (v : Byte) (q r : Nat) (hq : q < 4) (hr : r < 4) (h : q ≠ r) :
    (putByte x (24 - 8 * q) v >>> (24 - 8 * r)).setWidth 8 = (x >>> (24 - 8 * r)).setWidth 8 := by
  have hq' : q = 0 ∨ q = 1 ∨ q = 2 ∨ q = 3 := by omega
  have hr' : r = 0 ∨ r = 1 ∨ r = 2 ∨ r = 3 := by omega
  rcases hq' with rfl | rfl | rfl | rfl <;> rcases hr' with rfl | rfl | rfl | rfl <;>
    first
    | exact absurd rfl h
    | (ext i hi
       have : i = 0 ∨ i = 1 ∨ i = 2 ∨ i = 3 ∨ i = 4 ∨ i = 5 ∨ i = 6 ∨ i = 7 := by omega
       rcases this with rfl | rfl | rfl | rfl | rfl | rfl | rfl | rfl <;> simp [putByte])

/-- Reading any byte of the block after writing one (R124). -/
theorem getByte_setByte (w : Vector Word 16) (j i : BitVec 6) (v : Byte) :
    getByte (setByte w j v) i = if i = j then v else getByte w i := by
  have hi := i.isLt
  have hj := j.isLt
  unfold getByte setByte byteShift
  by_cases hq : j.toNat / 4 = i.toNat / 4
  · rw [Vector.getElem_set]
    simp only [hq, if_true]
    by_cases h : i = j
    · subst h
      simp [putByte_get_same _ _ _ (Nat.mod_lt i.toNat (by decide : 0 < 4))]
    · have hne : i.toNat ≠ j.toNat := fun e => h (BitVec.eq_of_toNat_eq e)
      rw [if_neg h, putByte_get_other _ _ _ _ (Nat.mod_lt _ (by decide)) (Nat.mod_lt _ (by decide)) (by omega)]
  · have h : i ≠ j := fun e => hq (by rw [e])
    rw [Vector.getElem_set_ne _ _ hq, if_neg h]

/-- Two blocks with the same 64 bytes are the same (R124). -/
theorem block_ext {w w' : Vector Word 16} (h : ∀ j : BitVec 6, getByte w j = getByte w' j) : w = w' := by
  ext q hq i hi
  have hb : i / 8 < 4 := by omega
  have hj : (BitVec.ofNat 6 (4 * q + (3 - i / 8))).toNat = 4 * q + (3 - i / 8) := by
    rw [BitVec.toNat_ofNat]; omega
  have hw := congrArg (fun b : Byte => b.getLsbD (i % 8)) (h (BitVec.ofNat 6 (4 * q + (3 - i / 8))))
  have hdiv : (4 * q + (3 - i / 8)) / 4 = q := by omega
  have hmod : (4 * q + (3 - i / 8)) % 4 = 3 - i / 8 := by omega
  have hsh : 24 - 8 * (3 - i / 8) + i % 8 = i := by omega
  have hlt : i % 8 < 8 := by omega
  simp only [getByte, byteShift, hj, hdiv, hmod, BitVec.getLsbD_setWidth, BitVec.getLsbD_ushiftRight, hsh,
    hlt, decide_true, Bool.true_and] at hw
  simpa [BitVec.getLsbD_eq_getElem hi] using hw

/-- Bytes of other words are untouched by writing one word of the block (R124). -/
theorem getByte_set_word {w : Vector Word 16} {x : Word} {q : Nat} {hq : q < 16} {j : BitVec 6}
    (h : j.toNat / 4 ≠ q) : getByte (w.set q x hq) j = getByte w j := by
  unfold getByte
  rw [Vector.getElem_set_ne]
  exact fun e => h e.symm

/-- Four bytes as one word's value (R124). -/
theorem wordOfBytes_toNat (b0 b1 b2 b3 : Byte) :
    (wordOfBytes b0 b1 b2 b3).toNat =
      ((b0.toNat * 2 ^ 8 + b1.toNat) * 2 ^ 8 + b2.toNat) * 2 ^ 8 + b3.toNat := by
  rw [wordOfBytes, toNat_append_eq, toNat_append_eq, toNat_append_eq]

/-- The bytes of a padded block before its length word (R125). -/
theorem getByte_paddedBlock (m : List Byte) (j : BitVec 6) (hj : j.toNat < 60) :
    getByte (paddedBlock m) j = paddedByte m j.toNat := by
  have hq : j.toNat / 4 ≠ 15 := by omega
  unfold getByte paddedBlock
  rw [Vector.getElem_ofFn]
  simp only [if_neg hq]
  have hr : j.toNat % 4 = 0 ∨ j.toNat % 4 = 1 ∨ j.toNat % 4 = 2 ∨ j.toNat % 4 = 3 := by omega
  have hdiv : j.toNat = 4 * (j.toNat / 4) + j.toNat % 4 := by omega
  generalize hp0 : paddedByte m (4 * (j.toNat / 4)) = p0
  generalize hp1 : paddedByte m (4 * (j.toNat / 4) + 1) = p1
  generalize hp2 : paddedByte m (4 * (j.toNat / 4) + 2) = p2
  generalize hp3 : paddedByte m (4 * (j.toNat / 4) + 3) = p3
  have := p0.isLt
  have := p1.isLt
  have := p2.isLt
  have := p3.isLt
  have hk := wordOfBytes_toNat p0 p1 p2 p3
  unfold byteShift
  rcases hr with hr | hr | hr | hr <;> rw [hr] at hdiv ⊢ <;> conv => rhs; rw [hdiv]
  · rw [Nat.add_zero, hp0]
    apply BitVec.eq_of_toNat_eq
    rw [BitVec.toNat_setWidth, BitVec.toNat_ushiftRight, hk, Nat.shiftRight_eq_div_pow]
    omega
  · rw [hp1]
    apply BitVec.eq_of_toNat_eq
    rw [BitVec.toNat_setWidth, BitVec.toNat_ushiftRight, hk, Nat.shiftRight_eq_div_pow]
    omega
  · rw [hp2]
    apply BitVec.eq_of_toNat_eq
    rw [BitVec.toNat_setWidth, BitVec.toNat_ushiftRight, hk, Nat.shiftRight_eq_div_pow]
    omega
  · rw [hp3]
    apply BitVec.eq_of_toNat_eq
    rw [BitVec.toNat_setWidth, BitVec.toNat_ushiftRight, hk, Nat.shiftRight_eq_div_pow]
    omega

/-! ### Runs of rounds (R133) -/

/-- A run of rounds, its last round taken off. -/
theorem roundsFrom_succ (t n : Nat) (m : Mixer) : roundsFrom t (n + 1) m = round (t + n) (roundsFrom t n m) := by
  induction n generalizing t m with
  | zero => simp [roundsFrom]
  | succ n ih => rw [roundsFrom, ih (t + 1) (round t m), roundsFrom]; congr 1; omega

/-- Two runs of rounds in a row are one. -/
theorem roundsFrom_add (t n k : Nat) (m : Mixer) : roundsFrom (t + n) k (roundsFrom t n m) = roundsFrom t (n + k) m := by
  induction k with
  | zero => rfl
  | succ k ih => rw [roundsFrom_succ, ih, ← Nat.add_assoc, roundsFrom_succ, Nat.add_assoc]

/-! ### The keystream (R136-R139) -/

/-- The keystream repeats every 20 bytes (R139). -/
theorem keystream_add_period (h : Vector Word 5) (n : Nat) : keystream h (n + 20) = keystream h n := by
  simp [keystream]

/-- Masking a byte twice with the same key byte gives it back (R142). -/
theorem xor_keystream_twice (h : Vector Word 5) (n : Nat) (v : Byte) : v ^^^ keystream h n ^^^ keystream h n = v := by
  rw [BitVec.xor_assoc, BitVec.xor_self, BitVec.xor_zero]

end Sys2Proof.Machine
end

