-- ==== Sys2Proof/Laws/Memory.lean ====
section
/-! SUPPORT. The laws of external memory: a write keeps the canonical form, a read after a write, and that two canonical
memories that read the same are the same list (20_memory.md R61). -/

namespace Sys2Proof.Machine

/-- Every address listed in a memory is above `a`. -/
def Memory.above (a : Nat) (m : Memory) : Prop := ∀ c ∈ m, a < c.1

theorem Memory.wf_cons {c : Host.Cell} {m : Memory} :
    Memory.wf (c :: m) = true ↔
      c.1 < 2 ^ 32 ∧ c.2 ≠ Memory.unlisted ∧ Memory.above c.1 m ∧ Memory.wf m = true := by
  induction m generalizing c with
  | nil => simp [Memory.wf, Memory.above]
  | cons d m ih =>
    have hd := ih (c := d)
    simp only [Memory.wf, Bool.and_eq_true, decide_eq_true_eq, bne_iff_ne] at hd ⊢
    constructor
    · rintro ⟨⟨⟨hlt, hc⟩, hne⟩, hm⟩
      refine ⟨hc, hne, ?_, hm⟩
      intro x hx
      rcases List.mem_cons.1 hx with rfl | hx
      · exact hlt
      · exact Nat.lt_trans hlt ((hd.1 hm).2.2.1 x hx)
    · rintro ⟨hc, hne, hab, hm⟩
      exact ⟨⟨⟨hab d List.mem_cons_self, hc⟩, hne⟩, hm⟩

/-- An address below every listed one reads as unlisted. -/
theorem Memory.read_of_above {a : Nat} {m : Memory} (h : Memory.above a m) : m.read a = Memory.unlisted := by
  induction m with
  | nil => rfl
  | cons c m ih =>
    have hc : a < c.1 := h c List.mem_cons_self
    simp [Memory.read, Nat.ne_of_gt hc, ih fun x hx => h x (List.mem_cons_of_mem _ hx)]

theorem Memory.above_consCell {k a : Nat} {b : Byte} {m : Memory} (hk : k < a) (h : Memory.above k m) :
    Memory.above k (Memory.consCell a b m) := by
  unfold Memory.consCell
  split
  · exact h
  · intro c hc
    rcases List.mem_cons.1 hc with rfl | hc
    · exact hk
    · exact h c hc

/-- A write lists no address below both the old ones and its own. -/
theorem Memory.above_write {k a : Nat} {b : Byte} {m : Memory} (hk : k < a) (h : Memory.above k m) :
    Memory.above k (m.write a b) := by
  induction m with
  | nil => exact Memory.above_consCell hk h
  | cons c m ih =>
    have hm : Memory.above k m := fun x hx => h x (List.mem_cons_of_mem _ hx)
    simp only [Memory.write]
    split
    · intro x hx
      rcases List.mem_cons.1 hx with rfl | hx
      · exact h _ List.mem_cons_self
      · exact ih hm x hx
    · split
      · exact Memory.above_consCell hk hm
      · exact Memory.above_consCell hk h

theorem Memory.wf_consCell {a : Nat} {b : Byte} {m : Memory} (ha : a < 2 ^ 32) (h : Memory.above a m)
    (hm : m.wf = true) : (Memory.consCell a b m).wf = true := by
  unfold Memory.consCell
  split
  · exact hm
  · next hb => exact Memory.wf_cons.2 ⟨ha, hb, h, hm⟩

/-- A write keeps the canonical form. -/
theorem Memory.write_wf {m : Memory} {a : Nat} (b : Byte) (ha : a < 2 ^ 32) (hm : m.wf = true) :
    (m.write a b).wf = true := by
  induction m with
  | nil => exact Memory.wf_consCell ha (by simp [Memory.above]) rfl
  | cons c m ih =>
    obtain ⟨hc, hne, hab, hm'⟩ := Memory.wf_cons.1 hm
    simp only [Memory.write]
    split
    · next hlt => exact Memory.wf_cons.2 ⟨hc, hne, Memory.above_write hlt hab, ih hm'⟩
    · split
      · next _ heq => exact Memory.wf_consCell ha (heq ▸ hab) hm'
      · next hlt heq =>
        refine Memory.wf_consCell ha ?_ hm
        intro x hx
        rcases List.mem_cons.1 hx with rfl | hx
        · omega
        · have := hab x hx; omega

theorem Memory.read_consCell {a x : Nat} {b : Byte} {m : Memory} (h : Memory.above a m) :
    (Memory.consCell a b m).read x = if x = a then b else m.read x := by
  unfold Memory.consCell
  split
  · next hb =>
    split
    · next hx => rw [hx, Memory.read_of_above h, hb]
    · rfl
  · simp only [Memory.read]
    by_cases hx : x = a
    · simp [hx]
    · simp [hx, Ne.symm hx]

/-- A read after a write: the byte written at its address, the old byte elsewhere. -/
theorem Memory.read_write {m : Memory} {a : Nat} (b : Byte) (x : Nat) (hm : m.wf = true) :
    (m.write a b).read x = if x = a then b else m.read x := by
  induction m with
  | nil => simpa [Memory.write] using Memory.read_consCell (x := x) (b := b) (m := []) (a := a) (by simp [Memory.above])
  | cons c m ih =>
    obtain ⟨hc, hne, hab, hm'⟩ := Memory.wf_cons.1 hm
    simp only [Memory.write]
    split
    · next hlt =>
      simp only [Memory.read, ih hm']
      by_cases hx : x = a
      · simp [hx, Nat.ne_of_lt hlt]
      · simp [hx]
    · split
      · next _ heq =>
        rw [Memory.read_consCell (heq ▸ hab)]
        by_cases hx : x = a
        · simp [hx]
        · have : c.1 ≠ x := fun h => hx (h ▸ heq)
          simp [Memory.read, hx, this]
      · next hlt heq =>
        refine Memory.read_consCell ?_
        intro y hy
        rcases List.mem_cons.1 hy with rfl | hy
        · omega
        · have := hab y hy; omega

/-- Two canonical memories that read the same everywhere are the same list. -/
theorem Memory.ext_of_read {m n : Memory} (hm : m.wf = true) (hn : n.wf = true)
    (h : ∀ a < 2 ^ 32, m.read a = n.read a) : m = n := by
  induction m generalizing n with
  | nil =>
    cases n with
    | nil => rfl
    | cons d n =>
      obtain ⟨hd, hne, -, -⟩ := Memory.wf_cons.1 hn
      exact absurd (by simpa [Memory.read] using (h d.1 hd).symm) hne
  | cons c m ih =>
    obtain ⟨hc, hcne, hcab, hm'⟩ := Memory.wf_cons.1 hm
    cases n with
    | nil => exact absurd (by simpa [Memory.read] using h c.1 hc) hcne
    | cons d n =>
      obtain ⟨hd, hdne, hdab, hn'⟩ := Memory.wf_cons.1 hn
      have key : c.1 = d.1 := by
        rcases Nat.lt_trichotomy c.1 d.1 with hlt | heq | hgt
        · have hr : Memory.read (d :: n) c.1 = Memory.unlisted := by
            refine Memory.read_of_above ?_
            intro x hx
            rcases List.mem_cons.1 hx with rfl | hx
            · exact hlt
            · exact Nat.lt_trans hlt (hdab x hx)
          exact absurd ((by simp [Memory.read] : Memory.read (c :: m) c.1 = c.2).symm.trans ((h c.1 hc).trans hr)) hcne
        · exact heq
        · have hr : Memory.read (c :: m) d.1 = Memory.unlisted := by
            refine Memory.read_of_above ?_
            intro x hx
            rcases List.mem_cons.1 hx with rfl | hx
            · exact hgt
            · exact Nat.lt_trans hgt (hcab x hx)
          exact absurd ((by simp [Memory.read] : Memory.read (d :: n) d.1 = d.2).symm.trans ((h d.1 hd).symm.trans hr)) hdne
      have hcd : c = d := by
        refine Prod.ext key ?_
        simpa [Memory.read, key] using h c.1 hc
      subst hcd
      refine congrArg (c :: ·) (ih hm' hn' ?_)
      intro a ha
      by_cases hac : c.1 = a
      · subst hac
        rw [Memory.read_of_above hcab, Memory.read_of_above hdab]
      · simpa [Memory.read, hac] using h a ha

/-! ### Reads of one byte of a state -/

/-- Reading any byte after writing one (R61). -/
theorem State.byteAt_setByteAt {s : State} (a x : Addr) (b : Byte) (hm : s.mem.wf = true) :
    (s.setByteAt a b).byteAt x = if x = a then b else s.byteAt x := by
  simp [State.byteAt, Memory.read_write b x.toNat hm, BitVec.toNat_inj]

/-- A byte written keeps the memory canonical. -/
theorem State.setByteAt_wf {s : State} (a : Addr) (b : Byte) (hm : s.mem.wf = true) :
    (s.setByteAt a b).mem.wf = true :=
  Memory.write_wf b a.isLt hm

/-- States that read the same bytes hold the same memory, if both are canonical. -/
theorem State.mem_ext {s t : State} (hs : s.mem.wf = true) (ht : t.mem.wf = true)
    (h : ∀ a : Addr, s.byteAt a = t.byteAt a) : s.mem = t.mem := by
  refine Memory.ext_of_read hs ht fun a ha => ?_
  have hx := h (BitVec.ofNat 32 a)
  rwa [State.byteAt, State.byteAt, BitVec.toNat_ofNat, Nat.mod_eq_of_lt ha] at hx

@[simp] theorem State.drawn_byteAt (s : State) (x : Addr) : s.drawn.byteAt x = s.byteAt x := rfl
@[simp] theorem State.addUnseen_byteAt (s : State) (a x : Addr) : (s.addUnseen a).byteAt x = s.byteAt x := rfl
@[simp] theorem State.loadByte_byteAt (s : State) (b : Byte) (x : Addr) : (s.loadByte b).byteAt x = s.byteAt x := rfl
@[simp] theorem State.raise_byteAt (s : State) (e : ErrCause) (x : Addr) : (s.raise e).byteAt x = s.byteAt x := rfl
@[simp] theorem State.finish_byteAt (s : State) (x : Addr) : s.finish.byteAt x = s.byteAt x := rfl

end Sys2Proof.Machine
end

