-- ==== Sys2Proof/Laws/Cycle.lean ====
section
/-! SUPPORT. What the command cycle can do, said once: legality (41_hash_commands.md R150), completion (R152) and the next
states of every command. -/

namespace Sys2Proof.Machine

/-! ### Legality (R150) -/

theorem legalIn_yes {l c d : Bool} {p : Phase} :
    legalIn l c d p = .yes ↔ (p = .load ∧ l = true) ∨ (p = .compress ∧ c = true) ∨ (p = .done ∧ d = true) := by
  cases p <;> simp [legalIn]

theorem legalIn_seq {l c d : Bool} {p : Phase} :
    legalIn l c d p = .seq ↔ (p = .load ∧ l = false) ∨ (p = .compress ∧ c = false) ∨ (p = .done ∧ d = false) := by
  cases p <;> simp [legalIn]

theorem legalIn_ignored {l c d : Bool} {p : Phase} : legalIn l c d p = .ignored ↔ p = .fault := by
  cases p <;> simp [legalIn] <;> split <;> simp

/-- A command is ignored exactly in FAULT, unless it is NOP or INIT (R150, R207). -/
theorem legality_ignored {i : Instr} {p : Phase} {t : BitVec 7} :
    legality i p t = .ignored ↔ p = .fault ∧ i ≠ .nop ∧ i ≠ .init := by
  cases i <;> simp [legality, legalIn_ignored]

/-- STEP is legal exactly in COMPRESS with T < 80 (R150). -/
theorem legality_step_yes {p : Phase} {t : BitVec 7} : legality .step p t = .yes ↔ p = .compress ∧ t.toNat < 80 := by
  cases p <;> simp [legality, legalIn]

/-- STEP raises SEQ in LOAD, in DONE and in COMPRESS from T = 80 on (R150). -/
theorem legality_step_seq {p : Phase} {t : BitVec 7} :
    legality .step p t = .seq ↔ p = .load ∨ p = .done ∨ (p = .compress ∧ 80 ≤ t.toNat) := by
  cases p <;> simp [legality, legalIn]

/-- FIN is legal exactly in COMPRESS with T = 80 (R150). -/
theorem legality_fin_yes {p : Phase} {t : BitVec 7} : legality .fin p t = .yes ↔ p = .compress ∧ t.toNat = 80 := by
  cases p <;> simp [legality, legalIn]

/-- FIN raises SEQ in LOAD, in DONE and in COMPRESS unless T = 80 (R150). -/
theorem legality_fin_seq {p : Phase} {t : BitVec 7} :
    legality .fin p t = .seq ↔ p = .load ∨ p = .done ∨ (p = .compress ∧ t.toNat ≠ 80) := by
  cases p <;> simp [legality, legalIn]

/-! ### The length operands (R156, R183) -/

theorem ldmTooLong_eq_true {s : State} : ldmTooLong s = true ↔ 55 < s.len.toNat + s.idlen.toNat :=
  decide_eq_true_iff

theorem ldmTooLong_eq_false {s : State} : ldmTooLong s = false ↔ s.len.toNat + s.idlen.toNat ≤ 55 :=
  decide_eq_false_iff_not.trans Nat.not_lt

theorem obfCount_eq (s : State) : obfCount s = min 1040 s.flen.toNat := rfl

theorem obfCount_le (s : State) : obfCount s ≤ 1040 := Nat.min_le_left _ _

/-! ### Completion (R152) -/

theorem completeCommand_yes {i : Instr} {body : State → Result} {s : State} (h : legality i s.phase s.t = .yes) :
    completeCommand i body s = finishResult (body s) := by
  simp [completeCommand, h]

theorem completeCommand_seq {i : Instr} {body : State → Result} {s : State} (h : legality i s.phase s.t = .seq) :
    completeCommand i body s = .next (s.raise .seq).finish := by
  simp [completeCommand, h]

theorem completeCommand_ignored {i : Instr} {body : State → Result} {s : State}
    (h : legality i s.phase s.t = .ignored) : completeCommand i body s = .next s.finish := by
  simp [completeCommand, h]

/-- Everything a completion that answers a next state can be (R152). -/
theorem completeCommand_next {i : Instr} {body : State → Result} {s t : State}
    (h : completeCommand i body s = .next t) :
    (legality i s.phase s.t = .ignored ∧ t = s.finish) ∨
    (legality i s.phase s.t = .seq ∧ t = (s.raise .seq).finish) ∨
    (legality i s.phase s.t = .yes ∧ ∃ u, body s = .next u ∧ t = u.finish) := by
  unfold completeCommand at h
  split at h
  · next hl => exact .inl ⟨hl, by simpa using h.symm⟩
  · next hl => exact .inr (.inl ⟨hl, by simpa using h.symm⟩)
  · next hl =>
    refine .inr (.inr ⟨hl, ?_⟩)
    cases hb : body s with
    | next u => exact ⟨u, rfl, by simpa [finishResult, hb] using h.symm⟩
    | fault f => simp [finishResult, hb] at h
    | refused r => simp [finishResult, hb] at h

/-- The Execute body of each command. -/
def bodyOf : Instr → State → Result
  | .nop => nopBody
  | .init => initBody
  | .ldb imm8 => ldbBody imm8
  | .ldm => ldmBody
  | .pad => padBody
  | .step => stepBody
  | .fin => finBody
  | .hash => hashBody
  | .rdb imm16 => rdbBody imm16
  | .orst => orstBody
  | .xorb imm8 => xorbBody imm8
  | .obf => obfBody

/-- Every command completes by the one cycle of R152, with its own body. -/
theorem exec_eq_completeCommand (i : Instr) (s : State) : exec i s = completeCommand i (bodyOf i) s := by
  cases i <;> rfl

/-- A command that R150 ignores changes nothing but BUSY and PEND (R207). -/
theorem exec_ignored {i : Instr} {s : State} (h : legality i s.phase s.t = .ignored) : exec i s = .next s.finish := by
  rw [exec_eq_completeCommand, completeCommand_ignored h]

/-- A command out of its phase raises SEQ (R202). -/
theorem exec_seq {i : Instr} {s : State} (h : legality i s.phase s.t = .seq) :
    exec i s = .next (s.raise .seq).finish := by
  rw [exec_eq_completeCommand, completeCommand_seq h]

/-- A legal command runs its body, then BUSY <- 0 (R152). -/
theorem exec_yes {i : Instr} {s : State} (h : legality i s.phase s.t = .yes) :
    exec i s = finishResult (bodyOf i s) := by
  rw [exec_eq_completeCommand, completeCommand_yes h]

/-- Everything an exec that answers a next state can be. -/
theorem exec_next {i : Instr} {s t : State} (h : exec i s = .next t) :
    (legality i s.phase s.t = .ignored ∧ t = s.finish) ∨
    (legality i s.phase s.t = .seq ∧ t = (s.raise .seq).finish) ∨
    (legality i s.phase s.t = .yes ∧ ∃ u, bodyOf i s = .next u ∧ t = u.finish) := by
  rw [exec_eq_completeCommand] at h
  exact completeCommand_next h

theorem finishResult_next {r : Result} {t : State} (h : finishResult r = .next t) :
    ∃ u, r = .next u ∧ t = u.finish := by
  cases r with
  | next u => exact ⟨u, rfl, by simpa [finishResult] using h.symm⟩
  | fault f => simp [finishResult] at h
  | refused r => simp [finishResult] at h

/-- With every command over, no word is pending and no byte is raced. -/
theorem exec_pend {i : Instr} {s t : State} (h : exec i s = .next t) : t.pend = none ∧ t.raced = [] := by
  rcases exec_next h with ⟨-, rfl⟩ | ⟨-, rfl⟩ | ⟨-, u, -, rfl⟩ <;> simp

/-! ### The round commands -/

theorem stepRounds_mixer (n : Nat) (s : State) (h : s.t.toNat + n ≤ 127) :
    (stepRounds n s).mixer = roundsFrom s.t.toNat n s.mixer ∧ (stepRounds n s).t.toNat = s.t.toNat + n := by
  induction n generalizing s with
  | zero => simp [stepRounds, roundsFrom]
  | succ n ih =>
    have ht : (stepRound s).t.toNat = s.t.toNat + 1 := by
      simp only [stepRound_t, BitVec.toNat_add]; simp; omega
    have := ih (stepRound s) (by omega)
    rw [ht] at this
    refine ⟨?_, by rw [stepRounds, this.2]; omega⟩
    rw [stepRounds, this.1, roundsFrom]
    rfl

/-- A run of rounds changes W, A..E and T only (R158, R160). -/
theorem stepRounds_frame (n : Nat) (s : State) :
    stepRounds n s = { s with w := (stepRounds n s).w, v := (stepRounds n s).v, t := (stepRounds n s).t } := by
  induction n generalizing s with
  | zero => rfl
  | succ n ih => rw [stepRounds, ih (stepRound s)]; rfl

/-- A run of rounds leaves PHASE (R158). -/
theorem stepRounds_phase (n : Nat) (s : State) : (stepRounds n s).phase = s.phase := by rw [stepRounds_frame]

/-- Two runs of rounds in a row are one. -/
theorem stepRounds_add (n k : Nat) (s : State) : stepRounds k (stepRounds n s) = stepRounds (n + k) s := by
  induction n generalizing s with
  | zero => rw [Nat.zero_add, stepRounds]
  | succ n ih => rw [Nat.add_right_comm, stepRounds, stepRounds, ih]

/-! ### Several commands -/

/-- A sequence of commands in two parts. -/
theorem execAll_append (is js : List Instr) (s : State) :
    execAll (is ++ js) s =
      match execAll is s with
      | .next t => execAll js t
      | .fault f => .fault f
      | .refused r => .refused r := by
  induction is generalizing s with
  | nil => rfl
  | cons i is ih =>
    simp only [List.cons_append, execAll]
    cases exec i s <;> simp [ih]

/-- Loading one more byte onto the message held (R155). -/
theorem holdsMessage_loadByte {s : State} {m : List Byte} {b : Byte} (h : holdsMessage m s) (hl : m.length < 55) :
    holdsMessage (m ++ [b]) (s.loadByte b) := by
  have hlen := h.1
  refine ⟨by simp [hlen]; omega, fun j => ?_⟩
  rw [State.loadByte_w, getByte_setByte]
  by_cases hj : j = s.len
  · subst hj; simp [hlen]
  · have : j.toNat ≠ m.length := fun e => hj (BitVec.eq_of_toNat_eq (e.trans hlen.symm))
    rw [if_neg hj, h.2 j]
    simp only [List.getD_eq_getElem?_getD]
    by_cases hlt : j.toNat < m.length
    · rw [List.getElem?_append_left hlt]
    · rw [List.getElem?_append_right (by omega), List.getElem?_eq_none (by omega)]
      rw [List.getElem?_eq_none (by simp; omega)]

end Sys2Proof.Machine
end

