-- ==== Sys2Proof/Laws/Loops.lean ====
section
/-! SUPPORT. What the byte loops of LDM, OBF and an abandoned OBF do, said once: the bytes they load or rewrite, where a bus
error stops them, and their frames (41_hash_commands.md R156, 42_obfuscator_commands.md R183, 70_reset_and_hazards.md R231). -/

namespace Sys2Proof.Machine

/-! ### Engine addresses (R61) -/

theorem engineAddr_inj {base : Addr} {i j : Nat} (hi : i < 2 ^ 32) (hj : j < 2 ^ 32) :
    engineAddr base i = engineAddr base j ↔ i = j := by
  constructor
  · intro h
    have h' := (BitVec.add_right_inj base).1 h
    have := congrArg BitVec.toNat h'
    rwa [BitVec.toNat_ofNat, BitVec.toNat_ofNat, Nat.mod_eq_of_lt hi, Nat.mod_eq_of_lt hj] at this
  · rintro rfl; rfl

/-- An address is in a range exactly if it is one of the range's engine addresses. -/
theorem inRange_iff {base a : Addr} {n : Nat} (hn : n ≤ 2 ^ 32) :
    inRange base n a = true ↔ ∃ i < n, a = engineAddr base i := by
  simp only [inRange, decide_eq_true_eq]
  constructor
  · intro h
    refine ⟨(a - base).toNat, h, ?_⟩
    rw [engineAddr, BitVec.ofNat_toNat, BitVec.setWidth_eq, BitVec.add_comm, BitVec.sub_add_cancel]
  · rintro ⟨i, hi, rfl⟩
    have : engineAddr base i - base = BitVec.ofNat 32 i := by
      simp [engineAddr]
    rw [this, BitVec.toNat_ofNat, Nat.mod_eq_of_lt (by omega)]
    exact hi

/-- A range is refused for the own window or for side effects exactly if one of its bytes is one (R74, U13). -/
theorem rangeRefusal_none {p : Platform} {base : Addr} {n : Nat} :
    rangeRefusal p base n = none ↔ rangeUsable p base n := by
  unfold rangeRefusal rangeUsable
  simp only [List.any_map, List.any_eq_true, List.mem_range, Function.comp]
  constructor
  · intro h i hi
    split at h
    · simp at h
    · next h1 =>
      split at h
      · simp at h
      · next h2 =>
        constructor
        · cases hx : inOwnWindow p (engineAddr base i) with
          | false => rfl
          | true => exact absurd ⟨i, hi, hx⟩ h1
        · cases hx : hasSideEffects p (engineAddr base i) with
          | false => rfl
          | true => exact absurd ⟨i, hi, hx⟩ h2
  · intro h
    rw [if_neg, if_neg]
    · rintro ⟨i, hi, hx⟩; simp [(h i hi).2] at hx
    · rintro ⟨i, hi, hx⟩; simp [(h i hi).1] at hx

/-! ### One access (R62, R72) -/

/-- Everything a served read can be: the byte in memory, or a free value for a contested one. -/
theorem memRead_some {a : Addr} {s s' : State} {b : Byte} (h : memRead a s = some (b, s')) :
    busError s.platform a .read = false ∧
    ((s.contested a = true ∧ b = s.nextDrawByte ∧ s' = s.drawn) ∨
      (s.contested a = false ∧ b = s.byteAt a ∧ s' = s)) := by
  unfold memRead at h
  split at h
  · simp at h
  · next hb =>
    refine ⟨by simpa using hb, ?_⟩
    split at h
    · next hr => simp at h; exact .inl ⟨hr, h.1.symm, h.2.symm⟩
    · next hr => simp at h; exact .inr ⟨by simpa using hr, h.1.symm, h.2.symm⟩

theorem memRead_none {a : Addr} {s : State} : memRead a s = none ↔ busError s.platform a .read = true := by
  unfold memRead
  split
  · next h => simp [h]
  · next h => split <;> simpa using h

/-- Everything a served write can be: the byte written, or a free value for a contested one, not visible to others yet. -/
theorem memWrite_some {a : Addr} {b : Byte} {s s' : State} (h : memWrite a b s = some s') :
    busError s.platform a .write = false ∧
    ((s.contested a = true ∧ s' = (s.drawn.setByteAt a s.nextDrawByte).addUnseen a) ∨
      (s.contested a = false ∧ s' = (s.setByteAt a b).addUnseen a)) := by
  unfold memWrite at h
  split at h
  · simp at h
  · next hb =>
    refine ⟨by simpa using hb, ?_⟩
    split at h
    · next hr => simp at h; exact .inl ⟨hr, h.symm⟩
    · next hr => simp at h; exact .inr ⟨by simpa using hr, h.symm⟩

theorem memWrite_none {a : Addr} {b : Byte} {s : State} :
    memWrite a b s = none ↔ busError s.platform a .write = true := by
  unfold memWrite
  split
  · next h => simp [h]
  · next h => split <;> simpa using h

/-! ### LDM's loop -/

/-- What LDM's loop can change, with or without an error (R156, R206). -/
theorem ldmLoop_frame (base : Addr) (n j : Nat) (s : State) :
    ldmLoop base n j s =
      { s with
        w := (ldmLoop base n j s).w
        len := (ldmLoop base n j s).len
        draws := (ldmLoop base n j s).draws
        err := (ldmLoop base n j s).err
        phase := (ldmLoop base n j s).phase } := by
  induction n generalizing j s with
  | zero => rfl
  | succ n ih =>
    rw [ldmLoop]
    split
    · rfl
    · next b s' h =>
      rw [ih]
      rcases (memRead_some h).2 with ⟨-, -, rfl⟩ | ⟨-, -, rfl⟩ <;> rfl

/-- LDM's loop where no read meets a bus error: it loads every byte in order, a contested one as a free value drawn
meanwhile (R156, R72). -/
theorem ldmLoop_served (base : Addr) (n j : Nat) (s : State)
    (h : ∀ k < n, busError s.platform (engineAddr base (j + k)) .read = false) (hlen : s.len.toNat + n ≤ 63) :
    (ldmLoop base n j s).len.toNat = s.len.toNat + n ∧
    (∀ k < n, s.contested (engineAddr base (j + k)) = false →
      getByte (ldmLoop base n j s).w (BitVec.ofNat 6 (s.len.toNat + k)) = s.byteAt (engineAddr base (j + k))) ∧
    (∀ k < n, s.contested (engineAddr base (j + k)) = true → ∃ d, s.draws ≤ d ∧ d < (ldmLoop base n j s).draws ∧
      getByte (ldmLoop base n j s).w (BitVec.ofNat 6 (s.len.toNat + k)) = (Config.freeWord d).setWidth 8) ∧
    (∀ i : BitVec 6, i.toNat < s.len.toNat ∨ s.len.toNat + n ≤ i.toNat →
      getByte (ldmLoop base n j s).w i = getByte s.w i) ∧
    (ldmLoop base n j s).err = s.err ∧ (ldmLoop base n j s).phase = s.phase ∧
    s.draws ≤ (ldmLoop base n j s).draws ∧
    ((∀ k < n, s.contested (engineAddr base (j + k)) = false) → (ldmLoop base n j s).draws = s.draws) := by
  induction n generalizing j s with
  | zero => simp [ldmLoop]
  | succ n ih =>
    have hsh : ∀ k, j + 1 + k = j + (k + 1) := fun k => by omega
    have h0 := h 0 (by omega)
    rw [Nat.add_zero] at h0
    obtain ⟨b, s', hm⟩ : ∃ b s', memRead (engineAddr base j) s = some (b, s') := by
      cases hm : memRead (engineAddr base j) s with
      | none => rw [memRead_none] at hm; simp [hm] at h0
      | some x => exact ⟨x.1, x.2, rfl⟩
    rw [ldmLoop, hm]
    dsimp only
    have hfr : s' = { s with draws := s'.draws } ∧ s.draws ≤ s'.draws ∧
        (s.contested (engineAddr base j) = false → b = s.byteAt (engineAddr base j) ∧ s'.draws = s.draws) ∧
        (s.contested (engineAddr base j) = true → b = (Config.freeWord s.draws).setWidth 8 ∧ s.draws < s'.draws) := by
      rcases (memRead_some hm).2 with ⟨hr, rfl, rfl⟩ | ⟨hr, rfl, rfl⟩
      · exact ⟨rfl, Nat.le_succ _, fun hn => by simp [hr] at hn, fun _ => ⟨rfl, Nat.lt_succ_self _⟩⟩
      · exact ⟨rfl, Nat.le_refl _, fun _ => ⟨rfl, rfl⟩, fun hn => by simp [hr] at hn⟩
    obtain ⟨hs, hle, hbf, hbt⟩ := hfr
    have hp : s'.platform = s.platform := by rw [hs]
    have hl : s'.len = s.len := by rw [hs]
    have hw : s'.w = s.w := by rw [hs]
    have he : s'.err = s.err := by rw [hs]
    have hph : s'.phase = s.phase := by rw [hs]
    have hc : ∀ x, s'.contested x = s.contested x := by intro x; rw [hs]; rfl
    have hb : ∀ x, s'.byteAt x = s.byteAt x := by intro x; rw [hs]; rfl
    have hlen1 : (s'.loadByte b).len.toNat = s.len.toNat + 1 := by
      simp only [State.loadByte_len, hl, BitVec.toNat_add]; simp; omega
    obtain ⟨h1, h2, h3, h4, h5, h6, h7, h8⟩ := ih (j + 1) (s'.loadByte b)
      (by intro k hk; rw [State.loadByte_platform, hp, hsh]; exact h (k + 1) (by omega)) (by omega)
    simp only [hlen1, hsh, State.loadByte_contested, State.loadByte_byteAt, State.loadByte_w, State.loadByte_err,
      State.loadByte_phase, State.loadByte_draws, hc, hb, hw, hl, he, hph] at h1 h2 h3 h4 h5 h6 h7 h8
    have hx : (BitVec.ofNat 6 s.len.toNat).toNat = s.len.toNat := by rw [BitVec.toNat_ofNat]; omega
    have first : getByte (ldmLoop base n (j + 1) (s'.loadByte b)).w (BitVec.ofNat 6 s.len.toNat) = b := by
      rw [h4 _ (.inl (by omega)), getByte_setByte, if_pos (by simp)]
    have hadd : ∀ k, s.len.toNat + 1 + k = s.len.toNat + (k + 1) := fun k => by omega
    simp only [hadd] at h2 h3
    refine ⟨by omega, ?_, ?_, ?_, h5, h6, by omega, fun hn => (h8 fun k hk => hn (k + 1) (by omega)).trans
      (hbf (hn 0 (by omega))).2⟩
    · intro k hk hnr
      cases k with
      | zero => exact first.trans (hbf hnr).1
      | succ k => exact h2 k (by omega) hnr
    · intro k hk hr
      cases k with
      | zero => exact ⟨s.draws, Nat.le_refl _, by have := (hbt hr).2; omega, first.trans (hbt hr).1⟩
      | succ k =>
        obtain ⟨d, hd1, hd2, hd3⟩ := h3 k (by omega) hr
        exact ⟨d, by omega, hd2, hd3⟩
    · intro i hi
      rw [h4 i (by omega), getByte_setByte, if_neg]
      rintro rfl
      omega

/-- LDM's loop with its first `n` reads served goes on after them. -/
theorem ldmLoop_add (base : Addr) (n r j : Nat) (s : State)
    (h : ∀ k < n, busError s.platform (engineAddr base (j + k)) .read = false) :
    ldmLoop base (n + r) j s = ldmLoop base r (j + n) (ldmLoop base n j s) := by
  induction n generalizing j s with
  | zero => simp [ldmLoop]
  | succ n ih =>
    have h0 := h 0 (by omega)
    rw [Nat.add_right_comm, ldmLoop, ldmLoop]
    cases hm : memRead (engineAddr base j) s with
    | none => rw [memRead_none] at hm; simp [hm] at h0
    | some x =>
      obtain ⟨b, s'⟩ := x
      have hp : s'.platform = s.platform := by
        rcases (memRead_some hm).2 with ⟨-, -, rfl⟩ | ⟨-, -, rfl⟩ <;> rfl
      simp only
      rw [ih (j + 1) _ (by intro k hk; rw [State.loadByte_platform, hp]; have := h (k + 1) (by omega); rwa [Nat.add_assoc, Nat.add_comm 1 k])]
      congr 1
      omega

/-! ### OBF's loop -/

/-- What one byte of OBF can change (R183). -/
theorem obfByte_frame {base : Addr} {i : Nat} {s s' : State} (h : obfByte base i s = some s') :
    ∃ m u d, s' = { s with mem := m, unseen := u, draws := d } := by
  unfold obfByte at h
  split at h
  · simp at h
  · next v u hr =>
    rcases (memRead_some hr).2 with ⟨-, -, rfl⟩ | ⟨-, -, rfl⟩ <;>
      rcases (memWrite_some h).2 with ⟨-, rfl⟩ | ⟨-, rfl⟩ <;> exact ⟨_, _, _, rfl⟩

/-- What OBF's loop can change, with or without an error (R183, R206). -/
theorem obfLoop_frame (base : Addr) (n i : Nat) (s : State) :
    obfLoop base n i s =
      { s with
        mem := (obfLoop base n i s).mem
        unseen := (obfLoop base n i s).unseen
        draws := (obfLoop base n i s).draws
        err := (obfLoop base n i s).err
        phase := (obfLoop base n i s).phase } := by
  induction n generalizing i s with
  | zero => rfl
  | succ n ih =>
    rw [obfLoop]
    split
    · rfl
    · next s' h =>
      obtain ⟨m, u, d, rfl⟩ := obfByte_frame h
      rw [ih]

/-- One of n + 1 engine addresses is the first or one of the n others. -/
theorem exists_lt_succ_addr {base a : Addr} {n i : Nat} :
    (∃ k < n + 1, a = engineAddr base (i + k)) ↔
      (∃ k < n, a = engineAddr base (i + 1 + k)) ∨ a = engineAddr base i := by
  have hsh : ∀ k, i + 1 + k = i + (k + 1) := fun k => by omega
  simp only [hsh]
  constructor
  · rintro ⟨k | k, hk, h⟩
    · exact .inr h
    · exact .inl ⟨k, by omega, h⟩
  · rintro (⟨k, hk, h⟩ | h)
    · exact ⟨k + 1, by omega, h⟩
    · exact ⟨0, by omega, h⟩

/-- One byte of OBF where no access meets a bus error (R183), a contested one as a free value drawn meanwhile (R72). -/
theorem obfByte_served {base : Addr} {i : Nat} {s : State} (hm : s.mem.wf = true)
    (hr : busError s.platform (engineAddr base i) .read = false)
    (hw : busError s.platform (engineAddr base i) .write = false) :
    ∃ s', obfByte base i s = some s' ∧ s'.mem.wf = true ∧
      s' = { s with mem := s'.mem, unseen := engineAddr base i :: s.unseen, draws := s'.draws } ∧
      (s.contested (engineAddr base i) = false →
        s'.byteAt (engineAddr base i) = s.byteAt (engineAddr base i) ^^^ keystream s.h i ∧ s'.draws = s.draws) ∧
      (s.contested (engineAddr base i) = true → ∃ d, s.draws ≤ d ∧ d < s'.draws ∧
        s'.byteAt (engineAddr base i) = (Config.freeWord d).setWidth 8) ∧
      (∀ a, a ≠ engineAddr base i → s'.byteAt a = s.byteAt a) ∧ s.draws ≤ s'.draws := by
  unfold obfByte
  cases h : memRead (engineAddr base i) s with
  | none => rw [memRead_none] at h; simp [h] at hr
  | some x =>
    obtain ⟨v, u⟩ := x
    rcases (memRead_some h).2 with ⟨hra, rfl, rfl⟩ | ⟨hra, rfl, rfl⟩
    · refine ⟨(s.drawn.drawn.setByteAt (engineAddr base i) s.drawn.nextDrawByte).addUnseen (engineAddr base i), ?_, ?_, rfl,
        fun hn => by simp [hra] at hn, fun _ => ⟨s.draws + 1, by omega, by simp, ?_⟩, ?_, by simp; omega⟩
      · simp [memWrite, hw, hra]
      · exact State.setByteAt_wf _ _ hm
      · rw [State.addUnseen_byteAt, State.byteAt_setByteAt _ _ _ (by exact hm), if_pos rfl]; rfl
      · intro a ha
        rw [State.addUnseen_byteAt, State.byteAt_setByteAt _ _ _ (by exact hm), if_neg ha]; rfl
    · refine ⟨(u.setByteAt (engineAddr base i) (u.byteAt (engineAddr base i) ^^^ keystream u.h i)).addUnseen
          (engineAddr base i), ?_, ?_, rfl, ?_,
        fun hn => by simp [hra] at hn, ?_, Nat.le_refl _⟩
      · simp [memWrite, hw, hra]
      · exact State.setByteAt_wf _ _ hm
      · intro _; rw [State.addUnseen_byteAt, State.byteAt_setByteAt _ _ _ hm, if_pos rfl]; exact ⟨rfl, rfl⟩
      · intro a ha; rw [State.addUnseen_byteAt, State.byteAt_setByteAt _ _ _ hm, if_neg ha]

/-- OBF's loop where no access meets a bus error: it transforms every byte of its range and no other (R183); a contested
byte ends as a free value drawn meanwhile (R72). -/
theorem obfLoop_served (base : Addr) (n i : Nat) (s : State) (hm : s.mem.wf = true) (hn : i + n ≤ 2 ^ 32)
    (hr : ∀ k < n, busError s.platform (engineAddr base (i + k)) .read = false)
    (hw : ∀ k < n, busError s.platform (engineAddr base (i + k)) .write = false) :
    (obfLoop base n i s).mem.wf = true ∧
    (∀ k < n, s.contested (engineAddr base (i + k)) = false →
      (obfLoop base n i s).byteAt (engineAddr base (i + k)) =
        s.byteAt (engineAddr base (i + k)) ^^^ keystream s.h (i + k)) ∧
    (∀ k < n, s.contested (engineAddr base (i + k)) = true → ∃ d, s.draws ≤ d ∧ d < (obfLoop base n i s).draws ∧
      (obfLoop base n i s).byteAt (engineAddr base (i + k)) = (Config.freeWord d).setWidth 8) ∧
    (∀ a, (∀ k < n, a ≠ engineAddr base (i + k)) → (obfLoop base n i s).byteAt a = s.byteAt a) ∧
    (obfLoop base n i s).err = s.err ∧ (obfLoop base n i s).phase = s.phase ∧
    s.draws ≤ (obfLoop base n i s).draws ∧
    ((∀ k < n, s.contested (engineAddr base (i + k)) = false) → (obfLoop base n i s).draws = s.draws) := by
  induction n generalizing i s with
  | zero => simp [obfLoop, hm]
  | succ n ih =>
    obtain ⟨s', hs', hm', hfr, hbyte, hcont, hoth, hle⟩ := obfByte_served hm (hr 0 (by omega)) (hw 0 (by omega))
    rw [Nat.add_zero] at hs' hbyte hcont hoth
    have hp : s'.platform = s.platform := by rw [hfr]
    have hh : s'.h = s.h := by rw [hfr]
    have hc : ∀ x, s'.contested x = s.contested x := by intro x; rw [hfr]; rfl
    have he : s'.err = s.err := by rw [hfr]
    have hph : s'.phase = s.phase := by rw [hfr]
    have hsh : ∀ k, i + 1 + k = i + (k + 1) := fun k => by omega
    have hne : ∀ k < n, engineAddr base (i + (k + 1)) ≠ engineAddr base i := by
      intro k hk heq
      have := (engineAddr_inj (base := base) (i := i + (k + 1)) (j := i) (by omega) (by omega)).1 heq
      omega
    obtain ⟨h1, h2, h3, h4, h5, h6, h7, h8⟩ := ih (i + 1) s' hm' (by omega)
      (by intro k hk; rw [hp, hsh]; exact hr (k + 1) (by omega))
      (by intro k hk; rw [hp, hsh]; exact hw (k + 1) (by omega))
    rw [obfLoop, hs']
    dsimp only
    simp only [hsh, hc, hh] at h2 h3 h4 h8
    have first := h4 (engineAddr base i) fun k hk => (hne k hk).symm
    refine ⟨h1, ?_, ?_, ?_, h5.trans he, h6.trans hph, by omega, fun hn => (h8 fun k hk => hn (k + 1) (by omega)).trans
      (hbyte (hn 0 (by omega))).2⟩
    · intro k hk hnr
      cases k with
      | zero => exact first.trans (hbyte hnr).1
      | succ k => rw [h2 k (by omega) hnr, hoth _ (hne k (by omega))]
    · intro k hk hcr
      cases k with
      | zero =>
        obtain ⟨d, hd1, hd2, hd3⟩ := hcont hcr
        exact ⟨d, hd1, by omega, first.trans hd3⟩
      | succ k =>
        obtain ⟨d, hd1, hd2, hd3⟩ := h3 k (by omega) hcr
        exact ⟨d, by omega, hd2, hd3⟩
    · intro a ha
      rw [h4 a fun k hk => ha (k + 1) (by omega), hoth a (by simpa using ha 0 (by omega))]

/-- OBF's loop where no access meets a bus error leaves exactly the bytes of its range not visible to others yet, beside
those that were not before (R71(b), R77). -/
theorem obfLoop_unseen (base : Addr) (n i : Nat) (s : State) (hm : s.mem.wf = true)
    (hr : ∀ k < n, busError s.platform (engineAddr base (i + k)) .read = false)
    (hw : ∀ k < n, busError s.platform (engineAddr base (i + k)) .write = false) (a : Addr) :
    a ∈ (obfLoop base n i s).unseen ↔ (∃ k < n, a = engineAddr base (i + k)) ∨ a ∈ s.unseen := by
  induction n generalizing i s with
  | zero => simp [obfLoop]
  | succ n ih =>
    obtain ⟨s', hs', hm', hfr, -, -, -, -⟩ := obfByte_served hm (hr 0 (by omega)) (hw 0 (by omega))
    rw [Nat.add_zero] at hs' hfr
    have hp : s'.platform = s.platform := by rw [hfr]
    have hsh : ∀ k, i + 1 + k = i + (k + 1) := fun k => by omega
    have hu : s'.unseen = engineAddr base i :: s.unseen := by rw [hfr]
    rw [obfLoop, hs']
    simp only
    rw [ih (i + 1) s' hm' (by intro k hk; rw [hp, hsh]; exact hr (k + 1) (by omega))
      (by intro k hk; rw [hp, hsh]; exact hw (k + 1) (by omega)), hu, List.mem_cons, exists_lt_succ_addr,
      or_assoc]

/-- OBF's loop with its first `n` bytes served goes on after them. -/
theorem obfLoop_add (base : Addr) (n r i : Nat) (s : State) (hm : s.mem.wf = true)
    (hr : ∀ k < n, busError s.platform (engineAddr base (i + k)) .read = false)
    (hw : ∀ k < n, busError s.platform (engineAddr base (i + k)) .write = false) :
    obfLoop base (n + r) i s = obfLoop base r (i + n) (obfLoop base n i s) := by
  induction n generalizing i s with
  | zero => simp [obfLoop]
  | succ n ih =>
    obtain ⟨s', hs', hm', hfr, -, -, -, -⟩ := obfByte_served hm (hr 0 (by omega)) (hw 0 (by omega))
    rw [Nat.add_zero] at hs'
    have hp : s'.platform = s.platform := by rw [hfr]
    have hsh : ∀ k, i + 1 + k = i + (k + 1) := fun k => by omega
    rw [Nat.add_right_comm, obfLoop, obfLoop, hs']
    simp only
    rw [ih (i + 1) s' hm' (by intro k hk; rw [hp, hsh]; exact hr (k + 1) (by omega))
      (by intro k hk; rw [hp, hsh]; exact hw (k + 1) (by omega))]
    congr 1
    omega

/-- OBF writes only inside its range, whether or not an error stops it, and keeps the memory canonical (R184 item 3). -/
theorem obfLoop_outside (base : Addr) (n i : Nat) (s : State) (hm : s.mem.wf = true) :
    (obfLoop base n i s).mem.wf = true ∧
    ∀ a, (∀ k < n, a ≠ engineAddr base (i + k)) → (obfLoop base n i s).byteAt a = s.byteAt a := by
  induction n generalizing i s with
  | zero => simp [obfLoop, hm]
  | succ n ih =>
    rw [obfLoop]
    split
    · exact ⟨hm, fun _ _ => rfl⟩
    · next s' h =>
      have hb : busError s.platform (engineAddr base i) .read = false ∧
          busError s.platform (engineAddr base i) .write = false := by
        unfold obfByte at h
        split at h
        · simp at h
        · next v u hu =>
          refine ⟨(memRead_some hu).1, ?_⟩
          have := (memWrite_some h).1
          rcases (memRead_some hu).2 with ⟨-, -, rfl⟩ | ⟨-, -, rfl⟩ <;> exact this
      obtain ⟨s2, hs2, hm2, -, -, -, hoth, -⟩ := obfByte_served hm hb.1 hb.2
      rw [hs2] at h
      simp only [Option.some.injEq] at h
      subst h
      obtain ⟨h1, h2⟩ := ih (i + 1) s2 hm2
      refine ⟨h1, fun a ha => ?_⟩
      rw [h2 a fun k hk => by rw [show i + 1 + k = i + (k + 1) by omega]; exact ha (k + 1) (by omega),
        hoth a (by simpa using ha 0 (by omega))]

/-! ### An abandoned OBF -/

/-- What abandoning one byte of an OBF can change (R231). -/
theorem abandonByte_frame (base : Addr) (i : Nat) (s : State) :
    abandonByte base i s =
      { s with
        mem := (abandonByte base i s).mem
        unseen := engineAddr base i :: s.unseen
        draws := (abandonByte base i s).draws } := by
  have : ∃ m d, abandonByte base i s = { s with mem := m, unseen := engineAddr base i :: s.unseen, draws := d } := by
    unfold abandonByte
    simp only
    split
    · exact ⟨_, _, rfl⟩
    · split <;> exact ⟨_, _, rfl⟩
  obtain ⟨m, d, h⟩ := this
  rw [h]

/-- What abandoning an OBF can change (R231). -/
theorem abandonLoop_frame (base : Addr) (n i : Nat) (s : State) :
    abandonLoop base n i s =
      { s with
        mem := (abandonLoop base n i s).mem
        unseen := (abandonLoop base n i s).unseen
        draws := (abandonLoop base n i s).draws } := by
  induction n generalizing i s with
  | zero => rfl
  | succ n ih =>
    rw [abandonLoop, ih, abandonByte_frame]

/-- An abandoned OBF leaves exactly the bytes of its range not visible to others yet, beside those that were not before
(R71(b), R231). -/
theorem abandonLoop_unseen (base : Addr) (n i : Nat) (s : State) (a : Addr) :
    a ∈ (abandonLoop base n i s).unseen ↔ (∃ k < n, a = engineAddr base (i + k)) ∨ a ∈ s.unseen := by
  induction n generalizing i s with
  | zero => simp [abandonLoop]
  | succ n ih =>
    have hu : (abandonByte base i s).unseen = engineAddr base i :: s.unseen := by rw [abandonByte_frame]
    rw [abandonLoop, ih, hu, List.mem_cons, exists_lt_succ_addr, or_assoc]

/-- Byte i of an abandoned OBF: old or transformed, and a free value drawn meanwhile if it is contested; no other byte
changes (R231, R72). -/
theorem abandonByte_spec (base : Addr) (i : Nat) (s : State) (hm : s.mem.wf = true) :
    (abandonByte base i s).mem.wf = true ∧ s.draws < (abandonByte base i s).draws ∧
    (s.contested (engineAddr base i) = false →
      (abandonByte base i s).byteAt (engineAddr base i) = s.byteAt (engineAddr base i) ∨
      (abandonByte base i s).byteAt (engineAddr base i) = s.byteAt (engineAddr base i) ^^^ keystream s.h i) ∧
    (s.contested (engineAddr base i) = true →
      (abandonByte base i s).byteAt (engineAddr base i) = (Config.freeWord s.draws).setWidth 8) ∧
    ∀ a, a ≠ engineAddr base i → (abandonByte base i s).byteAt a = s.byteAt a := by
  unfold abandonByte
  simp only
  split
  · next hr =>
    refine ⟨State.setByteAt_wf _ _ hm, Nat.lt_succ_self _, fun hn => by simp [hr] at hn, fun _ => ?_, fun a ha => ?_⟩
    · rw [State.addUnseen_byteAt, State.byteAt_setByteAt _ _ _ (by exact hm), if_pos rfl]; rfl
    · rw [State.addUnseen_byteAt, State.byteAt_setByteAt _ _ _ (by exact hm), if_neg ha]; rfl
  · next hr =>
    split
    · refine ⟨State.setByteAt_wf _ _ hm, Nat.lt_succ_self _, fun _ => .inr ?_, fun h => absurd h hr, fun a ha => ?_⟩
      · rw [State.addUnseen_byteAt, State.byteAt_setByteAt _ _ _ (by exact hm), if_pos rfl]
      · rw [State.addUnseen_byteAt, State.byteAt_setByteAt _ _ _ (by exact hm), if_neg ha]; rfl
    · exact ⟨hm, Nat.lt_succ_self _, fun _ => .inl rfl, fun h => absurd h hr, fun _ _ => rfl⟩

/-- The bytes of an abandoned OBF: each old or transformed, or a free value drawn meanwhile if contested; none outside its
range changes (R231, R72). -/
theorem abandonLoop_spec (base : Addr) (n i : Nat) (s : State) (hm : s.mem.wf = true) (hn : i + n ≤ 2 ^ 32) :
    (abandonLoop base n i s).mem.wf = true ∧ s.draws ≤ (abandonLoop base n i s).draws ∧
    (∀ k < n, s.contested (engineAddr base (i + k)) = false →
      (abandonLoop base n i s).byteAt (engineAddr base (i + k)) = s.byteAt (engineAddr base (i + k)) ∨
      (abandonLoop base n i s).byteAt (engineAddr base (i + k)) =
        s.byteAt (engineAddr base (i + k)) ^^^ keystream s.h (i + k)) ∧
    (∀ k < n, s.contested (engineAddr base (i + k)) = true → ∃ d, s.draws ≤ d ∧ d < (abandonLoop base n i s).draws ∧
      (abandonLoop base n i s).byteAt (engineAddr base (i + k)) = (Config.freeWord d).setWidth 8) ∧
    ∀ a, (∀ k < n, a ≠ engineAddr base (i + k)) → (abandonLoop base n i s).byteAt a = s.byteAt a := by
  induction n generalizing i s with
  | zero => simp [abandonLoop, hm]
  | succ n ih =>
    obtain ⟨hm', hlt, hbyte, hcont, hoth⟩ := abandonByte_spec base i s hm
    have hfr := abandonByte_frame base i s
    have hh : (abandonByte base i s).h = s.h := by rw [hfr]
    have hc : ∀ x, (abandonByte base i s).contested x = s.contested x := by intro x; rw [hfr]; rfl
    have hsh : ∀ k, i + 1 + k = i + (k + 1) := fun k => by omega
    have hne : ∀ k < n, engineAddr base (i + (k + 1)) ≠ engineAddr base i := by
      intro k hk heq
      have := (engineAddr_inj (base := base) (i := i + (k + 1)) (j := i) (by omega) (by omega)).1 heq
      omega
    obtain ⟨h1, h2, h3, h4, h5⟩ := ih (i + 1) (abandonByte base i s) hm' (by omega)
    simp only [hsh, hc, hh] at h3 h4 h5
    have first := h5 (engineAddr base i) fun k hk => (hne k hk).symm
    rw [abandonLoop]
    refine ⟨h1, by omega, ?_, ?_, ?_⟩
    · intro k hk hnr
      cases k with
      | zero => simp only [Nat.add_zero] at hnr ⊢; rw [first]; exact hbyte hnr
      | succ k => rw [← hoth _ (hne k (by omega))]; exact h3 k (by omega) hnr
    · intro k hk hcr
      cases k with
      | zero => exact ⟨s.draws, Nat.le_refl _, by omega, first.trans (hcont hcr)⟩
      | succ k =>
        obtain ⟨d, hd1, hd2, hd3⟩ := h4 k (by omega) hcr
        exact ⟨d, by omega, hd2, hd3⟩
    · intro a ha
      rw [h5 a fun k hk => ha (k + 1) (by omega), hoth a (by simpa using ha 0 (by omega))]

end Sys2Proof.Machine
end

