-- ==== Sys2Proof/Laws/Environment.lean ====
section
/-! SUPPORT. What the window accesses, the other agents' accesses and reset can change, said once (10_state.md R41-R43,
20_memory.md R71, R72, 70_reset_and_hazards.md R230, R231), and everything one step can be. -/

namespace Sys2Proof.Machine

/-! ### Frames -/

/-- A window read changes what it returns, the draws and what is visible to others only (R41, R67, R71(b)). -/
theorem readWindow_frame (o : BitVec 8) (s : State) :
    readWindow o s =
      { s with
        unseen := (readWindow o s).unseen
        draws := (readWindow o s).draws
        readData := (readWindow o s).readData } := by
  have : ∃ u d r, readWindow o s = { s with unseen := u, draws := d, readData := r } := by
    unfold readWindow
    split
    · exact ⟨_, _, _, rfl⟩
    · split <;> exact ⟨_, _, _, rfl⟩
  obtain ⟨u, d, r, h⟩ := this
  rw [h]

theorem makesWritesVisible_iff {r : Reg} {s : State} : makesWritesVisible r s = true ↔ r = .status ∧ s.busy = false := by
  simp [makesWritesVisible]

/-- After a read of STATUS with BUSY = 0 every byte is visible (R71(b)); any other window read leaves what is visible. -/
theorem readWindow_unseen (o : BitVec 8) (s : State) :
    (readWindow o s).unseen = if regAt o = some .status ∧ s.busy = false then [] else s.unseen := by
  unfold readWindow
  split
  · next h => simp [h]
  · next r h =>
    cases hb : s.busy <;> cases r <;> simp [h, hb, unspecifiedWhileBusy, makesWritesVisible]

/-- Another agent's read changes what it returns and the draws only. -/
theorem otherLoad_frame (g : Agent) (a : Addr) (s : State) :
    otherLoad g a s = { s with draws := (otherLoad g a s).draws, readData := (otherLoad g a s).readData } := by
  have : ∃ d r, otherLoad g a s = { s with draws := d, readData := r } := by
    unfold otherLoad
    split <;> exact ⟨_, _, rfl⟩
  obtain ⟨d, r, h⟩ := this
  rw [h]

/-- The host's read changes what it returns and the draws only. -/
theorem hostLoad_frame (a : Addr) (s : State) :
    hostLoad a s = { s with draws := (hostLoad a s).draws, readData := (hostLoad a s).readData } := by
  have : ∃ d r, hostLoad a s = { s with draws := d, readData := r } := by
    unfold hostLoad
    split
    · exact ⟨_, _, otherLoad_frame .plain a s⟩
    · split
      · exact ⟨_, _, otherLoad_frame .plain a s⟩
      · exact ⟨_, _, rfl⟩
  obtain ⟨d, r, h⟩ := this
  rw [h]

/-- Another agent's write changes memory and, where it races, the race and the draws only. -/
theorem otherStore_frame (g : Agent) (a : Addr) (b : Byte) (s : State) :
    otherStore g a b s =
      { s with
        mem := (otherStore g a b s).mem
        raced := (otherStore g a b s).raced
        draws := (otherStore g a b s).draws } := by
  have : ∃ m r d, otherStore g a b s = { s with mem := m, raced := r, draws := d } := by
    unfold otherStore
    split
    · exact ⟨_, _, _, rfl⟩
    · split <;> exact ⟨_, _, _, rfl⟩
  obtain ⟨m, r, d, h⟩ := this
  rw [h]

theorem landList_frame (l : List (Addr × Byte)) (s : State) :
    landList l s =
      { s with
        mem := (landList l s).mem
        raced := (landList l s).raced
        draws := (landList l s).draws } := by
  induction l generalizing s with
  | nil => rfl
  | cons c l ih => rw [landList, ih, otherStore_frame]

/-- The barrier changes memory, the posted writes and, where they race, the race and the draws only. -/
theorem landAll_frame (s : State) :
    landAll s =
      { s with
        mem := (landAll s).mem
        posted := []
        raced := (landAll s).raced
        draws := (landAll s).draws } := by
  rw [landAll, landList_frame]

/-- The landing of one posted write, likewise. -/
theorem landOne_frame (a : Addr) (s : State) :
    landOne a s =
      { s with
        mem := (landOne a s).mem
        posted := (landOne a s).posted
        raced := (landOne a s).raced
        draws := (landOne a s).draws } := by
  have : ∃ m p r d, landOne a s = { s with mem := m, posted := p, raced := r, draws := d } := by
    unfold landOne
    split
    · exact ⟨_, _, _, _, rfl⟩
    · rw [otherStore_frame]; exact ⟨_, _, _, _, rfl⟩
  obtain ⟨m, p, r, d, h⟩ := this
  rw [h]

/-- What the platform does before a window write, likewise (R71(a)). -/
theorem orderBeforeMmio_frame (s : State) :
    orderBeforeMmio s =
      { s with
        mem := (orderBeforeMmio s).mem
        posted := (orderBeforeMmio s).posted
        raced := (orderBeforeMmio s).raced
        draws := (orderBeforeMmio s).draws } := by
  have : ∃ m p r d, orderBeforeMmio s = { s with mem := m, posted := p, raced := r, draws := d } := by
    unfold orderBeforeMmio
    split
    · rw [landAll_frame]; exact ⟨_, _, _, _, rfl⟩
    · exact ⟨_, _, _, _, rfl⟩
  obtain ⟨m, p, r, d, h⟩ := this
  rw [h]

/-- Abandoning a command changes memory, what of it is visible, and the draws only (R231). -/
theorem abandonPending_frame (s : State) :
    abandonPending s =
      { s with
        mem := (abandonPending s).mem
        unseen := (abandonPending s).unseen
        draws := (abandonPending s).draws } := by
  have : ∃ m u d, abandonPending s = { s with mem := m, unseen := u, draws := d } := by
    unfold abandonPending
    split
    · split
      · rw [abandonLoop_frame]; exact ⟨_, _, _, rfl⟩
      · exact ⟨_, _, _, rfl⟩
    · exact ⟨_, _, _, rfl⟩
  obtain ⟨m, u, d, h⟩ := this
  rw [h]

/-- Everything a window write can be (R41, R43, R151). -/
theorem writeWindow_cases (o : BitVec 8) (v : Word) (s : State) :
    writeWindow o v s = s ∨
    (s.busy = true ∧ (∃ r, regAt o = some r ∧ writable r = true) ∧ writeWindow o v s = { s with ovr := true }) ∨
    (s.busy = false ∧ regAt o = some .cmd ∧ writeWindow o v s = accept v s) ∨
    (s.busy = false ∧ regAt o = some .src ∧ writeWindow o v s = { s with src := v }) ∨
    (s.busy = false ∧ regAt o = some .idlen ∧ writeWindow o v s = { s with idlen := v }) ∨
    (s.busy = false ∧ regAt o = some .fbase ∧ writeWindow o v s = { s with fbase := v }) ∨
    (s.busy = false ∧ regAt o = some .flen ∧ writeWindow o v s = { s with flen := v }) := by
  unfold writeWindow
  split
  · exact .inl rfl
  · next r hr =>
    cases hb : s.busy with
    | true =>
      cases hw : writable r with
      | true => exact .inr (.inl ⟨rfl, ⟨r, hr, hw⟩, by simp⟩)
      | false => exact .inl (by simp)
    | false =>
      cases r <;> simp [writeReg, hr]

/-- What a window write can change (R43, R151). -/
theorem writeWindow_frame (o : BitVec 8) (v : Word) (s : State) :
    writeWindow o v s =
      { s with
        ovr := (writeWindow o v s).ovr
        pend := (writeWindow o v s).pend
        src := (writeWindow o v s).src
        idlen := (writeWindow o v s).idlen
        fbase := (writeWindow o v s).fbase
        flen := (writeWindow o v s).flen } := by
  rcases writeWindow_cases o v s with h | ⟨-, -, h⟩ | ⟨-, -, h⟩ | ⟨-, -, h⟩ | ⟨-, -, h⟩ | ⟨-, -, h⟩ | ⟨-, -, h⟩ <;>
    (rw [h]; try rfl)

/-! ### The register map (R40) -/

/-- Every register stands at its own offset. -/
theorem regAt_regOffset (r : Reg) : regAt (regOffset r) = some r := by
  cases r
  case h i => revert i; decide
  case w j => revert j; decide
  all_goals rfl

/-- Every mapped offset is its register's. -/
theorem regOffset_of_regAt {o : BitVec 8} {r : Reg} (h : regAt o = some r) : regOffset r = o := by
  have key : ∀ o : Fin 256, ∀ r, regAt (BitVec.ofFin o) = some r → regOffset r = BitVec.ofFin o := by decide +kernel
  exact key o.toFin r h

/-- Every register's offset is a multiple of 4. -/
theorem regOffset_aligned (r : Reg) : (regOffset r).toNat % 4 = 0 := by
  cases r
  case h i => revert i; decide
  case w j => revert j; decide
  all_goals rfl

/-- The step of a defined host read (R41). -/
theorem step_hostRead {s : State} {o : BitVec 8} {rest : List Event} (h : s.schedule = .hostRead o .w32 :: rest)
    (ho : o.toNat % 4 = 0) : step s = .next (readWindow o { s with schedule := rest }) := by
  simp only [step, stepScheduled, h, perform]
  rw [if_pos]
  simp [hostAccessDefined, ho]

/-- The step of a defined host write (R41, R71(a)). -/
theorem step_hostWrite {s : State} {o : BitVec 8} {v : Word} {rest : List Event}
    (h : s.schedule = .hostWrite o .w32 v :: rest) (ho : o.toNat % 4 = 0) :
    step s = .next (writeWindow o v (orderBeforeMmio { s with schedule := rest })) := by
  simp only [step, stepScheduled, h, perform]
  rw [if_pos]
  simp [hostAccessDefined, ho]

/-! ### Races (R72) -/

theorem races_of_pend_none {s : State} (h : s.pend = none) (a : Addr) : races s a = false := by
  simp [races, pendingCommand, h]

/-- A write whose outcome is open leaves the next free byte, and else the byte written. -/
theorem otherStore_mem (g : Agent) (a : Addr) (b : Byte) (s : State) :
    (otherStore g a b s).mem = s.mem.write a.toNat (if accessOpen s g a then s.nextDrawByte else b) := by
  unfold otherStore accessOpen
  cases races s a <;> cases s.peerTouches g a <;> cases s.unseenAt a <;> rfl

theorem otherStore_wf {g : Agent} {a : Addr} {b : Byte} {s : State} (h : s.mem.wf = true) :
    (otherStore g a b s).mem.wf = true := by
  rw [otherStore_mem]
  exact Memory.write_wf _ a.isLt h

/-- What any agent reads after another agent's write. -/
theorem otherStore_byteAt {g : Agent} {a : Addr} {b : Byte} {s : State} (x : Addr) (h : s.mem.wf = true) :
    (otherStore g a b s).byteAt x =
      if x = a then (if accessOpen s g a then s.nextDrawByte else b) else s.byteAt x := by
  rw [State.byteAt, otherStore_mem]
  exact State.byteAt_setByteAt a x _ h

/-- Only a race with the pending command makes the engine race too. -/
theorem otherStore_raced (g : Agent) (a : Addr) (b : Byte) (s : State) :
    (otherStore g a b s).raced = if races s a then { base := a, size := 1 } :: s.raced else s.raced := by
  unfold otherStore
  split
  · rfl
  · split <;> rfl

theorem otherStore_raced_of_pend_none {g : Agent} {a : Addr} {b : Byte} {s : State} (h : s.pend = none) :
    (otherStore g a b s).raced = s.raced := by
  simp [otherStore_raced, races_of_pend_none h]

/-! ### The other instances' commands (R78) -/

/-- An agent the platform has does what it does, another does nothing (R7 `n_instances`). -/
theorem actOf_cases (g : Agent) (act : State → State) (s : State) :
    (hasAgent s.platform g = true ∧ actOf g act s = act s) ∨ (hasAgent s.platform g = false ∧ actOf g act s = s) := by
  unfold actOf
  cases hasAgent s.platform g <;> simp

/-- Which agents the platform has, in numbers. -/
theorem hasAgent_iff {p : Platform} {g : Agent} :
    hasAgent p g = true ↔ ∀ id, g = .peer id → 1 ≤ id ∧ id < p.instances := by
  cases g <;> simp [hasAgent, hasInstance]

/-- Which commands run after another instance's has started. -/
theorem mem_startPeer {id : Nat} {range : Region} {s : State} {p : Peer} :
    p ∈ (startPeer id range s).peers ↔ p = { id := id, range := range } ∨ (p ∈ s.peers ∧ p.id ≠ id) := by
  simp [startPeer, endPeer]

theorem endPeer_peersInv {id : Nat} {s : State} (h : peersInv s) : peersInv (endPeer id s) :=
  ⟨fun p hp => h.1 p (List.mem_of_mem_filter hp), h.2.sublist (List.filter_sublist.map _)⟩

theorem startPeer_peersInv {id : Nat} {range : Region} {s : State} (hid : 1 ≤ id ∧ id < s.platform.instances)
    (h : peersInv s) : peersInv (startPeer id range s) := by
  refine ⟨fun p hp => ?_, List.nodup_cons.2 ⟨fun hm => ?_, (endPeer_peersInv h).2⟩⟩
  · rcases mem_startPeer.1 hp with rfl | ⟨hp, -⟩
    · exact hid
    · exact h.1 p hp
  · obtain ⟨p, hp, he⟩ := List.mem_map.1 hm
    have := (List.mem_filter.1 hp).2
    simp [he] at this

/-- The end of another instance's command changes the race and the running commands only. -/
theorem endPeer_frame (id : Nat) (s : State) :
    endPeer id s = { s with raced := (endPeer id s).raced, peers := (endPeer id s).peers } := rfl

/-- The start of another instance's command, likewise. -/
theorem startPeer_frame (id : Nat) (range : Region) (s : State) :
    startPeer id range s =
      { s with raced := (startPeer id range s).raced, peers := (startPeer id range s).peers } := rfl

/-- A command has no race with another instance's that ended before it was accepted (R72). -/
theorem endPeer_raced_of_pend_none {id : Nat} {s : State} (h : s.pend = none) : (endPeer id s).raced = s.raced := by
  simp [endPeer, State.busy, h]

/-- A byte contested while a command is pending stays so when another instance's command ends (R78). -/
theorem endPeer_contested {id : Nat} {s : State} (hb : s.busy = true) (a : Addr) :
    (endPeer id s).contested a = s.contested a := by
  rw [Bool.eq_iff_iff]
  simp only [State.contested, State.racedAt, State.peerTouches, endPeer, hb, if_true, Bool.or_eq_true,
    List.any_eq_true, List.mem_append, List.mem_map, List.mem_filter, Bool.and_eq_true, decide_eq_true_eq]
  constructor
  · rintro (⟨r, ⟨p, ⟨hp, -⟩, rfl⟩ | hr, hc⟩ | ⟨p, ⟨hp, -⟩, hc⟩)
    · exact .inr ⟨p, hp, by simp, hc⟩
    · exact .inl ⟨r, hr, hc⟩
    · exact .inr ⟨p, hp, hc⟩
  · rintro (⟨r, hr, hc⟩ | ⟨p, hp, hc⟩)
    · exact .inl ⟨r, .inr hr, hc⟩
    · by_cases hid : p.id = id
      · exact .inl ⟨p.range, .inl ⟨p, ⟨hp, by simpa using hid⟩, rfl⟩, hc.2⟩
      · exact .inr ⟨p, ⟨hp, by simpa using hid⟩, hc⟩

/-- A byte of a running command of another instance is contested (R72, R78). -/
theorem contested_of_peer {s : State} {p : Peer} {a : Addr} (hp : p ∈ s.peers) (ha : p.range.contains a = true) :
    s.contested a = true := by
  simp only [State.contested, State.peerTouches, Bool.or_eq_true, List.any_eq_true]
  exact .inr ⟨p, hp, by simp [ha]⟩

theorem landList_wf {l : List (Addr × Byte)} {s : State} (h : s.mem.wf = true) : (landList l s).mem.wf = true := by
  induction l generalizing s with
  | nil => exact h
  | cons c l ih => exact ih (otherStore_wf h)

theorem landList_raced_of_pend_none {l : List (Addr × Byte)} {s : State} (h : s.pend = none) :
    (landList l s).raced = s.raced := by
  induction l generalizing s with
  | nil => rfl
  | cons c l ih =>
    rw [landList, ih (by rw [otherStore_frame]; exact h), otherStore_raced_of_pend_none h]

/-- Which accesses race, in the words of R72. -/
theorem races_iff (s : State) (a : Addr) :
    races s a = true ↔
      (pendingCommand s = some .ldm ∧ inRange s.src s.idlen.toNat a = true) ∨
      (pendingCommand s = some .obf ∧ inRange s.fbase (min 1040 s.flen.toNat) a = true) := by
  unfold races
  cases h : pendingCommand s with
  | none => simp
  | some i =>
    cases i <;> simp only [commandRange, ldmCount, obfCount, windowSize, Config.window] <;> simp [inRange]

/-- Which accesses of an agent are open, in the words of R72, R78 and R71(b). -/
theorem accessOpen_iff (s : State) (g : Agent) (a : Addr) :
    accessOpen s g a = true ↔
      ((pendingCommand s = some .ldm ∧ inRange s.src s.idlen.toNat a = true) ∨
        (pendingCommand s = some .obf ∧ inRange s.fbase (min 1040 s.flen.toNat) a = true)) ∨
      (∃ p ∈ s.peers, g ≠ .peer p.id ∧ inRange p.range.base p.range.size a = true) ∨ a ∈ s.unseen := by
  simp only [accessOpen, State.unseenAt, List.contains_iff_mem, Bool.or_eq_true, races_iff, State.peerTouches,
    List.any_eq_true, Bool.and_eq_true, decide_eq_true_eq, Region.contains, or_assoc]

/-- Another agent's write does not change which accesses are open. -/
theorem otherStore_accessOpen (g k : Agent) (a x : Addr) (b : Byte) (s : State) :
    accessOpen (otherStore g a b s) k x = accessOpen s k x := by
  rw [otherStore_frame]; rfl

/-- A write uses up a free value only where its outcome is open. -/
theorem otherStore_draws (g : Agent) (a : Addr) (b : Byte) (s : State) :
    (otherStore g a b s).draws = if accessOpen s g a then s.draws + 1 else s.draws := by
  unfold otherStore accessOpen
  cases races s a <;> cases s.peerTouches g a <;> cases s.unseenAt a <;> rfl

/-! ### Landing posted writes (R71(a)) -/

theorem landList_draws_le (l : List (Addr × Byte)) (s : State) : s.draws ≤ (landList l s).draws := by
  induction l generalizing s with
  | nil => exact Nat.le_refl _
  | cons c l ih =>
    refine Nat.le_trans ?_ (ih _)
    rw [otherStore_draws]
    split <;> omega

/-- A landed write whose race is with the pending command makes the engine race for its byte, and only such a one does. -/
theorem otherStore_contested (g : Agent) (a : Addr) (b : Byte) (s : State) (x : Addr) :
    (otherStore g a b s).contested x = true ↔ (races s a = true ∧ x = a) ∨ s.contested x = true := by
  have hone : Region.contains { base := a, size := 1 } x = true ↔ x = a := by
    simp only [Region.contains, inRange, decide_eq_true_eq, Nat.lt_one_iff]
    constructor
    · intro h
      have := BitVec.sub_add_cancel x a
      rw [show x - a = 0 from BitVec.eq_of_toNat_eq (by simpa using h)] at this
      simpa using this.symm
    · rintro rfl; simp
  have hp : (otherStore g a b s).peerTouches .plain x = s.peerTouches .plain x := by rw [otherStore_frame]; rfl
  simp only [State.contested, State.racedAt, otherStore_raced, hp]
  by_cases hr : races s a = true
  · simp only [hr, if_true, List.any_cons, Bool.or_eq_true, hone, true_and, or_assoc]
  · simp only [hr, Bool.or_eq_true, if_false, false_and, false_or, Bool.false_eq_true]

/-- For which bytes the engine races once a list of writes has landed. -/
theorem landList_contested (l : List (Addr × Byte)) (s : State) (x : Addr) :
    (landList l s).contested x = true ↔ (races s x = true ∧ ∃ c ∈ l, c.1 = x) ∨ s.contested x = true := by
  induction l generalizing s with
  | nil => simp [landList]
  | cons c l ih =>
    have hr : races (otherStore .plain c.1 c.2 s) x = races s x := by rw [otherStore_frame]; rfl
    rw [landList, ih, hr, otherStore_contested]
    constructor
    · rintro (⟨h1, d, hd, h2⟩ | ⟨h1, rfl⟩ | h)
      · exact .inl ⟨h1, d, List.mem_cons_of_mem _ hd, h2⟩
      · exact .inl ⟨h1, c, List.mem_cons_self, rfl⟩
      · exact .inr h
    · rintro (⟨h1, d, hd, h2⟩ | h)
      · rcases List.mem_cons.1 hd with rfl | hd
        · exact .inr (.inl ⟨h2 ▸ h1, h2.symm⟩)
        · exact .inl ⟨h1, d, hd, h2⟩
      · exact .inr (.inr h)

/-- Landing writes none of which races with the pending command leaves the race. -/
theorem landList_raced {l : List (Addr × Byte)} {s : State} (h : ∀ c ∈ l, races s c.1 = false) :
    (landList l s).raced = s.raced := by
  induction l generalizing s with
  | nil => rfl
  | cons c l ih =>
    rw [landList, ih (fun d hd => by rw [otherStore_frame]; exact h d (List.mem_cons_of_mem _ hd)), otherStore_raced,
      h c List.mem_cons_self]
    rfl

/-- Landing writes none of whose outcomes is open draws no free value. -/
theorem landList_draws {l : List (Addr × Byte)} {s : State} (h : ∀ c ∈ l, accessOpen s .plain c.1 = false) :
    (landList l s).draws = s.draws := by
  induction l generalizing s with
  | nil => rfl
  | cons c l ih =>
    rw [landList, ih (fun d hd => by rw [otherStore_accessOpen]; exact h d (List.mem_cons_of_mem _ hd)),
      otherStore_draws, h c List.mem_cons_self]
    rfl

/-- An address to which nothing is posted keeps its byte. -/
theorem landList_byteAt_unposted {l : List (Addr × Byte)} {s : State} {x : Addr} (hm : s.mem.wf = true)
    (h : ∀ c ∈ l, c.1 ≠ x) : (landList l s).byteAt x = s.byteAt x := by
  induction l generalizing s with
  | nil => rfl
  | cons c l ih =>
    rw [landList, ih (otherStore_wf hm) fun d hd => h d (List.mem_cons_of_mem _ hd), otherStore_byteAt x hm,
      if_neg (Ne.symm (h c List.mem_cons_self))]

/-- The newest posted write to an address is in memory, or a free value drawn meanwhile where its outcome is open. -/
theorem landList_byteAt_newest {older newer : List (Addr × Byte)} {s : State} {x : Addr} {v : Byte}
    (hm : s.mem.wf = true) (h : ∀ c ∈ newer, c.1 ≠ x) :
    (accessOpen s .plain x = false → (landList (older ++ (x, v) :: newer) s).byteAt x = v) ∧
    (accessOpen s .plain x = true → ∃ d, s.draws ≤ d ∧ d < (landList (older ++ (x, v) :: newer) s).draws ∧
      (landList (older ++ (x, v) :: newer) s).byteAt x = (Config.freeWord d).setWidth 8) := by
  induction older generalizing s with
  | nil =>
    rw [List.nil_append, landList, landList_byteAt_unposted (otherStore_wf hm) h, otherStore_byteAt x hm, if_pos rfl]
    refine ⟨fun hr => by simp [hr], fun hr => ⟨s.draws, Nat.le_refl _, ?_, by simp [hr]; rfl⟩⟩
    refine Nat.lt_of_lt_of_le ?_ (landList_draws_le _ _)
    simp [otherStore_draws, hr]
  | cons c older ih =>
    have hx := ih (s := otherStore .plain c.1 c.2 s) (otherStore_wf hm)
    rw [otherStore_accessOpen] at hx
    refine ⟨hx.1, fun hr => ?_⟩
    obtain ⟨d, h1, h2, h3⟩ := hx.2 hr
    refine ⟨d, Nat.le_trans ?_ h1, h2, h3⟩
    rw [otherStore_draws]
    split <;> omega

theorem postedByte_eq_none {s : State} {a : Addr} : postedByte s a = none ↔ ∀ c ∈ s.posted, c.1 ≠ a := by
  simp [postedByte]

/-- The newest posted write to an address. -/
theorem postedByte_eq_some {s : State} {a : Addr} {v : Byte} :
    postedByte s a = some v ↔ ∃ older newer, s.posted = older ++ (a, v) :: newer ∧ ∀ c ∈ newer, c.1 ≠ a := by
  unfold postedByte
  constructor
  · intro h
    obtain ⟨c, hc, rfl⟩ := Option.map_eq_some_iff.1 h
    obtain ⟨ha, newer, older, hl, hn⟩ := List.find?_eq_some_iff_append.1 hc
    refine ⟨older.reverse, newer.reverse, ?_, fun d hd => by simpa using hn d (List.mem_reverse.1 hd)⟩
    have := congrArg List.reverse hl
    rw [List.reverse_reverse] at this
    rw [this]
    simp only [List.reverse_append, List.reverse_cons, List.append_assoc, List.singleton_append]
    rw [show c = (a, c.2) from Prod.ext (by simpa using ha) rfl]
  · rintro ⟨older, newer, hl, hn⟩
    have : (s.posted.reverse.find? fun c => c.1 == a) = some (a, v) := by
      refine List.find?_eq_some_iff_append.2 ⟨by simp, newer.reverse, older.reverse, by simp [hl], ?_⟩
      intro d hd
      simpa using hn d (List.mem_reverse.1 hd)
    rw [this]; rfl

/-- With nothing posted to an address, nothing lands there. -/
theorem landOne_of_unposted {s : State} {a : Addr} (h : ∀ c ∈ s.posted, c.1 ≠ a) : landOne a s = s := by
  have : (s.posted.find? fun c => c.1 == a) = none := by simpa using h
  rw [landOne, this]

/-- The oldest posted write to an address lands as any agent's write does, and is posted no more. -/
theorem landOne_oldest {s : State} {a : Addr} {v : Byte} {older newer : List (Addr × Byte)}
    (hl : s.posted = older ++ (a, v) :: newer) (h : ∀ c ∈ older, c.1 ≠ a) :
    landOne a s = otherStore .plain a v { s with posted := older ++ newer } := by
  have hf : (s.posted.find? fun c => c.1 == a) = some (a, v) :=
    List.find?_eq_some_iff_append.2 ⟨by simp, older, newer, hl, fun d hd => by simpa using h d hd⟩
  have he : (s.posted.eraseP fun c => c.1 == a) = older ++ newer := by
    rw [hl, List.eraseP_append_right _ fun d hd => by simpa using h d hd]
    simp
  rw [landOne, hf]
  simp only [he]

/-! ### One step -/

/-- The engine's turn when a command is pending. -/
theorem engineTurn_of_pend {s : State} {w : Word} (h : s.pend = some w) : engineTurn s = completeWord w s := by
  simp [engineTurn, h]

/-- Everything the completion of a word can be: a decoded command's exec, or an ILLEGAL word's completion (R152). -/
theorem completeWord_cases (w : Word) (s : State) :
    (∃ i, decode w = .ok i ∧ completeWord w s = exec i s) ∨
    (∃ e, decode w = .error e ∧ completeWord w s = .next (completeIllegal s)) := by
  unfold completeWord
  split
  · next i h => exact .inl ⟨i, h, rfl⟩
  · next e h => exact .inr ⟨e, h, rfl⟩

/-- An ILLEGAL word's completion is ignored in FAULT and raises ILLEGAL elsewhere (R201, R207). -/
theorem completeIllegal_eq (s : State) :
    (s.phase = .fault ∧ completeIllegal s = s.finish) ∨
    (s.phase ≠ .fault ∧ completeIllegal s = (s.raise .illegal).finish) := by
  unfold completeIllegal
  cases h : s.phase <;> simp

/-- Everything a step that answers a next state can be: a completion, a window write, a reset, or a step that changes
only what stands outside the block's registers. -/
theorem step_next {s t : State} (h : step s = .next t) :
    (∃ w sched, s.pend = some w ∧ completeWord w { s with schedule := sched } = .next t) ∨
    (∃ o v rest, s.schedule = .hostWrite o .w32 v :: rest ∧
      t = writeWindow o v (orderBeforeMmio { s with schedule := rest })) ∨
    (∃ rest, s.schedule = .reset :: rest ∧ pendingRefusal { s with schedule := rest } = none ∧
      t = resetBlock (abandonPending { s with schedule := rest })) ∨
    (t = { s with
      schedule := t.schedule
      mem := t.mem
      posted := t.posted
      raced := t.raced
      unseen := t.unseen
      peers := t.peers
      draws := t.draws
      readData := t.readData } ∧
      (s.mem.wf = true → t.mem.wf = true) ∧ (s.pend = none → t.raced = s.raced) ∧ (peersInv s → peersInv t)) := by
  have engine : ∀ sched, engineTurn { s with schedule := sched } = .next t →
      (∃ w sched, s.pend = some w ∧ completeWord w { s with schedule := sched } = .next t) ∨
      t = { s with schedule := sched } := by
    intro sched he
    unfold engineTurn at he
    split at he
    · exact .inr (by simpa using he.symm)
    · next w hw => exact .inl ⟨w, sched, hw, he⟩
  have quiet : ∀ sched, t = { s with schedule := sched } →
      (t = { s with
        schedule := t.schedule
        mem := t.mem
        posted := t.posted
        raced := t.raced
        unseen := t.unseen
        peers := t.peers
        draws := t.draws
        readData := t.readData } ∧
      (s.mem.wf = true → t.mem.wf = true) ∧ (s.pend = none → t.raced = s.raced) ∧ (peersInv s → peersInv t)) := by
    rintro sched rfl
    exact ⟨rfl, id, fun _ => rfl, id⟩
  unfold step stepScheduled at h
  cases hs : s.schedule with
  | nil =>
    rw [hs] at h
    rcases engine s.schedule h with hc | hq
    · exact .inl hc
    · exact .inr (.inr (.inr (quiet _ hq)))
  | cons e rest =>
    rw [hs] at h
    simp only at h
    cases e with
    | engine =>
      rcases engine rest h with hc | hq
      · exact .inl hc
      · exact .inr (.inr (.inr (quiet _ hq)))
    | hostRead o width =>
      simp only [perform] at h
      split at h
      · simp only [Host.Outcome.next.injEq] at h
        subst h
        exact .inr (.inr (.inr (by rw [readWindow_frame]; exact ⟨rfl, id, fun _ => rfl, id⟩)))
      · simp at h
    | hostWrite o width v =>
      simp only [perform] at h
      split at h
      · next hd =>
        simp only [hostAccessDefined, Bool.and_eq_true, decide_eq_true_eq] at hd
        simp only [Host.Outcome.next.injEq] at h
        exact .inr (.inl ⟨o, v, rest, by rw [hd.1], h.symm⟩)
      · simp at h
    | hostWait =>
      simp only [perform, waitTurn] at h
      split at h
      · simp only [Host.Outcome.next.injEq] at h
        subst h
        exact .inr (.inr (.inr (by rw [readWindow_frame]; exact ⟨rfl, id, fun _ => rfl, id⟩)))
      · next w hw => exact .inl ⟨w, .hostWait :: rest, hw, h⟩
    | hostLoad a =>
      simp only [perform, Host.Outcome.next.injEq] at h
      subst h
      exact .inr (.inr (.inr (by rw [hostLoad_frame]; exact ⟨rfl, id, fun _ => rfl, id⟩)))
    | hostStore a b =>
      simp only [perform, Host.Outcome.next.injEq] at h
      subst h
      exact .inr (.inr (.inr ⟨rfl, id, fun _ => rfl, id⟩))
    | postedLands a =>
      simp only [perform, Host.Outcome.next.injEq] at h
      refine .inr (.inr (.inr ⟨?_, ?_, ?_, ?_⟩))
      · rw [← h, landOne_frame]
      · intro hm
        rw [← h]
        unfold landOne
        split
        · exact hm
        · exact otherStore_wf hm
      · intro hp
        rw [← h]
        unfold landOne
        split
        · rfl
        · rw [otherStore_raced_of_pend_none (by exact hp)]
      · rw [← h, landOne_frame]; exact id
    | hostBarrier =>
      simp only [perform, Host.Outcome.next.injEq] at h
      refine .inr (.inr (.inr ⟨?_, ?_, ?_, ?_⟩))
      · rw [← h, landAll_frame]
      · intro hm; rw [← h]; exact landList_wf hm
      · intro hp; rw [← h]; exact landList_raced_of_pend_none (by exact hp)
      · rw [← h, landAll_frame]; exact id
    | agentLoad g a =>
      simp only [perform, Host.Outcome.next.injEq] at h
      subst h
      refine .inr (.inr (.inr ?_))
      rcases actOf_cases g (otherLoad g a) { s with schedule := rest } with ⟨-, e⟩ | ⟨-, e⟩
      · rw [e, otherLoad_frame]; exact ⟨rfl, id, fun _ => rfl, id⟩
      · rw [e]; exact ⟨rfl, id, fun _ => rfl, id⟩
    | agentStore g a b =>
      simp only [perform, Host.Outcome.next.injEq] at h
      subst h
      refine .inr (.inr (.inr ?_))
      rcases actOf_cases g (otherStore g a b) { s with schedule := rest } with ⟨-, e⟩ | ⟨-, e⟩
      · rw [e]
        refine ⟨?_, fun hm => otherStore_wf hm, fun hp => otherStore_raced_of_pend_none (by exact hp), ?_⟩ <;>
          rw [otherStore_frame]
        exact id
      · rw [e]; exact ⟨rfl, id, fun _ => rfl, id⟩
    | peerStarts i range =>
      simp only [perform, Host.Outcome.next.injEq] at h
      subst h
      refine .inr (.inr (.inr ?_))
      rcases actOf_cases (.peer i) (startPeer i range) { s with schedule := rest } with ⟨hg, e⟩ | ⟨-, e⟩
      · rw [e]
        exact ⟨rfl, id, fun hp => endPeer_raced_of_pend_none (by exact hp),
          fun hi => startPeer_peersInv (hasAgent_iff.1 hg i rfl) hi⟩
      · rw [e]; exact ⟨rfl, id, fun _ => rfl, id⟩
    | peerEnds i =>
      simp only [perform, Host.Outcome.next.injEq] at h
      subst h
      refine .inr (.inr (.inr ?_))
      rcases actOf_cases (.peer i) (endPeer i) { s with schedule := rest } with ⟨-, e⟩ | ⟨-, e⟩
      · rw [e]
        exact ⟨rfl, id, fun hp => endPeer_raced_of_pend_none (by exact hp), fun hi => endPeer_peersInv hi⟩
      · rw [e]; exact ⟨rfl, id, fun _ => rfl, id⟩
    | reset =>
      simp only [perform, applyReset] at h
      split at h
      · simp at h
      · next hr =>
        simp only [Host.Outcome.next.injEq] at h
        exact .inr (.inr (.inl ⟨rest, rfl, hr, h.symm⟩))

end Sys2Proof.Machine
end

