-- ==== Sys2Proof/Laws/Invariants.lean ====
section
/-! SUPPORT. What the invariants of Safety.lean depend on (10_state.md R44). -/

namespace Sys2Proof.Machine

/-- The registers' invariant looks at LEN, T, OIDX, PHASE, ERR, W, H and A..E only. -/
theorem registersInv_congr {s t : State} (h : registersInv s)
    (e : t.len = s.len ∧ t.t = s.t ∧ t.oidx = s.oidx ∧ t.phase = s.phase ∧ t.err = s.err ∧ t.w = s.w ∧ t.h = s.h ∧
      t.v = s.v) : registersInv t := by
  obtain ⟨e1, e2, e3, e4, e5, e6, e7, e8⟩ := e
  simpa only [registersInv, countersInRange, faultIffError, loadPhaseHolds, compressPhaseHolds, donePhaseHolds,
    State.mixer, e1, e2, e3, e4, e5, e6, e7, e8] using h

/-- No command changes the platform, the schedule, the posted writes, the other instances' commands or what was last read. -/
theorem exec_surroundings {i : Instr} {s t : State} (h : exec i s = .next t) :
    t.platform = s.platform ∧ t.schedule = s.schedule ∧ t.posted = s.posted ∧ t.peers = s.peers ∧
      t.readData = s.readData := by
  rcases exec_next h with ⟨-, rfl⟩ | ⟨-, rfl⟩ | ⟨-, u, hu, rfl⟩
  · exact ⟨rfl, rfl, rfl, rfl, rfl⟩
  · exact ⟨rfl, rfl, rfl, rfl, rfl⟩
  · cases i <;>
      simp only [bodyOf, nopBody, initBody, ldbBody, ldmBody, padBody, stepBody, finBody, hashBody, rdbBody, orstBody,
        xorbBody, obfBody] at hu
    case ldm =>
      split at hu
      · cases hu; exact ⟨rfl, rfl, rfl, rfl, rfl⟩
      · split at hu <;> cases hu
        rw [ldmLoop_frame]; exact ⟨rfl, rfl, rfl, rfl, rfl⟩
    case obf =>
      split at hu <;> cases hu
      rw [obfLoop_frame]; exact ⟨rfl, rfl, rfl, rfl, rfl⟩
    case hash => cases hu; rw [stepRounds_frame]; exact ⟨rfl, rfl, rfl, rfl, rfl⟩
    case ldb => split at hu <;> cases hu <;> exact ⟨rfl, rfl, rfl, rfl, rfl⟩
    case xorb => split at hu <;> cases hu <;> exact ⟨rfl, rfl, rfl, rfl, rfl⟩
    all_goals cases hu; exact ⟨rfl, rfl, rfl, rfl, rfl⟩

/-- In FAULT with an error cause only the counters' ranges are left to hold. -/
theorem registersInv_of_fault {s : State} (h : countersInRange s) (hp : s.phase = .fault) (he : s.err ≠ .none) :
    registersInv s := by
  refine ⟨h, by simp [faultIffError, hp, he], ?_, ?_, ?_⟩ <;> intro h <;> simp [hp] at h

/-- In LOAD, with the bytes behind LEN zero, the block holds the message of the first LEN bytes (R24, R44). -/
theorem exists_message_of_load {s : State} (h : loadPhaseHolds s) (hp : s.phase = .load) :
    ∃ m : List Byte, m.length = s.len.toNat ∧ holdsMessage m s := by
  refine ⟨(List.range s.len.toNat).map fun j => getByte s.w (BitVec.ofNat 6 j), by simp, by simp, fun j => ?_⟩
  by_cases hj : j.toNat < s.len.toNat
  · simp [List.getD_eq_getElem?_getD, List.getElem?_map, List.getElem?_range hj]
  · rw [(h hp).2.1 j (by omega), List.getD_eq_default _ _ (by simp; omega)]

end Sys2Proof.Machine
end

