-- ==== Sys2Proof/Laws/PerInstr.lean ====
section
/-! SUPPORT. Laws stated once per command of the opcode table, as syntax: the opcode of a command's word, and that its
word decodes to the command (30_encoding.md R91-R98, R108). -/

namespace Sys2Proof.Laws.EncodeOpcode

/-- The command's word carries its opcode in bits [31:24] (R91, R97) and its low 24 bits as the format says (R92-R94). -/
def Statement (i : Instr) : Prop := opcodeField (encode i) = opcodeOf i ∧ reservedN (encode i) = operandBits i

/-- What every command's lemma is an application of. -/
theorem every (i : Instr) : Statement i := by
  refine ⟨opcodeField_encode i, BitVec.eq_of_toNat_eq ?_⟩
  have h := encode_toNat i
  have h1 := (opcodeOf i).isLt
  have h2 := (operandBits i).isLt
  rw [reservedN, BitVec.extractLsb_toNat, h, Nat.shiftRight_eq_div_pow]
  omega

theorem nop : Statement .nop := every _
theorem init : Statement .init := every _
theorem ldb (imm8 : BitVec 8) : Statement (.ldb imm8) := every _
theorem ldm : Statement .ldm := every _
theorem pad : Statement .pad := every _
theorem step : Statement .step := every _
theorem fin : Statement .fin := every _
theorem hash : Statement .hash := every _
theorem rdb (imm16 : BitVec 16) : Statement (.rdb imm16) := every _
theorem orst : Statement .orst := every _
theorem xorb (imm8 : BitVec 8) : Statement (.xorb imm8) := every _
theorem obf : Statement .obf := every _

end Sys2Proof.Laws.EncodeOpcode
end

