-- ==== Sys2Proof/Tests/Slice0.lean ====
section
/-! SUPPORT. The model's own tests, their expected values taken from the tables and examples of spec/ (95_test_vectors.md
unless a comment names another file), and for every statement with hypotheses a concrete state that meets them. -/

namespace Sys2Proof.Tests

open Sys2Proof Sys2Proof.Machine

/-! ### Small states -/

/-- Fields of the next state, `none` where there is none. -/
def after {α : Type} (r : Result) (f : State → α) : Option α :=
  match r with
  | .next t => some (f t)
  | .fault _ => none
  | .refused _ => none

/-- Why a step is refused, if it is. -/
def refusal (r : Result) : Option Refusal :=
  match r with
  | .refused x => some x
  | .next _ => none
  | .fault _ => none

/-- STATUS after a command. -/
def statusAfter (r : Result) : Option Word := after r statusWord

/-- The block with a message loaded. -/
def loaded (m : List Byte) : State := m.foldl State.loadByte State.reset

/-- "abc". -/
def abc : List Byte := [0x61, 0x62, 0x63]

/-- 55 times 'a'. -/
def full : List Byte := List.replicate 55 0x61

/-- The "abc" block after PAD, at round t, with the given working variables. -/
def abcCompress (t : BitVec 7) (v : Working) : State :=
  { State.reset with w := paddedBlock abc, len := 3, t := t, phase := .compress, v := v }

/-- The state after the digest of "abc" (V7), as far as the obfuscator commands look at it. -/
def abcDone : State :=
  { State.reset with
    h := #v[0xA9993E36, 0x4706816A, 0xBA3E2571, 0x7850C26C, 0x9CD0D89D], t := 80, len := 3, phase := .done }

/-- The state after the digest of "urn:uuid:1234" (V7). -/
def uuidDone : State :=
  { State.reset with
    h := #v[0xCBAE3E12, 0xBC092AA5, 0x61B8FACB, 0xBD9E610D, 0xCA57F4FE], t := 80, len := 13, phase := .done }

/-- A state in FAULT. -/
def faulted : State := { State.reset with phase := .fault, err := .seq }

/-- A platform with a bus error of one kind at one address. -/
def busErrorAt (a : Addr) (k : Access) : Platform :=
  { Platform.plain with busErrors := [{ region := { base := a, size := 1 }, kind := k }] }

/-- A platform whose window stands at 0x1000 inside the engine's reach, with memory with side effects at 0x3000. -/
def awkward : Platform :=
  { Platform.plain with regBase := 0x1000, windowInDma := true, sideEffects := [{ base := 0x3000, size := 4 }] }

/-! ### WellFormed refuses every ill-formed source command (30_encoding.md R103, R104) -/

theorem test_wellFormed_missing_operand :
    (Source.command .ldb none).wellFormed = false ∧ (Source.command .xorb none).wellFormed = false ∧
    (Source.command .rdb none).wellFormed = false := by decide

theorem test_wellFormed_operand_out_of_range :
    (Source.command .ldb (some 256)).wellFormed = false ∧ (Source.command .xorb (some 256)).wellFormed = false ∧
    (Source.command .rdb (some 65536)).wellFormed = false := by decide

theorem test_wellFormed_operand_not_taken :
    (Source.command .nop (some 0)).wellFormed = false ∧ (Source.command .init (some 0)).wellFormed = false ∧
    (Source.command .ldm (some 0)).wellFormed = false ∧ (Source.command .pad (some 0)).wellFormed = false ∧
    (Source.command .step (some 0)).wellFormed = false ∧ (Source.command .fin (some 0)).wellFormed = false ∧
    (Source.command .hash (some 0)).wellFormed = false ∧ (Source.command .orst (some 0)).wellFormed = false ∧
    (Source.command .obf (some 0)).wellFormed = false := by decide

theorem test_wellFormed_accepts :
    (Source.command .ldb (some 255)).wellFormed = true ∧ (Source.command .rdb (some 65535)).wellFormed = true ∧
    (Source.command .obf none).wellFormed = true := by decide

/-! ### Decoding the words of 30_encoding.md R92-R94, R97, field by field -/

theorem test_decode_formatN :
    decode (0x00#8 ++ 0#24) = .ok .nop ∧ decode (0x01#8 ++ 0#24) = .ok .init ∧ decode (0x03#8 ++ 0#24) = .ok .ldm ∧
    decode (0x04#8 ++ 0#24) = .ok .pad ∧ decode (0x05#8 ++ 0#24) = .ok .step ∧ decode (0x06#8 ++ 0#24) = .ok .fin ∧
    decode (0x07#8 ++ 0#24) = .ok .hash ∧ decode (0x09#8 ++ 0#24) = .ok .orst ∧
    decode (0x0B#8 ++ 0#24) = .ok .obf := by decide

theorem test_decode_formatB :
    decode (0x02#8 ++ 0#16 ++ 0x61#8) = .ok (.ldb 0x61) ∧ decode (0x0A#8 ++ 0#16 ++ 0x5A#8) = .ok (.xorb 0x5A) := by
  decide

theorem test_decode_formatH :
    decode (0x08#8 ++ 0#8 ++ 0x0015#16) = .ok (.rdb 21) ∧ decode (0x08#8 ++ 0#8 ++ 0xFFFF#16) = .ok (.rdb 65535) := by
  decide

/-- V11. -/
theorem test_decode_illegal :
    decode 0x0C000000 = .error .reservedOpcode ∧ decode 0xFFFFFFFF = .error .reservedOpcode ∧
    decode 0x01000001 = .error .reservedBits ∧ decode 0x00000001 = .error .reservedBits ∧
    decode 0x02000161 = .error .reservedBits ∧ decode 0x08010000 = .error .reservedBits := by decide

/-- R108's examples. -/
theorem test_encode : encode (.ldb 0x61) = 0x02000061 ∧ encode (.rdb 1039) = 0x0800040F ∧
    encode (.xorb 0xFF) = 0x0A0000FF := by decide

/-! ### Assembly (R103-R106) -/

theorem test_assemble :
    assemble ["INIT".toList, "ldb 'a' ; a comment".toList, "RDB 21".toList, "LDS \"ab\"".toList, "SHA1".toList] =
      some [0x01000000, 0x02000061, 0x08000015, 0x02000061, 0x02000062, 0x04000000, 0x07000000] := by decide

theorem test_assemble_rejects : assemble ["LDB 0x100".toList] = none ∧ assemble ["PAD 1".toList] = none := by decide

/-- R104, R107: a literal out of range is no command, and a host program with it none. -/
theorem test_literal_out_of_range :
    expand (.command .ldb (some 255)) = some [.ldb 0xFF] ∧ expand (.command .ldb (some 256)) = none ∧
    expand (.command .xorb (some 256)) = none ∧ expand (.command .rdb (some 65535)) = some [.rdb 0xFFFF] ∧
    expand (.command .rdb (some 65536)) = none ∧
    State.reset.withProgram [.wait, .line (.command .ldb (some 256))] = none := by decide

/-- R107's `wr`, command line, `rd` and `mem`. -/
theorem test_host_program :
    (State.reset.withProgram [.wr .src 0x1000, .line (.command .init none), .rd .status]).map State.schedule =
      some [.hostWrite 0x18 .w32 0x1000, .hostWrite 0x00 .w32 0x01000000, .hostWait, .hostRead 0x04 .w32] ∧
    (State.withMem [0x75, 0x72] 0x1000 State.reset).mem = [(0x1000, 0x75), (0x1001, 0x72)] := by decide

/-! ### Functions of the datapath (V1-V4) -/

theorem test_rotl : rotl 1 0x80000001 = 0x00000003 ∧ rotl 5 0x67452301 = 0xE8A4602C ∧
    rotl 30 0xEFCDAB89 = 0x7BF36AE2 := by decide

theorem test_roundFunction :
    roundFunction 19 0xF0F0F0F0 0xFF00FF00 0xAAAAAAAA = 0xFA0AFA0A ∧
    roundFunction 20 0xF0F0F0F0 0xFF00FF00 0xAAAAAAAA = 0xA55AA55A ∧
    roundFunction 40 0xF0F0F0F0 0xFF00FF00 0xAAAAAAAA = 0xFAA0FAA0 ∧
    roundFunction 60 0xF0F0F0F0 0xFF00FF00 0xAAAAAAAA = 0xA55AA55A := by decide

theorem test_roundConstant : roundConstant 19 = 0x5A827999 ∧ roundConstant 39 = 0x6ED9EBA1 ∧
    roundConstant 59 = 0x8F1BBCDC ∧ roundConstant 79 = 0xCA62C1D6 := by decide

/-! ### Memory -/

theorem test_memory_write_read : (Memory.write [(5, 0x11)] 3 0x22).read 3 = 0x22 ∧
    (Memory.write [(5, 0x11)] 3 0x22).wf = true ∧ Memory.write [(5, 0x11)] 5 0 = [] := by decide

/-! ### One command each (V10-V14) -/

theorem test_nop : after (exec .nop (abcCompress 0 ivWorking)) id = some (abcCompress 0 ivWorking) := by decide

theorem test_init : after (exec .init { abcDone with res := 7, oidx := 9, src := 0x1000 })
    (fun t => (statusWord t, t.h[0], t.src, t.oidx)) = some (0, 0x67452301, 0x1000, 0) := by decide

theorem test_ldb : after (exec (.ldb 0x61) State.reset) (fun t => (t.len, t.w[0])) = some (1, 0x61000000) := by decide

theorem test_ldb_too_long : after (exec (.ldb 0x61) (loaded full)) (fun t => (statusWord t, t.len, t.w[13])) =
    some (0x3C, 55, 0x61616100) := by decide

theorem test_ldm_wraps : after (exec .ldm { State.reset with
      src := 0xFFFFFFFF, idlen := 2, mem := [(0, 0x42), (0xFFFFFFFF, 0x41)] })
    (fun t => (statusWord t, t.len, t.w[0])) = some (0, 2, 0x41420000) := by decide

theorem test_ldm_bus : after (exec .ldm { State.reset with
      src := 0x100, idlen := 3, mem := [(0x100, 0x41), (0x101, 0x42)], platform := busErrorAt 0x102 .read })
    (fun t => (statusWord t, t.len, t.w[0])) = some (0x4C, 2, 0x41420000) := by decide

theorem test_pad : after (exec .pad (loaded abc)) (fun t => (statusWord t, t.w[0], t.w[15])) =
    some (0x04, 0x61626380, 0x18) := by decide

theorem test_pad_full : after (exec .pad (loaded full)) (fun t => (t.w[13], t.w[14], t.w[15])) =
    some (0x61616180, 0, 0x1B8) := by decide

theorem test_step : after (exec .step (abcCompress 0 ivWorking)) (fun t => (t.v.a, t.v.b, t.v.c, t.t)) =
    some (0x0116FC33, 0x67452301, 0x7BF36AE2, 1) := by decide

/-- V10: the 17th STEP, from row t = 15 of V6. -/
theorem test_step_schedules : after (exec .step (abcCompress 16
      ⟨0x20BDD62F, 0x196BEE77, 0x644A3DA5, 0x1181ED99, 0x18C623F9⟩)) (fun t => (t.v.a, t.w[0], t.t)) =
    some (0x4E925823, 0xC2C4C700, 17) := by decide

theorem test_fin : after (exec .fin (abcCompress 80
      ⟨0x42541B35, 0x5738D5E1, 0x21834873, 0x681E6DF6, 0xD8FDF6AD⟩)) (fun t => (statusWord t, t.h)) =
    some (0x08, #v[0xA9993E36, 0x4706816A, 0xBA3E2571, 0x7850C26C, 0x9CD0D89D]) := by decide

theorem test_fin_early : statusAfter (exec .fin (abcCompress 17 ivWorking)) = some 0x2C := by decide

/-- V5, V7. -/
theorem test_hash : after (exec .hash (abcCompress 0 ivWorking)) (fun t => (t.h, t.v.a, t.w[0], t.w[15], t.t)) =
    some (#v[0xA9993E36, 0x4706816A, 0xBA3E2571, 0x7850C26C, 0x9CD0D89D], 0x42541B35, 0x7CD45C9D, 0x822E0879, 80) := by
  decide +kernel

theorem test_rdb : after (exec (.rdb 21) abcDone) (fun t => t.res) = some 0x99 ∧
    after (exec (.rdb 65535) abcDone) (fun t => t.res) = some 0x6C := by decide

theorem test_rdb_in_load : statusAfter (exec (.rdb 0) State.reset) = some 0x2C := by decide

theorem test_orst : after (exec .orst { abcDone with oidx := 1040 }) (fun t => t.oidx) = some 0 := by decide

theorem test_xorb : after (exec (.xorb 0xFF) { uuidDone with oidx := 1 }) (fun t => (t.res, t.oidx)) =
    some (0x51, 2) := by decide

theorem test_xorb_window_end : after (exec (.xorb 0x00) { uuidDone with oidx := 1039 }) (fun t => (t.res, t.oidx)) =
    some (0xFE, 1040) ∧
    after (exec (.xorb 0x5A) { uuidDone with oidx := 1040 }) (fun t => (t.res, t.oidx)) = some (0x5A, 1040) := by
  decide

/-- V13.2. -/
theorem test_obf_wraps : after (exec .obf { abcDone with fbase := 0xFFFFFFFE, flen := 4 })
    (fun t => (statusWord t, t.mem)) =
    some (0x08, [(0, 0x3E), (1, 0x36), (0xFFFFFFFE, 0xA9), (0xFFFFFFFF, 0x99)]) := by decide

/-- V13.4. -/
theorem test_obf_write_bus_error : after (exec .obf { abcDone with
      fbase := 0x300, flen := 8, platform := busErrorAt 0x303 .write }) (fun t => (statusWord t, t.mem, t.unseen)) =
    some (0x4C, [(0x300, 0xA9), (0x301, 0x99), (0x302, 0x3E)], [0x302, 0x301, 0x300]) := by decide

/-! ### The command cycle and the window (V11, V12) -/

theorem test_illegal_word : statusAfter (completeWord 0x0C000000 State.reset) = some 0x1C ∧
    statusAfter (completeWord 0x0C000000 faulted) = some 0x2C := by decide

/-- V12 steps 1 to 3. -/
theorem test_overrun : after (step { State.reset with schedule := [.hostWrite 0x00 .w32 0x01000000] }) statusWord =
      some 0x01 ∧
    after (step { State.reset with pend := some 0x01000000, schedule := [.hostWrite 0x24 .w32 5] })
      (fun t => (statusWord t, t.flen)) = some (0x03, 0) := by decide

theorem test_withFetchWord : after (step (State.reset.withFetchWord 32 0x02000061)) (fun t => (t.len, t.w[0])) =
    some (1, 0x61000000) := by decide

theorem test_refusals :
    refusal (exec .ldm { State.reset with platform := awkward, src := 0xFFF, idlen := 2 }) = some .selfAccess ∧
    refusal (exec .obf { abcDone with platform := awkward, fbase := 0x2FFF, flen := 2 }) = some .readSideEffects ∧
    refusal (step { State.reset with schedule := [.hostRead 0x04 .w8] }) = some .hostAccess := by decide

/-- 20_memory.md R72: a write into a pending LDM's range is remembered and draws its byte. -/
theorem test_race : after (step { State.reset with
      idlen := 2, pend := some 0x03000000, schedule := [.agentStore .plain 1 9] })
    (fun t => (t.contested 0, t.contested 1, t.contested 2, t.draws)) = some (false, true, false, 1) := by decide

/-- A pending LDM of two bytes, while instance 7 of nine works on the second of them and one more. -/
def peerState : State :=
  { State.reset with
    idlen := 2, pend := some 0x03000000, peers := [{ id := 7, range := { base := 1, size := 2 } }]
    platform := { Platform.plain with instances := 9 } }

/-- 20_memory.md R78: instance 7's running command races for byte 1 with the pending LDM, and still does once it has ended;
the LDM loads that byte as a free value. -/
theorem test_peer_race :
    (peerState.contested 0, peerState.contested 1, peerState.contested 3) = (false, true, false) ∧
    after (step { peerState with schedule := [.peerEnds 7] }) (fun t => (t.peers, t.contested 1, t.contested 3)) =
      some ([], true, false) ∧
    after (exec .ldm peerState) (fun t => (t.len, t.draws)) = some (2, 1) := by decide

/-- 20_memory.md R78, R72: instance 7's own access to its range races with no command of its own; another agent's does. -/
theorem test_peer_own_access :
    after (step { peerState with pend := none, mem := [(2, 9)], schedule := [.agentLoad (.peer 7) 2] })
      (fun t => (t.readData, t.draws)) = some (9, 0) ∧
    after (step { peerState with pend := none, mem := [(2, 9)], schedule := [.agentLoad .plain 2] })
      (fun t => t.draws) = some 1 := by decide

/-- 00_scope.md R7: on a platform of nine instances number 8 can start a command and there is no number 9; on a platform of
one instance there is no other. -/
theorem test_instances :
    after (step { peerState with schedule := [.peerStarts 8 { base := 0, size := 1 }] })
      (fun t => (t.peers.length, t.contested 0)) = some (2, true) ∧
    after (step { peerState with schedule := [.peerStarts 9 { base := 0, size := 1 }] })
      (fun t => (t.peers.length, t.contested 0)) = some (1, false) ∧
    after (step { State.reset with schedule := [.agentStore (.peer 1) 5 9] }) (fun t => t.mem) = some [] := by decide

/-- 20_memory.md R71(a): a posted write is invisible until it lands. -/
theorem test_posted_write :
    after (step { State.reset with schedule := [.hostStore 7 9] }) (fun t => (t.byteAt 7, t.posted)) =
      some (0, [(7, 9)]) ∧
    after (step { State.reset with posted := [(7, 9)], schedule := [.postedLands 7] })
      (fun t => (t.byteAt 7, t.posted)) = some (9, []) := by decide

/-- After an OBF that has written byte 5 and no other, before the host has read STATUS. -/
def unseenState : State := { abcDone with mem := [(5, 9), (6, 8)], unseen := [5] }

/-- 20_memory.md R71(b), 91_not_in_source.md N6: before the read of STATUS with BUSY = 0 others find any value there, and
their write leaves any value; byte 6 is as it stands in memory. -/
theorem test_unseen_before_status :
    after (step { unseenState with schedule := [.hostLoad 5] }) (fun t => t.draws) = some 1 ∧
    after (step { unseenState with schedule := [.agentStore .plain 5 1] }) (fun t => (t.draws, t.unseen)) =
      some (1, [5]) ∧
    after (step { unseenState with schedule := [.hostLoad 6] }) (fun t => (t.draws, t.readData)) = some (0, 8) := by
  decide

/-- 20_memory.md R71(b), R73: a read of STATUS with BUSY = 0, or the end of `wait`, makes byte 5 visible, one with BUSY = 1
and one of RES do not; the next command of the same instance needs none. -/
theorem test_unseen_status_read :
    after (step { unseenState with schedule := [.hostRead 0x04 .w32] }) (fun t => (t.unseen, t.byteAt 5)) = some ([], 9) ∧
    after (step { unseenState with schedule := [.hostWait] }) (fun t => t.unseen) = some [] ∧
    after (step { unseenState with pend := some 0, schedule := [.hostRead 0x04 .w32] }) (fun t => t.unseen) = some [5] ∧
    after (step { unseenState with schedule := [.hostRead 0x08 .w32] }) (fun t => t.unseen) = some [5] ∧
    after (exec .ldm { State.reset with src := 5, idlen := 1, mem := [(5, 9)], unseen := [5] })
      (fun t => (t.w[0], t.draws)) = some (0x09000000, 0) := by decide

/-! ### Witnesses: states that meet the hypotheses of the statements -/

theorem witness_WordsOfTheTablesDecode : (255 : Nat) ≤ 255 ∧ (255 : Nat) < 256 ∧ (65535 : Nat) ≤ 65535 ∧
    (65535 : Nat) < 65536 ∧ (Source.command .nop (some 0)).wellFormed = false ∧
    HostOp.line (.command .nop (some 0)) ∈ [HostOp.wait, .line (.command .nop (some 0))] := by decide

theorem witness_encoding : (Instr.rdb 0xFFFF).wellFormed = true ∧ decode 0x0A0000FF = .ok (.xorb 0xFF) := by decide

theorem witness_ReservedWordsRaiseIllegal :
    0x0C ≤ (opcodeField 0x0C000000).toNat ∧
    (opcodeField 0x00000001 ∈ ([0x00, 0x01, 0x03, 0x04, 0x05, 0x06, 0x07, 0x09, 0x0B] : List (BitVec 8)) ∧
      (0x00000001 : Word).extractLsb 23 0 ≠ 0) ∧
    (opcodeField 0x02000161 ∈ ([0x02, 0x0A] : List (BitVec 8)) ∧ (0x02000161 : Word).extractLsb 23 8 ≠ 0) ∧
    (opcodeField 0x08010000 = 0x08 ∧ (0x08010000 : Word).extractLsb 23 16 ≠ 0) ∧
    State.reset.phase ≠ .fault := by decide

/-- A pending INIT, with an empty schedule; the engine and the host's wait next in the other two. -/
def initPending : State := { State.reset with pend := some 0x01000000 }

theorem witness_EngineStepRunsThePendingCommand :
    initPending.pend = some 0x01000000 ∧ decode 0x01000000 = .ok .init ∧ initPending.schedule = [] ∧
    { initPending with schedule := [Event.engine] }.schedule = .engine :: [] ∧
    { initPending with schedule := [Event.hostWait] }.schedule = .hostWait :: [] ∧
    ({ initPending with pend := some 0x0C000000 }.pend = some 0x0C000000 ∧
      decode 0x0C000000 = .error .reservedOpcode) ∧
    (State.reset.pend = none ∧ State.reset.schedule = [] ∧
      { State.reset with schedule := [Event.engine] }.schedule = .engine :: [] ∧
      { State.reset with schedule := [Event.hostWait] }.schedule = .hostWait :: []) := by decide

theorem witness_SubmittedWordRunsNext :
    decodeTableWord 32 0x01000000 = some .init ∧ decodeTableWord 32 0x0A0000FF = some (.xorb 0xFF) := by decide

/-- A host's write to CMD next. -/
def cmdWrite (w : Word) (s : State) : State := { s with schedule := [.hostWrite 0x00 .w32 w] }

theorem witness_CmdWriteIsAccepted :
    (cmdWrite 0x01000000 initPending).schedule = .hostWrite 0x00 .w32 0x01000000 :: [] ∧
    (cmdWrite 0x01000000 initPending).busy = true ∧
    (cmdWrite 0x01000000 State.reset).busy = false ∧ decode 0x01000000 = .ok .init ∧
    decode 0xFFFFFFFF ≠ .ok .init := by decide

theorem witness_CommandOutOfPhaseRaisesSeq :
    State.reset.phase = .load ∧ abcDone.phase = .done ∧
    ((abcCompress 80 ivWorking).phase = .compress ∧ (abcCompress 80 ivWorking).t = 80) ∧
    ((abcCompress 79 ivWorking).phase = .compress ∧ (abcCompress 79 ivWorking).t.toNat < 80) := by decide

theorem witness_FaultIgnoresAllButInitAndNop :
    faulted.phase = .fault ∧ Instr.obf ≠ .init ∧ Instr.obf ≠ .nop ∧ decode 0x01000001 = .error .reservedBits := by
  decide

theorem witness_LengthIsRaisedBeforeAnyWrite :
    ({ State.reset with len := 55 }.phase = .load ∧ { State.reset with len := 55 }.len = 55) ∧
    55 < { State.reset with len := 50, idlen := 6 }.len.toNat + { State.reset with len := 50, idlen := 6 }.idlen.toNat ∧
    55 < State.reset.len.toNat + { State.reset with idlen := 0xFFFFFFFF }.idlen.toNat := by decide

theorem witness_NopAndInit :
    (opcodeField 0x00000001 = 0x00 ∧ (0x00000001 : Word) ≠ 0x00000000) ∧
    (opcodeField 0x01000001 = 0x01 ∧ (0x01000001 : Word) ≠ 0x01000000) := by decide

theorem witness_LdbAppendsItsByte : State.reset.phase = .load ∧ State.reset.len.toNat < 55 ∧
    { State.reset with len := 54 }.len.toNat < 55 ∧ { State.reset with len := 55 }.len = 55 ∧
    (abcCompress 0 ivWorking).phase = .compress ∧ abcDone.phase = .done ∧ faulted.phase = .fault := by decide

/-- V10: two bytes behind three, across the end of the address space. -/
def ldmState : State :=
  { loaded abc with src := 0xFFFFFFFF, idlen := 2, mem := [(0, 0x42), (0xFFFFFFFF, 0x41)] }

theorem witness_LdmAppendsBytesFromMemory :
    ldmState.phase = .load ∧ ldmState.len.toNat + ldmState.idlen.toNat ≤ 55 ∧
    rangeUsable ldmState.platform ldmState.src ldmState.idlen.toNat ∧
    rangeServed ldmState.platform .read ldmState.src ldmState.idlen.toNat ∧
    ldmState.contested (ldmState.src + BitVec.ofNat 32 0) = false ∧
    ldmState.contested (ldmState.src + BitVec.ofNat 32 1) = false ∧
    { ldmState with raced := [{ base := 0, size := 1 }] }.contested (ldmState.src + BitVec.ofNat 32 1) = true ∧
    ((0 : BitVec 6).toNat < ldmState.len.toNat ∧ ldmState.len.toNat + ldmState.idlen.toNat ≤ (5 : BitVec 6).toNat) := by
  refine ⟨by decide, by decide, fun i _ => ⟨rfl, rfl⟩, fun i _ => rfl, by decide, by decide, by decide, by decide⟩

/-- The longest range: 55 bytes behind none. -/
theorem witness_LdmAppendsBytesFromMemory_longest :
    { State.reset with idlen := 55 }.len.toNat + { State.reset with idlen := 55 }.idlen.toNat ≤ 55 := by decide

/-- V10. -/
def ldmBusState : State :=
  { State.reset with
    src := 0x100, idlen := 3, mem := [(0x100, 0x41), (0x101, 0x42)], platform := busErrorAt 0x102 .read }

theorem witness_LdmStopsAtTheFirstBusError :
    ldmBusState.phase = .load ∧ ldmBusState.len.toNat + ldmBusState.idlen.toNat ≤ 55 ∧
    rangeUsable ldmBusState.platform ldmBusState.src ldmBusState.idlen.toNat ∧ 2 < ldmBusState.idlen.toNat ∧
    rangeServed ldmBusState.platform .read ldmBusState.src 2 ∧
    busError ldmBusState.platform (ldmBusState.src + BitVec.ofNat 32 2) .read = true ∧
    ldmBusState.contested (ldmBusState.src + BitVec.ofNat 32 1) = false ∧
    { ldmBusState with raced := [{ base := 0x101, size := 1 }] }.contested (ldmBusState.src + BitVec.ofNat 32 1) =
      true := by
  refine ⟨by decide, by decide, fun i _ => ⟨rfl, rfl⟩, by decide, ?_, by decide, by decide, by decide⟩
  intro i hi
  have : i = 0 ∨ i = 1 := by omega
  rcases this with rfl | rfl <;> decide

theorem witness_PadPutsPaddingByteAndBitLength :
    State.reset.phase = .load ∧ State.reset.len.toNat ≤ 55 ∧ { State.reset with len := 55 }.len.toNat ≤ 55 ∧
    (59 : BitVec 6) ≠ (55 : BitVec 6) ∧ (59 : BitVec 6).toNat < 60 := by decide

theorem witness_PadMakesThePaddedBlock :
    (loaded abc).phase = .load ∧ abc.length ≤ 55 ∧ holdsMessage abc (loaded abc) :=
  ⟨by decide, by decide, by decide, by decide⟩

theorem witness_StepRunsOneRound :
    (abcCompress 15 ivWorking).phase = .compress ∧ (abcCompress 15 ivWorking).t.toNat < 16 ∧
    (16 ≤ (abcCompress 16 ivWorking).t.toNat ∧ (abcCompress 16 ivWorking).t.toNat < 80) ∧
    (abcCompress 79 ivWorking).t.toNat < 80 := by decide

theorem witness_FinAndHash :
    (abcCompress 80 ivWorking).phase = .compress ∧ (abcCompress 80 ivWorking).t = 80 ∧
    (abcCompress 0 ivWorking).t.toNat ≤ 80 ∧ (abcCompress 80 ivWorking).t.toNat ≤ 80 := by decide

theorem witness_keystream_commands :
    abcDone.phase = .done ∧ (65515 : BitVec 16).toNat + 20 ≤ 65535 ∧ faulted.phase = .fault ∧
    State.reset.phase ≠ .fault ∧ { uuidDone with oidx := 1039 }.oidx.toNat < 1040 ∧
    { uuidDone with oidx := 1040 }.oidx.toNat = 1040 := by decide

/-- V13.2. -/
def obfState : State := { abcDone with fbase := 0xFFFFFFFE, flen := 4 }

theorem witness_ObfTransformsTheWindow :
    obfState.phase = .done ∧ obfState.mem.wf = true ∧
    (∀ i < min 1040 obfState.flen.toNat, obfState.contested (engineAddr obfState.fbase i) = false) ∧
    rangeUsable obfState.platform obfState.fbase (min 1040 obfState.flen.toNat) ∧
    rangeServed obfState.platform .read obfState.fbase (min 1040 obfState.flen.toNat) ∧
    rangeServed obfState.platform .write obfState.fbase (min 1040 obfState.flen.toNat) ∧
    3 < min 1040 obfState.flen.toNat ∧
    { obfState with raced := [{ base := 1, size := 1 }] }.contested (engineAddr obfState.fbase 3) = true :=
  ⟨rfl, rfl, fun _ _ => rfl, fun _ _ => ⟨rfl, rfl⟩, fun _ _ => rfl, fun _ _ => rfl, by decide, by decide⟩

/-- An address outside that window. -/
theorem witness_ObfTransformsTheWindow_outside :
    ∀ i < min 1040 obfState.flen.toNat, (2 : Addr) ≠ engineAddr obfState.fbase i := by
  intro i hi
  have h4 : min 1040 obfState.flen.toNat = 4 := by decide
  rw [h4] at hi
  have : i = 0 ∨ i = 1 ∨ i = 2 ∨ i = 3 := by omega
  rcases this with rfl | rfl | rfl | rfl <;> decide

/-- V13.4: the write of byte 3 is the first access that meets a bus error. -/
def obfBusState (k : Access) : State := { abcDone with fbase := 0x300, flen := 8, platform := busErrorAt 0x303 k }

theorem witness_ObfStopsAtTheFirstBusError (k : Access) :
    (obfBusState k).phase = .done ∧ (obfBusState k).mem.wf = true ∧
    rangeUsable (obfBusState k).platform (obfBusState k).fbase (min 1040 (obfBusState k).flen.toNat) ∧
    3 < min 1040 (obfBusState k).flen.toNat ∧
    rangeServed (obfBusState k).platform .read (obfBusState k).fbase 3 ∧
    rangeServed (obfBusState k).platform .write (obfBusState k).fbase 3 ∧
    (busError (obfBusState k).platform (engineAddr (obfBusState k).fbase 3) .read = true ∨
      busError (obfBusState k).platform (engineAddr (obfBusState k).fbase 3) .write = true) ∧
    (obfBusState k).contested (engineAddr (obfBusState k).fbase 2) = false ∧
    { obfBusState k with raced := [{ base := 0x302, size := 1 }] }.contested (engineAddr (obfBusState k).fbase 2) =
      true := by
  have served : ∀ k', rangeServed (obfBusState k).platform k' (obfBusState k).fbase 3 := by
    intro k' i hi
    have : i = 0 ∨ i = 1 ∨ i = 2 := by omega
    rcases this with rfl | rfl | rfl <;> cases k <;> cases k' <;> decide
  refine ⟨rfl, rfl, fun _ _ => ⟨rfl, rfl⟩, ?_, served _, served _, ?_, ?_, ?_⟩ <;> cases k <;> decide

theorem witness_ObfWritesOnlyInsideItsWindow :
    obfState.mem.wf = true ∧ (∃ t, exec .obf obfState = .next t) ∧
    inRange obfState.fbase (min 1040 obfState.flen.toNat) 2 = false ∧ abcDone.flen = 0 :=
  ⟨rfl, ⟨_, rfl⟩, by decide, rfl⟩

theorem witness_RangesTheSpecRefusesAreRefused :
    (State.reset.phase = .load ∧ 1 < { State.reset with idlen := 2 }.idlen.toNat ∧
      inOwnWindow awkward (engineAddr 0xFFF 1) = true ∧ hasSideEffects awkward (engineAddr 0x2FFF 1) = true) ∧
    (abcDone.phase = .done ∧ 1 < min 1040 { abcDone with flen := 2 }.flen.toNat ∧
      inOwnWindow awkward (engineAddr 0x10FE 1) = true) := by decide

theorem witness_RotlMovesEveryBit : (31 : Nat) < 32 ∧ rotl 31 0x80000000 = 0x40000000 := by decide

/-- The boundary rounds of each range, and the rounds of R123's example. -/
theorem witness_RoundFunctionsBitByBit : (19 : Nat) ≤ 19 ∧ (20 : Nat) ≤ 39 ∧ (40 : Nat) ≤ 59 ∧ (60 : Nat) ≤ 79 ∧
    (79 : Nat) < 80 ∧ roundConstant 39 = 0x6ED9EBA1 ∧ roundConstant 40 = 0x8F1BBCDC := by decide

theorem witness_HashingSequenceGivesTheDigest : (80 : Nat) ≤ 80 ∧ full.length ≤ 55 ∧ 55 < (0x61 :: full).length := by
  decide

theorem witness_LdmExtendsTheMessageHeld : ldmState.phase = .load ∧ holdsMessage abc ldmState ∧
    abc.length + ldmState.idlen.toNat ≤ 55 ∧
    ∀ j < ldmState.idlen.toNat, ldmState.contested (engineAddr ldmState.src j) = false :=
  ⟨by decide, ⟨by decide, by decide⟩, by decide, fun _ _ => rfl⟩

theorem witness_DigestPseudoInstructionHashesItsText :
    (utf8Bytes ['a', 'b', 'c']).length ≤ 55 ∧ 55 < (utf8Bytes (List.replicate 56 'a')).length ∧
    (State.reset.phase = .load ∧ { State.reset with len := 52 }.len.toNat + (utf8Bytes ['a', 'b', 'c']).length ≤ 55 ∧
      { State.reset with len := 53 }.len.toNat ≤ 55 ∧
      55 < { State.reset with len := 53 }.len.toNat + (utf8Bytes ['a', 'b', 'c']).length) := by decide

/-! Invariants and whole-machine rules. -/

theorem reset_registersInv : registersInv State.reset := by
  refine ⟨⟨by decide, by decide, by decide⟩, ⟨fun h => absurd h (by decide), fun h => absurd rfl h⟩,
    fun _ => ⟨rfl, ?_, rfl, rfl⟩, fun h => ?_, fun h => ?_⟩
  · intro j _
    have h : ∀ j : BitVec 6, getByte State.reset.w j = 0 := by decide
    exact h j
  · exact absurd h (by decide)
  · exact absurd h (by decide)

theorem witness_invariants_step : registersInv State.reset ∧ memoryInv State.reset ∧
    (∃ t, step State.reset = .next t) :=
  ⟨reset_registersInv, ⟨rfl, fun _ => rfl, by simp [peersInv, State.reset, State.resetOn]⟩, ⟨_, rfl⟩⟩

/-- A command of another instance runs, and another one starts. -/
theorem witness_memoryInv_peers : memoryInv peerState ∧
    ∃ t, step { peerState with schedule := [.peerStarts 8 { base := 0, size := 1 }] } = .next t :=
  ⟨⟨rfl, fun _ => rfl, by simp [peersInv, peerState]⟩, ⟨_, rfl⟩⟩

/-- FIN completes and changes H. -/
theorem witness_OnlyInitFinHashAndResetWriteTheDigest :
    after (step { abcCompress 80 ⟨0, 1, 2, 3, 4⟩ with pend := some 0x06000000 }) (fun t => decide (t.h = iv)) =
      some false ∧
    after (step { abcDone with pend := some 0x01000000 }) (fun t => decide (t.h = abcDone.h)) = some false ∧
    after (step { abcDone with schedule := [.reset] }) (fun t => decide (t.h = abcDone.h)) = some false := by
  decide

theorem witness_OnlyInitAndResetLeaveFault : faulted.phase = .fault ∧
    after (step { faulted with pend := some 0x01000000 }) (fun t => t.phase) = some .load ∧
    after (step { faulted with pend := some 0x04000000 }) (fun t => t.phase) = some .fault := by decide

theorem witness_OvrChangesOnlyAsItsRuleSays :
    after (step { initPending with schedule := [.hostWrite 0x24 .w32 5] }) (fun t => t.ovr) = some true ∧
    after (step { State.reset with ovr := true, schedule := [.reset] }) (fun t => t.ovr) = some false ∧
    after (step (cmdWrite 0x01000000 { State.reset with ovr := true })) (fun t => t.ovr) = some false := by
  decide

theorem witness_OnlyTheHostWritesTheOperandRegisters :
    after (step { State.reset with schedule := [.hostWrite 0x18 .w32 7] }) (fun t => t.src) = some 7 ∧
    after (step { State.reset with schedule := [.hostWrite 0x1C .w32 7] }) (fun t => t.idlen) = some 7 ∧
    after (step { State.reset with schedule := [.hostWrite 0x20 .w32 7] }) (fun t => t.fbase) = some 7 ∧
    after (step { State.reset with schedule := [.hostWrite 0x24 .w32 7] }) (fun t => t.flen) = some 7 := by
  decide

theorem witness_memory_and_commands : Instr.hash ≠ .obf ∧ Instr.hash ≠ .ldm ∧
    (∃ t, exec .hash (abcCompress 80 ivWorking) = .next t) := ⟨by decide, by decide, ⟨_, rfl⟩⟩

theorem witness_RefusalsAreTheSpecsOwn :
    refusal (step { State.reset with schedule := [.hostRead 0x06 .w32] }) = some .hostAccess ∧
    refusal (step { State.reset with platform := awkward, src := 0x1000, idlen := 1, pend := some 0x03000000 }) =
      some .selfAccess ∧
    refusal (step { abcDone with platform := awkward, fbase := 0x3000, flen := 1, pend := some 0x0B000000 }) =
      some .readSideEffects := by decide

/-- A pending INIT with a read of STATUS before it, and one that a reset abandons. -/
theorem witness_PendingCommandCompletes :
    { initPending with schedule := [.hostRead 0x04 .w32] }.pend = some 0x01000000 ∧
    scheduleDefined { initPending with schedule := [.hostRead 0x04 .w32] } ∧
    pendingRefusal { initPending with schedule := [.hostRead 0x04 .w32] } = none ∧
    Event.reset ∉ { initPending with schedule := [.hostRead 0x04 .w32] }.schedule ∧
    (scheduleDefined { initPending with schedule := [.reset] } ∧
      after (step { initPending with schedule := [.reset] }) State.busy = some false) := by
  refine ⟨rfl, ?_, rfl, by decide, ?_, by decide⟩ <;>
    (intro e he; simp only [List.mem_singleton] at he; subst he; decide)

/-! The window, reset and races. -/

theorem witness_HostReadsReturnTrueOrFreeValues :
    (initPending.busy = true ∧ Reg.res ∉ ([.cmd, .status, .src, .idlen, .fbase, .flen] : List Reg)) ∧
    State.reset.busy = false ∧ Reg.status ∈ ([.cmd, .status, .src, .idlen, .fbase, .flen] : List Reg) ∧
    { initPending with schedule := [.hostRead (regOffset .res) .w32] }.schedule =
      .hostRead (regOffset .res) .w32 :: [] := by decide

theorem witness_RegisterMapIsOneToOne : regAt 0xBC = some (.w 15) ∧ regAt 0x50 = some (.h 4) ∧
    regAt 0x04 = some .status ∧ regAt 0x14 = some .oidx ∧ regAt 0x70 = some .e := by decide

theorem witness_UnmappedReadOnlyAndUndefinedAccesses :
    { State.reset with schedule := [.hostRead 0xFC .w32] }.schedule = .hostRead 0xFC .w32 :: [] ∧
    { State.reset with schedule := [.hostWrite 0x04 .w32 9] }.schedule = .hostWrite 0x04 .w32 9 :: [] ∧
    ((0xFC : BitVec 8).toNat % 4 = 0 ∧ regAt 0xFC = none) ∧ (regAt 0x04 = some .status ∧
      Reg.status ∉ ([.cmd, .src, .idlen, .fbase, .flen] : List Reg)) ∧
    (regAt 0x08 ≠ some .status ∧ initPending.busy = true) ∧
    (Width.w8 ≠ .w32 ∧ (0x06 : BitVec 8).toNat % 4 ≠ 0) := by decide

theorem witness_OperandWritesStoreOrOverrun :
    initPending.busy = true ∧ State.reset.busy = false ∧
    Reg.flen ∈ ([.cmd, .src, .idlen, .fbase, .flen] : List Reg) ∧
    { initPending with schedule := [.hostWrite (regOffset .flen) .w32 5] }.schedule =
      .hostWrite (regOffset .flen) .w32 5 :: [] := by decide

/-- A reset next, with an OBF pending. -/
def resetDuringObf : State := { obfState with pend := some 0x0B000000, schedule := [.reset] }

theorem witness_resets :
    ({ initPending with schedule := [.reset] }.schedule = .reset :: [] ∧
      pendingRefusal { initPending with schedule := [.reset] } = none ∧
      pendingCommand { initPending with schedule := [.reset] } ≠ some .obf) ∧
    (resetDuringObf.schedule = .reset :: [] ∧ pendingRefusal resetDuringObf = none ∧
      resetDuringObf.mem.wf = true ∧ pendingCommand resetDuringObf = some .obf) ∧
    resetDuringObf.contested (engineAddr resetDuringObf.fbase 3) = false ∧
    (resetDuringObf.phase = .done ∧
      { resetDuringObf with raced := [{ base := 1, size := 1 }] }.contested (engineAddr resetDuringObf.fbase 3) =
        true) ∧
    inRange resetDuringObf.fbase (min 1040 resetDuringObf.flen.toNat) 2 = false := by decide

/-- A reset next, with an OBF pending in LOAD, where it would only raise SEQ. -/
theorem witness_ResetAbandoningObf_load :
    { resetDuringObf with phase := .load, mem := [(0, 9)] }.schedule = .reset :: [] ∧
    pendingRefusal { resetDuringObf with phase := .load, mem := [(0, 9)] } = none ∧
    { resetDuringObf with phase := .load, mem := [(0, 9)] }.mem.wf = true ∧
    pendingCommand { resetDuringObf with phase := .load, mem := [(0, 9)] } = some .obf ∧
    { resetDuringObf with phase := .load, mem := [(0, 9)] }.phase ≠ .done ∧
    after (step { resetDuringObf with phase := .load, mem := [(0, 9)] }) (fun t => (t.mem, t.draws)) =
      some ([(0, 9)], 0) := by decide

/-- A pending LDM, and a pending OBF, whose ranges another agent reaches. -/
theorem witness_RacingAccessesGiveFreeValues :
    (pendingCommand { ldmState with pend := some 0x03000000 } = some .ldm ∧
      inRange ldmState.src ldmState.idlen.toNat 0 = true ∧ inRange ldmState.src ldmState.idlen.toNat 1 = false) ∧
    (pendingCommand resetDuringObf = some .obf ∧
      inRange obfState.fbase (min 1040 obfState.flen.toNat) 1 = true) ∧
    ldmState.mem.wf = true ∧
    ({ id := 7, range := { base := 1, size := 2 } } ∈ peerState.peers ∧ Agent.plain ≠ .peer 7 ∧
      inRange 1 2 (2 : Addr) = true ∧ inRange 1 2 (3 : Addr) = false ∧ peerState.busy = true ∧
      { peerState with pend := none }.busy = false) ∧
    ((1 ≤ 8 ∧ 8 < peerState.platform.instances) ∧ ¬ (1 ≤ 9 ∧ 9 < peerState.platform.instances) ∧
      ¬ (1 ≤ 7 ∧ 7 < ldmState.platform.instances) ∧ ¬ (1 ≤ 0 ∧ 0 < peerState.platform.instances)) ∧
    { ldmState with schedule := [.agentLoad .plain 0] }.schedule = .agentLoad .plain 0 :: [] ∧
    { ldmState with schedule := [.agentStore (.peer 7) 0 9] }.schedule = .agentStore (.peer 7) 0 9 :: [] ∧
    { peerState with schedule := [.peerStarts 8 { base := 0, size := 1 }] }.schedule =
      .peerStarts 8 { base := 0, size := 1 } :: [] ∧
    { peerState with schedule := [.peerEnds 7] }.schedule = .peerEnds 7 :: [] ∧
    (5 ∈ unseenState.unseen ∧ 6 ∉ unseenState.unseen ∧ unseenState.mem.wf = true ∧ unseenState.busy = false ∧
      unseenState.peers = [] ∧ { unseenState with schedule := [.hostRead 0x04 .w32, .agentLoad .plain 5] }.schedule =
        .hostRead 0x04 .w32 :: .agentLoad .plain 5 :: []) := by decide

/-- An ordered platform with two posted writes to one address and one to another. -/
def orderedState : State :=
  { cmdWrite 0x03000000 State.reset with
    posted := [(5, 1), (6, 2), (5, 3)], platform := { Platform.plain with hostOrdersMmio := true } }

theorem witness_OrderedPlatformLandsWritesBeforeCmd :
    orderedState.schedule = .hostWrite 0x00 .w32 0x03000000 :: [] ∧ orderedState.busy = false ∧
    orderedState.mem.wf = true ∧ orderedState.platform.hostOrdersMmio = true ∧
    after (step orderedState) (fun t => t.mem) = some [(5, 3), (6, 2)] ∧
    State.reset.platform.hostOrdersMmio = false ∧
    (inRange 1 2 (5 : Addr) = false ∧ inRange 5 2 (5 : Addr) = true ∧ (5, 1) ∈ orderedState.posted) ∧
    ({ orderedState with pend := some 0x03000000, idlen := 6 }.busy = true ∧
      pendingCommand { orderedState with pend := some 0x03000000, idlen := 6 } = some .ldm ∧
      inRange 0 6 (5 : Addr) = true ∧ inRange 0 6 (6 : Addr) = false) ∧
    (5 ∈ { orderedState with unseen := [5] }.unseen ∧ 6 ∉ { orderedState with unseen := [5] }.unseen) := by decide

/-- Posted writes to two addresses, one of them in the range of a pending LDM and one posted twice. -/
def postedState : State := { State.reset with idlen := 2, pend := some 0x03000000, posted := [(5, 1), (1, 2), (5, 3)] }

theorem witness_HostMemoryAccessesAreSeenWhenTheyLand :
    postedState.mem.wf = true ∧
    (pendingCommand postedState = some .ldm ∧ inRange postedState.src postedState.idlen.toNat 1 = true ∧
      inRange postedState.src postedState.idlen.toNat 5 = false ∧ postedState.peers = []) ∧
    (postedState.posted = [(5, 1), (1, 2)] ++ (5, 3) :: [] ∧ postedState.posted = [(5, 1)] ++ (1, 2) :: [(5, 3)] ∧
      postedState.posted = [] ++ (5, 1) :: [(1, 2), (5, 3)]) ∧
    (∀ c ∈ ([(5, 1)] : List (Addr × Byte)), c.1 ≠ 1) ∧ (∀ c ∈ ([(5, 3)] : List (Addr × Byte)), c.1 ≠ 1) ∧
    (∀ c ∈ postedState.posted, c.1 ≠ 9) ∧
    (1 ∈ { postedState with unseen := [1] }.unseen ∧ 5 ∉ { postedState with unseen := [1] }.unseen) ∧
    { unseenState with schedule := [.hostRead 0x04 .w32, .hostLoad 5] }.schedule =
      .hostRead 0x04 .w32 :: .hostLoad 5 :: [] ∧ unseenState.busy = false ∧ unseenState.posted = [] ∧
      unseenState.peers = [] :=
  ⟨by decide, by decide, by decide, by simp, by simp, by simp [postedState], by decide, rfl, rfl, rfl, rfl⟩

/-- 20_memory.md R72: a landing in the range of the pending LDM makes the engine race for that byte and no other. -/
theorem test_landing_races :
    after (step { postedState with schedule := [.postedLands 1] }) (fun t => (t.contested 0, t.contested 1, t.draws)) =
      some (false, true, 1) ∧
    after (step { postedState with schedule := [.postedLands 5] }) (fun t => (t.raced, t.draws)) = some ([], 0) := by
  decide

/-- 20_memory.md R71(a): the newest posted byte is read, the oldest lands, the barrier lands all. -/
theorem test_posted_order :
    after (step { postedState with schedule := [.hostLoad 5] }) (fun t => t.readData) = some 3 ∧
    after (step { postedState with schedule := [.postedLands 5] }) (fun t => (t.byteAt 5, t.posted)) =
      some (1, [(1, 2), (5, 3)]) ∧
    after (step { postedState with schedule := [.hostBarrier] }) (fun t => (t.posted, t.draws)) = some ([], 1) := by
  decide

end Sys2Proof.Tests
end

/-! ## Scope: the platform, memory and the other agents (00_scope.md R7)

What every step keeps of the platform and of memory (O42, O41), and what the other agents' accesses give (O58). -/

namespace Sys2Proof.Machine

/-! ### What a completion keeps (R152) -/

/-- No command but OBF changes external memory, or which of its bytes are visible to others (R183). -/
theorem exec_mem_of_ne_obf {i : Instr} {s t : State} (hi : i ≠ .obf) (h : exec i s = .next t) :
    t.mem = s.mem ∧ t.unseen = s.unseen := by
  rcases exec_next h with ⟨-, rfl⟩ | ⟨-, rfl⟩ | ⟨-, u, hu, rfl⟩
  · exact ⟨rfl, rfl⟩
  · exact ⟨rfl, rfl⟩
  · cases i with
    | obf => exact absurd rfl hi
    | ldm =>
      simp only [bodyOf, ldmBody] at hu
      split at hu
      · cases hu; exact ⟨rfl, rfl⟩
      · split at hu <;> cases hu
        rw [ldmLoop_frame]; exact ⟨rfl, rfl⟩
    | hash => cases hu; rw [stepRounds_frame]; exact ⟨rfl, rfl⟩
    | ldb | xorb =>
      simp only [bodyOf, ldbBody, xorbBody] at hu
      split at hu <;> cases hu <;> exact ⟨rfl, rfl⟩
    | nop | init | pad | step | fin | rdb | orst => cases hu; exact ⟨rfl, rfl⟩

/-- Execute(OBF) keeps memory canonical, also where a bus error stops it (R183). -/
theorem obfBody_wf {s u : State} (hm : s.mem.wf = true) (h : obfBody s = .next u) : u.mem.wf = true := by
  unfold obfBody at h
  split at h <;> cases h
  exact (obfLoop_outside _ _ _ s hm).1

/-- Every command keeps memory canonical. -/
theorem exec_wf {i : Instr} {s t : State} (hm : s.mem.wf = true) (h : exec i s = .next t) : t.mem.wf = true := by
  by_cases hi : i = .obf
  · subst hi
    rcases exec_next h with ⟨-, rfl⟩ | ⟨-, rfl⟩ | ⟨-, u, hu, rfl⟩
    · exact hm
    · exact hm
    · exact (obfBody_wf hm hu : u.mem.wf = true)
  · rw [(exec_mem_of_ne_obf hi h).1]
    exact hm

/-- The completion of an ILLEGAL word ends the command and leaves memory and the surroundings (R201, R207). -/
theorem completeIllegal_frame (s : State) :
    completeIllegal s =
      { s with err := (completeIllegal s).err, phase := (completeIllegal s).phase, pend := none, raced := [] } := by
  rcases completeIllegal_eq s with ⟨-, h⟩ | ⟨-, h⟩ <;> (rw [h]; rfl)

/-- No completion changes the platform or the peers' commands. -/
theorem completeWord_surroundings {w : Word} {s t : State} (h : completeWord w s = .next t) :
    t.platform = s.platform ∧ t.peers = s.peers := by
  rcases completeWord_cases w s with ⟨i, -, e⟩ | ⟨_, -, e⟩ <;> rw [e] at h
  · obtain ⟨hplatform, -, -, hpeers, -⟩ := exec_surroundings h
    exact ⟨hplatform, hpeers⟩
  · cases h; rw [completeIllegal_frame]; exact ⟨rfl, rfl⟩

/-- Every completion empties the latch and ends the race (R36, R72, R152). -/
theorem completeWord_pend {w : Word} {s t : State} (h : completeWord w s = .next t) :
    t.pend = none ∧ t.raced = [] := by
  rcases completeWord_cases w s with ⟨i, -, e⟩ | ⟨_, -, e⟩ <;> rw [e] at h
  · exact exec_pend h
  · cases h; rw [completeIllegal_frame]; exact ⟨rfl, rfl⟩

/-- Every completion keeps memory canonical. -/
theorem completeWord_wf {w : Word} {s t : State} (hm : s.mem.wf = true) (h : completeWord w s = .next t) :
    t.mem.wf = true := by
  rcases completeWord_cases w s with ⟨i, -, e⟩ | ⟨_, -, e⟩ <;> rw [e] at h
  · exact exec_wf hm h
  · cases h; rw [completeIllegal_frame]; exact hm

/-! ### What a window write and a reset keep -/

/-- What the platform does before a window write leaves itself, the peers' commands and the latch (R71(a)). -/
theorem orderBeforeMmio_surroundings (s : State) :
    (orderBeforeMmio s).platform = s.platform ∧ (orderBeforeMmio s).peers = s.peers ∧
      (orderBeforeMmio s).pend = s.pend := by
  rw [orderBeforeMmio_frame]
  exact ⟨rfl, rfl, rfl⟩

theorem orderBeforeMmio_wf {s : State} (hm : s.mem.wf = true) : (orderBeforeMmio s).mem.wf = true := by
  unfold orderBeforeMmio
  split
  · exact landList_wf hm
  · exact hm

theorem orderBeforeMmio_raced_of_pend_none {s : State} (h : s.pend = none) :
    (orderBeforeMmio s).raced = s.raced := by
  unfold orderBeforeMmio
  split
  · exact landList_raced_of_pend_none h
  · rfl

/-- A window write leaves memory, the race and the surroundings (R43). -/
theorem writeWindow_surroundings (o : BitVec 8) (v : Word) (s : State) :
    (writeWindow o v s).platform = s.platform ∧ (writeWindow o v s).peers = s.peers ∧
      (writeWindow o v s).mem = s.mem ∧ (writeWindow o v s).raced = s.raced := by
  rw [writeWindow_frame]
  exact ⟨rfl, rfl, rfl, rfl⟩

/-- No window write empties the latch. -/
theorem pend_none_of_writeWindow {o : BitVec 8} {v : Word} {s : State} (h : (writeWindow o v s).pend = none) :
    s.pend = none := by
  rcases writeWindow_cases o v s with e | ⟨-, -, e⟩ | ⟨-, -, e⟩ | ⟨-, -, e⟩ | ⟨-, -, e⟩ | ⟨-, -, e⟩ | ⟨-, -, e⟩ <;>
    rw [e] at h
  case inr.inr.inl => simp at h
  all_goals exact h

/-- Abandoning a command keeps memory canonical (R231). -/
theorem abandonPending_wf {s : State} (hm : s.mem.wf = true) : (abandonPending s).mem.wf = true := by
  unfold abandonPending
  split
  · split
    · exact (abandonLoop_spec s.fbase (obfCount s) 0 s hm (by have := obfCount_le s; omega)).1
    · exact hm
  · exact hm

/-- A reset changes neither the platform nor the peers' commands (R230, log entry 14). -/
theorem resetBlock_abandonPending_surroundings (s : State) :
    (resetBlock (abandonPending s)).platform = s.platform ∧ (resetBlock (abandonPending s)).peers = s.peers := by
  rw [abandonPending_frame]
  exact ⟨rfl, rfl⟩

/-! ### The memory invariant of each kind of step -/

/-- The running commands of the peers are judged by themselves and the platform alone. -/
theorem peersInv_congr {s t : State} (hplatform : t.platform = s.platform) (hpeers : t.peers = s.peers)
    (h : peersInv s) : peersInv t := by
  simpa only [peersInv, hplatform, hpeers] using h

/-- A completion keeps memory canonical and ends the race. -/
theorem completeWord_memoryInv {w : Word} {s t : State} (hs : memoryInv s) (h : completeWord w s = .next t) :
    memoryInv t := by
  obtain ⟨hwf, -, hpeers⟩ := hs
  obtain ⟨eplatform, epeers⟩ := completeWord_surroundings h
  exact ⟨completeWord_wf hwf h, fun _ => (completeWord_pend h).2, peersInv_congr eplatform epeers hpeers⟩

/-- The writes that land before a window write race only with a pending command (R71(a), R72). -/
theorem orderBeforeMmio_memoryInv {s : State} (hs : memoryInv s) : memoryInv (orderBeforeMmio s) := by
  obtain ⟨hwf, hraced, hpeers⟩ := hs
  obtain ⟨eplatform, epeers, epend⟩ := orderBeforeMmio_surroundings s
  refine ⟨orderBeforeMmio_wf hwf, fun hp => ?_, peersInv_congr eplatform epeers hpeers⟩
  rw [epend] at hp
  rw [orderBeforeMmio_raced_of_pend_none hp, hraced hp]

/-- A window write leaves memory, and a command pending where one was. -/
theorem writeWindow_memoryInv {s : State} (o : BitVec 8) (v : Word) (hs : memoryInv s) :
    memoryInv (writeWindow o v s) := by
  obtain ⟨hwf, hraced, hpeers⟩ := hs
  obtain ⟨eplatform, epeers, emem, eraced⟩ := writeWindow_surroundings o v s
  refine ⟨by rwa [emem], fun hp => ?_, peersInv_congr eplatform epeers hpeers⟩
  rw [eraced, hraced (pend_none_of_writeWindow hp)]

/-- A reset fixes an abandoned OBF's bytes in canonical memory and ends the race (R231). -/
theorem resetBlock_abandonPending_memoryInv {s : State} (hs : memoryInv s) :
    memoryInv (resetBlock (abandonPending s)) := by
  obtain ⟨hwf, -, hpeers⟩ := hs
  obtain ⟨eplatform, epeers⟩ := resetBlock_abandonPending_surroundings s
  exact ⟨abandonPending_wf hwf, fun _ => rfl, peersInv_congr eplatform epeers hpeers⟩

/-! ### O42 and O41, by the four kinds of step of `step_next` -/

/-- Settles O42: no completion, no window write, no reset and no step outside the block changes the platform. -/
theorem noStepChangesThePlatform : Obligations.NoStepChangesThePlatform := by
  intro s t h
  rcases step_next h with ⟨w, sched, -, hc⟩ | ⟨o, v, rest, -, rfl⟩ | ⟨rest, -, -, rfl⟩ | ⟨ht, -⟩
  · exact (completeWord_surroundings hc).1
  · exact (writeWindow_surroundings o v _).1.trans (orderBeforeMmio_surroundings _).1
  · exact (resetBlock_abandonPending_surroundings _).1
  · rw [ht]

/-- Settles O41: each kind of step keeps the memory invariant. -/
theorem everyStepKeepsTheMemoryInvariant : Obligations.EveryStepKeepsTheMemoryInvariant := by
  intro s t hs h
  rcases step_next h with ⟨w, sched, -, hc⟩ | ⟨o, v, rest, -, rfl⟩ | ⟨rest, -, -, rfl⟩ | ⟨ht, hwf, hidle, hinv⟩
  · exact completeWord_memoryInv (by exact hs) hc
  · exact writeWindow_memoryInv o v (orderBeforeMmio_memoryInv (by exact hs))
  · exact resetBlock_abandonPending_memoryInv (by exact hs)
  · obtain ⟨hm, hraced, hpeers⟩ := hs
    refine ⟨hwf hm, fun hp => ?_, hinv hpeers⟩
    have hpend : s.pend = none := by rwa [ht] at hp
    rw [hidle hpend, hraced hpend]

/-! ### The other agents' steps (R72, R78) -/

/-- A scheduled event is performed with the rest of the schedule left. -/
theorem step_eq_perform {s : State} {e : Event} {rest : List Event} (h : s.schedule = e :: rest) :
    step s = perform e { s with schedule := rest } := by
  simp only [step, stepScheduled, h]

/-- An agent the platform has does what it does. -/
theorem actOf_of_present {g : Agent} {act : State → State} {s : State} (h : hasAgent s.platform g = true) :
    actOf g act s = act s := by
  simp [actOf, h]

/-- An agent the platform has not does nothing (R7, R217). -/
theorem actOf_of_absent {g : Agent} {act : State → State} {s : State} (h : ¬ hasAgent s.platform g = true) :
    actOf g act s = s := by
  simp [actOf, h]

/-- Which numbers are a peer's (R7). -/
theorem hasAgent_peer_iff {p : Platform} {id : Nat} :
    hasAgent p (.peer id) = true ↔ 1 ≤ id ∧ id < p.instances := by
  simp [hasAgent, hasInstance]

/-- A read whose outcome is open gives the next free byte (R72, R71(b)). -/
theorem otherLoad_of_open {s : State} {g : Agent} {a : Addr} (h : accessOpen s g a = true) :
    otherLoad g a s = { s with readData := s.nextDrawByte.setWidth 32, draws := s.draws + 1 } := by
  rw [otherLoad, if_pos h]
  rfl

/-- Any other read gives the byte in memory. -/
theorem otherLoad_of_closed {s : State} {g : Agent} {a : Addr} (h : ¬ accessOpen s g a = true) :
    otherLoad g a s = { s with readData := (s.byteAt a).setWidth 32 } := by
  rw [otherLoad, if_neg h]

/-- A read of STATUS with BUSY = 0 gives STATUS and makes every write of the engine visible (R41, R71(b)). -/
theorem readWindow_status_idle {s : State} (h : s.busy = false) :
    readWindow 0x04 s = { s with readData := statusWord s, unseen := [] } := by
  have hreg : regAt 0x04 = some .status := rfl
  rw [readWindow, hreg]
  simp [h, unspecifiedWhileBusy, makesWritesVisible, regValue]

/-- With BUSY = 0 and every byte visible, an access is open only where a peer's running command touches the
byte (R71(b), R78). -/
theorem accessOpen_of_idle_visible {s : State} {g : Agent} {a : Addr} (hp : s.pend = none) (hu : s.unseen = []) :
    accessOpen s g a = s.peerTouches g a := by
  simp [accessOpen, races_of_pend_none hp, State.unseenAt, hu]

theorem pend_none_of_busy_false {s : State} (h : s.busy = false) : s.pend = none := by
  simpa [State.busy] using h

/-- Once a peer has started a command, the engine races for its range too (R78). -/
theorem startPeer_contested (id : Nat) (range : Region) (s : State) (x : Addr) :
    (startPeer id range s).contested x = (range.contains x || (endPeer id s).contested x) := by
  have hraced : (startPeer id range s).racedAt x = (endPeer id s).racedAt x := rfl
  have hpeers : (startPeer id range s).peerTouches .plain x =
      (range.contains x || (endPeer id s).peerTouches .plain x) := by
    simp [State.peerTouches, startPeer]
  rw [State.contested, State.contested, hraced, hpeers, Bool.or_left_comm]

/-- Which commands run after a peer's has ended. -/
theorem mem_endPeer {id : Nat} {s : State} {p : Peer} : p ∈ (endPeer id s).peers ↔ p ∈ s.peers ∧ p.id ≠ id := by
  simp [endPeer]

/-! ### O58, one clause each -/

section Clauses

variable {s : State} {g : Agent} {a : Addr} {b : Byte} {id : Nat} {range : Region} {rest : List Event}

/-- What the platform's agents read (R72, R71(b)). -/
theorem agentLoad_outcomes (h : s.schedule = .agentLoad g a :: rest) :
    (hasAgent s.platform g = true → accessOpen s g a = true → step s = .next { s with
      schedule := rest
      readData := s.nextDrawByte.setWidth 32
      draws := s.draws + 1 }) ∧
    (hasAgent s.platform g = true → ¬ accessOpen s g a = true →
      step s = .next { s with schedule := rest, readData := (s.byteAt a).setWidth 32 }) ∧
    (¬ hasAgent s.platform g = true → step s = .next { s with schedule := rest }) := by
  rw [step_eq_perform h, perform]
  refine ⟨fun hg ho => ?_, fun hg ho => ?_, fun hg => ?_⟩
  · rw [actOf_of_present (by exact hg), otherLoad_of_open (by exact ho)]; rfl
  · rw [actOf_of_present (by exact hg), otherLoad_of_closed (by exact ho)]; rfl
  · rw [actOf_of_absent (by exact hg)]

/-- A read right after a read of STATUS with BUSY = 0 (R71(b)). -/
theorem agentLoad_after_status (h : s.schedule = .hostRead 0x04 .w32 :: .agentLoad g a :: rest)
    (hb : s.busy = false) (hg : hasAgent s.platform g = true) (hp : ¬ s.peerTouches g a = true) :
    stepsTo 2 s { s with schedule := rest, unseen := [], readData := (s.byteAt a).setWidth 32 } := by
  let t : State := { s with schedule := .agentLoad g a :: rest, readData := statusWord s, unseen := [] }
  have hstatus : step s = .next t := by
    rw [step_hostRead h (by decide), readWindow_status_idle (by exact hb)]; rfl
  have hclosed : ¬ accessOpen t g a = true := by
    rw [accessOpen_of_idle_visible (by exact pend_none_of_busy_false hb) rfl]
    exact hp
  exact ⟨t, hstatus, _, (agentLoad_outcomes rfl).2.1 hg hclosed, rfl⟩

/-- What a write of one of the platform's agents leaves (R72, R71(b)). -/
theorem agentStore_outcome (hm : s.mem.wf = true) (h : s.schedule = .agentStore g a b :: rest)
    (hg : hasAgent s.platform g = true) :
    ∃ t, step s = .next t ∧ (∀ x, x ≠ a → t.byteAt x = s.byteAt x) ∧
      (accessOpen s g a = true → t.byteAt a = s.nextDrawByte ∧ t.draws = s.draws + 1) ∧
      (¬ accessOpen s g a = true → t.byteAt a = b ∧ t.draws = s.draws) ∧
      (races s a = true → ∀ x, t.contested x = true ↔ (x = a ∨ s.contested x = true)) ∧
      (¬ races s a = true → t.raced = s.raced) ∧
      t = { s with schedule := rest, mem := t.mem, raced := t.raced, draws := t.draws } := by
  let s' : State := { s with schedule := rest }
  have hbyte := fun x => otherStore_byteAt (g := g) (a := a) (b := b) (s := s') x hm
  have hdraws := otherStore_draws g a b s'
  have hcontested := otherStore_contested g a b s'
  have hraced := otherStore_raced g a b s'
  refine ⟨otherStore g a b s', by rw [step_eq_perform h, perform, actOf_of_present (by exact hg)], fun x hx => ?_,
    fun ho => ⟨?_, ?_⟩, fun ho => ⟨?_, ?_⟩, fun hr x => ?_, fun hr => ?_, otherStore_frame g a b s'⟩
  · rw [hbyte, if_neg hx]; rfl
  · rw [hbyte, if_pos rfl, if_pos (by exact ho)]; rfl
  · rw [hdraws, if_pos (by exact ho)]
  · rw [hbyte, if_pos rfl, if_neg (by exact ho)]
  · rw [hdraws, if_neg (by exact ho)]
  · rw [hcontested, and_iff_right (by exact hr)]; rfl
  · rw [hraced, if_neg (by exact hr)]

/-- What the start of a command of one of the platform's peers leaves (R78). -/
theorem peerStarts_outcome (h : s.schedule = .peerStarts id range :: rest)
    (hid : hasAgent s.platform (.peer id) = true) :
    ∃ t, step s = .next t ∧
      (∀ p, p ∈ t.peers ↔ (p = { id := id, range := range } ∨ (p ∈ s.peers ∧ p.id ≠ id))) ∧
      (∀ x, range.contains x = true → t.contested x = true) ∧
      (s.busy = true → ∀ x, t.contested x = true ↔ (range.contains x = true ∨ s.contested x = true)) ∧
      (s.busy = false → t.raced = s.raced) ∧
      t = { s with schedule := rest, raced := t.raced, peers := t.peers } := by
  let s' : State := { s with schedule := rest }
  refine ⟨startPeer id range s', by rw [step_eq_perform h, perform, actOf_of_present (by exact hid)],
    fun p => mem_startPeer, fun x hx => ?_, fun hb x => ?_, fun hb => ?_, startPeer_frame id range s'⟩
  · rw [startPeer_contested, hx, Bool.true_or]
  · rw [startPeer_contested, endPeer_contested (by exact hb), Bool.or_eq_true]; rfl
  · exact endPeer_raced_of_pend_none (s := s') (pend_none_of_busy_false hb)

/-- What the end of a command of one of the platform's peers leaves (R78). -/
theorem peerEnds_outcome (h : s.schedule = .peerEnds id :: rest) (hid : hasAgent s.platform (.peer id) = true) :
    ∃ t, step s = .next t ∧ (∀ p, p ∈ t.peers ↔ (p ∈ s.peers ∧ p.id ≠ id)) ∧
      (s.busy = true → ∀ x, t.contested x = s.contested x) ∧ (s.busy = false → t.raced = s.raced) ∧
      t = { s with schedule := rest, raced := t.raced, peers := t.peers } := by
  let s' : State := { s with schedule := rest }
  exact ⟨endPeer id s', by rw [step_eq_perform h, perform, actOf_of_present (by exact hid)], fun p => mem_endPeer,
    fun hb x => endPeer_contested (s := s') hb x,
    fun hb => endPeer_raced_of_pend_none (s := s') (pend_none_of_busy_false hb), endPeer_frame id s'⟩

end Clauses

/-- Settles O58: R72's and R71(b)'s words are `races` and `accessOpen`, R7's are `hasAgent`, and each kind of event has
its clause above. -/
theorem racingAccessesGiveFreeValues : Obligations.RacingAccessesGiveFreeValues := by
  intro s g a b id range rest hm ours theirs unseen onPlatform present
  have hraces : races s a = true ↔ ours := races_iff s a
  have hopen : accessOpen s g a = true ↔ ours ∨ theirs ∨ unseen := accessOpen_iff s g a
  have hclosed : ¬ ours → ¬ theirs → ¬ unseen → ¬ accessOpen s g a = true := fun h1 h2 h3 =>
    mt hopen.1 (not_or.2 ⟨h1, not_or.2 ⟨h2, h3⟩⟩)
  have hpeers : s.peerTouches g a = true → theirs := by
    simp [State.peerTouches, Region.contains, theirs]
  have hpresent : hasAgent s.platform g = true ↔ present := hasAgent_iff
  have hid : hasAgent s.platform (.peer id) = true ↔ onPlatform id := hasAgent_peer_iff
  refine ⟨fun h => ?_, fun h hb hg hp => ?_, fun h => ⟨fun hg => ?_, fun hg => ?_⟩,
    fun h => ⟨fun hi => peerStarts_outcome h (hid.2 hi), fun hi => ?_⟩,
    fun h => ⟨fun hi => peerEnds_outcome h (hid.2 hi), fun hi => ?_⟩⟩
  · obtain ⟨hfree, htrue, habsent⟩ := agentLoad_outcomes h
    exact ⟨fun hg ho => hfree (hpresent.2 hg) (hopen.2 ho),
      fun hg h1 h2 h3 => htrue (hpresent.2 hg) (hclosed h1 h2 h3), fun hg => habsent (hpresent.not.2 hg)⟩
  · exact agentLoad_after_status h hb (hpresent.2 hg) (mt hpeers hp)
  · obtain ⟨t, hstep, helse, hfree, htrue, hcontested, hraced, hframe⟩ :=
      agentStore_outcome hm h (hpresent.2 hg)
    exact ⟨t, hstep, helse, fun ho => hfree (hopen.2 ho), fun h1 h2 h3 => htrue (hclosed h1 h2 h3),
      fun ho => hcontested (hraces.2 ho), fun ho => hraced (hraces.not.2 ho), hframe⟩
  · rw [step_eq_perform h, perform, actOf_of_absent (by exact hpresent.not.2 hg)]
  · rw [step_eq_perform h, perform, actOf_of_absent (by exact hid.not.2 hi)]
  · rw [step_eq_perform h, perform, actOf_of_absent (by exact hid.not.2 hi)]

end Sys2Proof.Machine

/-! ## State: the registers and the window through which the host sees them (10_state.md)

The registers' invariant at reset and over every step (O39, O40), who changes the digest, PHASE and ERR, OVR and the
operand registers (O43-O46), and what the host's window accesses do (O51-O55). -/

namespace Sys2Proof.Machine

/-! ### What each command's Execute body answers -/

/-- What Execute(i) can leave of `s`, one constructor per outcome (41_hash_commands.md R153-R160,
42_obfuscator_commands.md R180-R183). The loops of LDM and OBF may end in BUS. -/
inductive Executed (s : State) : Instr → State → Prop where
  | nop : Executed s .nop s
  | init : Executed s .init (freshHash s)
  | ldbFull {b : Byte} : Executed s (.ldb b) (s.raise .length)
  | ldb {b : Byte} (room : s.len.toNat < 55) : Executed s (.ldb b) (s.loadByte b)
  | ldmTooLong : Executed s .ldm (s.raise .length)
  | ldm (room : s.len.toNat + ldmCount s ≤ 55) : Executed s .ldm (ldmLoop s.src (ldmCount s) 0 s)
  | pad : Executed s .pad (padBlock s)
  | step : Executed s .step (stepRound s)
  | fin : Executed s .fin s.finalAddition
  | hash : Executed s .hash (stepRounds (80 - s.t.toNat) s).finalAddition
  | rdb {n : BitVec 16} : Executed s (.rdb n) { s with res := keystream s.h n.toNat }
  | orst : Executed s .orst { s with oidx := 0 }
  | xorb {b : Byte} (inside : s.oidx.toNat < 1040) :
      Executed s (.xorb b) { s with res := b ^^^ keystream s.h s.oidx.toNat, oidx := s.oidx + 1 }
  | xorbPast {b : Byte} : Executed s (.xorb b) { s with res := b }
  | obf : Executed s .obf (obfLoop s.fbase (obfCount s) 0 s)

/-- Every Execute body that answers a next state answers one of its command's outcomes. -/
theorem executed_of_bodyOf {i : Instr} {s u : State} (h : bodyOf i s = .next u) : Executed s i u := by
  cases i with
  | ldb b =>
    simp only [bodyOf, ldbBody] at h
    split at h <;> cases h
    · exact .ldbFull
    · next hroom => exact .ldb (Nat.lt_of_not_le hroom)
  | ldm =>
    simp only [bodyOf, ldmBody] at h
    split at h
    · cases h; exact .ldmTooLong
    · next hlong =>
      split at h <;> cases h
      exact .ldm (ldmTooLong_eq_false.1 (by simpa using hlong))
  | xorb b =>
    simp only [bodyOf, xorbBody] at h
    split at h <;> cases h
    · next hin => exact .xorb hin
    · exact .xorbPast
  | obf =>
    simp only [bodyOf, obfBody] at h
    split at h <;> cases h
    exact .obf
  | nop => cases h; exact .nop
  | init => cases h; exact .init
  | pad => cases h; exact .pad
  | step => cases h; exact .step
  | fin => cases h; exact .fin
  | hash => cases h; exact .hash
  | rdb n => cases h; exact .rdb
  | orst => cases h; exact .orst

/-- Everything a completion that answers a next state can be: ignored, SEQ, or executed (R150, R152). -/
theorem exec_executed {i : Instr} {s t : State} (h : exec i s = .next t) :
    t = s.finish ∨ t = (s.raise .seq).finish ∨
      (legality i s.phase s.t = .yes ∧ ∃ u, Executed s i u ∧ t = u.finish) := by
  rcases exec_next h with ⟨-, rfl⟩ | ⟨-, rfl⟩ | ⟨hl, u, hu, rfl⟩
  · exact .inl rfl
  · exact .inr (.inl rfl)
  · exact .inr (.inr ⟨hl, u, executed_of_bodyOf hu, rfl⟩)

/-- The word a completion takes is a pending command, or is ILLEGAL (R152, R201). -/
theorem completeWord_next {w : Word} {s t : State} {sched : List Event} (hp : s.pend = some w)
    (h : completeWord w { s with schedule := sched } = .next t) :
    (∃ i, pendingCommand s = some i ∧ exec i { s with schedule := sched } = .next t) ∨
      t = completeIllegal { s with schedule := sched } := by
  rcases completeWord_cases w { s with schedule := sched } with ⟨i, hd, e⟩ | ⟨_, -, e⟩ <;> rw [e] at h
  · exact .inl ⟨i, by simp [pendingCommand, hp, hd], h⟩
  · cases h; exact .inr rfl

/-- What a host write to the window, with the writes that land before it, can change (R43, R71(a), R151). -/
theorem hostWrite_frame (o : BitVec 8) (v : Word) (s : State) :
    writeWindow o v (orderBeforeMmio s) =
      { s with
        ovr := (writeWindow o v (orderBeforeMmio s)).ovr
        pend := (writeWindow o v (orderBeforeMmio s)).pend
        src := (writeWindow o v (orderBeforeMmio s)).src
        idlen := (writeWindow o v (orderBeforeMmio s)).idlen
        fbase := (writeWindow o v (orderBeforeMmio s)).fbase
        flen := (writeWindow o v (orderBeforeMmio s)).flen
        mem := (orderBeforeMmio s).mem
        posted := (orderBeforeMmio s).posted
        raced := (orderBeforeMmio s).raced
        draws := (orderBeforeMmio s).draws } := by
  have hwrite := writeWindow_frame o v (orderBeforeMmio s)
  generalize writeWindow o v (orderBeforeMmio s) = t at hwrite ⊢
  exact hwrite.trans (by rw [orderBeforeMmio_frame])

/-- BUSY as the host's write meets it, whatever has landed before (R71(a)). -/
@[simp] theorem orderBeforeMmio_busy (s : State) : (orderBeforeMmio s).busy = s.busy := by
  rw [orderBeforeMmio_frame]; rfl

/-! ### The padded block (R125, R157) -/

/-- A block of zero words has zero bytes only. -/
theorem getByte_replicate_zero (j : BitVec 6) : getByte (Vector.replicate 16 0) j = 0 := by
  simp [getByte]

/-- PAD turns the block that holds a message into the message's padded block (R125, R157). -/
theorem padBlock_w_of_holdsMessage {s : State} {m : List Byte} (h : holdsMessage m s) :
    (padBlock s).w = paddedBlock m := by
  obtain ⟨hlen, hbytes⟩ := h
  refine block_ext fun j => ?_
  by_cases hj : j.toNat < 60
  · have hone : j = s.len ↔ j.toNat = m.length := by rw [← hlen, BitVec.toNat_inj]
    rw [padBlock_w, getByte_set_word (by omega), getByte_setByte, hbytes, getByte_paddedBlock m j hj, paddedByte]
    rcases Nat.lt_trichotomy j.toNat m.length with hlt | heq | hgt
    · rw [if_neg (mt hone.1 hlt.ne), if_pos hlt]
    · rw [if_pos (hone.2 heq), if_neg heq.not_lt, if_pos heq]
    · rw [if_neg (mt hone.1 hgt.ne'), if_neg hgt.not_gt, if_neg hgt.ne', List.getD_eq_default _ _ hgt.le]
  · have hq : j.toNat / 4 = 15 := by have := j.isLt; omega
    simp [getByte, paddedBlock, hq, hlen]

/-! ### The registers' invariant (R44) -/

/-- The reset values meet the invariant on every platform (R44, R230). -/
theorem registersInv_resetOn (p : Platform) : registersInv (State.resetOn p) :=
  ⟨⟨Nat.zero_le _, Nat.zero_le _, Nat.zero_le _⟩, by simp [faultIffError, State.resetOn],
    fun _ => ⟨rfl, fun j _ => getByte_replicate_zero j, rfl, rfl⟩, nofun, nofun⟩

/-- INIT gives the registers that the invariant looks at their reset values (R153, R230). -/
theorem registersInv_freshHash (s : State) : registersInv (freshHash s) :=
  registersInv_congr (registersInv_resetOn s.platform) ⟨rfl, rfl, rfl, rfl, rfl, rfl, rfl, rfl⟩

theorem registersInv_finish {s : State} (h : registersInv s) : registersInv s.finish :=
  registersInv_congr h ⟨rfl, rfl, rfl, rfl, rfl, rfl, rfl, rfl⟩

/-- Raising an error leads to FAULT with the counters as they are (R206). -/
theorem registersInv_raise {s : State} {e : ErrCause} (h : registersInv s) (he : e ≠ .none) :
    registersInv (s.raise e) :=
  registersInv_of_fault h.1 rfl he

/-- One more byte in LOAD: the bytes behind the new LEN were zero behind the old one (R155, R156). -/
theorem registersInv_loadByte {s : State} (b : Byte) (h : registersInv s) (hp : s.phase = .load)
    (hroom : s.len.toNat < 55) : registersInv (s.loadByte b) := by
  obtain ⟨⟨-, ht, hoidx⟩, hfault, hload, -, -⟩ := h
  obtain ⟨ht0, hzero, hh, hv⟩ := hload hp
  have hlen : (s.loadByte b).len.toNat = s.len.toNat + 1 := by
    rw [State.loadByte_len, BitVec.toNat_add_of_lt (by simp; omega)]; rfl
  refine ⟨⟨by rw [hlen]; exact hroom, ht, hoidx⟩, hfault, fun _ => ⟨ht0, fun j hj => ?_, hh, hv⟩, ?_, ?_⟩
  · rw [hlen] at hj
    rw [State.loadByte_w, getByte_setByte, if_neg (by rintro rfl; omega)]
    exact hzero j (by omega)
  all_goals intro h; simp [hp] at h

/-- LDM's loop in LOAD, whether it ends or a bus error stops it (R156). -/
theorem registersInv_ldmLoop (base : Addr) (n j : Nat) {s : State} (h : registersInv s) (hp : s.phase = .load)
    (hroom : s.len.toNat + n ≤ 55) : registersInv (ldmLoop base n j s) := by
  induction n generalizing j s with
  | zero => exact h
  | succ n ih =>
    rw [ldmLoop]
    split
    · exact registersInv_raise h nofun
    · next b s' hread =>
      obtain ⟨d, rfl⟩ : ∃ d, s' = { s with draws := d } := by
        rcases (memRead_some hread).2 with ⟨-, -, rfl⟩ | ⟨-, -, rfl⟩ <;> exact ⟨_, rfl⟩
      have hs' : registersInv { s with draws := d } :=
        registersInv_congr h ⟨rfl, rfl, rfl, rfl, rfl, rfl, rfl, rfl⟩
      refine ih (j + 1) (registersInv_loadByte b hs' hp (by simp only; omega)) hp ?_
      rw [State.loadByte_len, BitVec.toNat_add_of_lt (by simp; omega)]
      simp; omega

/-- OBF's loop touches the invariant's registers only by raising BUS (R183). -/
theorem registersInv_obfLoop (base : Addr) (n i : Nat) {s : State} (h : registersInv s) :
    registersInv (obfLoop base n i s) := by
  induction n generalizing i s with
  | zero => exact h
  | succ n ih =>
    rw [obfLoop]
    split
    · exact registersInv_raise h nofun
    · next s' hbyte =>
      obtain ⟨m, u, d, rfl⟩ := obfByte_frame hbyte
      exact ih (i + 1) (registersInv_congr h ⟨rfl, rfl, rfl, rfl, rfl, rfl, rfl, rfl⟩)

/-- PAD starts the compression of the message held (R135 item 1, R157). -/
theorem registersInv_padBlock {s : State} (h : registersInv s) (hp : s.phase = .load) :
    registersInv (padBlock s) := by
  obtain ⟨hcount, hfault, hload, -, -⟩ := h
  obtain ⟨ht, -, hh, hv⟩ := hload hp
  obtain ⟨m, hm, hholds⟩ := exists_message_of_load hload hp
  have hstart : (padBlock s).mixer = compressionStart m := by
    rw [State.mixer, padBlock_w_of_holdsMessage hholds, padBlock_v, hv, compressionStart]
  refine ⟨hcount, ?_, nofun, fun _ => ⟨hh, m, hm, ?_⟩, nofun⟩
  · have hnone : s.err = .none := by simpa [faultIffError, hp] using hfault
    simp [faultIffError, hnone]
  · rw [hstart, padBlock_t, ht]; rfl

/-- Up to 80 rounds in COMPRESS stay on the compression's way (R133, R158). -/
theorem registersInv_stepRounds {s : State} {n : Nat} (h : registersInv s) (hp : s.phase = .compress)
    (hn : s.t.toNat + n ≤ 80) : registersInv (stepRounds n s) := by
  obtain ⟨⟨hlen, -, hoidx⟩, hfault, -, hcompress, -⟩ := h
  obtain ⟨hh, m, hm, hmixer⟩ := hcompress hp
  obtain ⟨hmix, ht⟩ := stepRounds_mixer n s (by omega)
  have hway : (stepRounds n s).mixer = roundsFrom 0 (stepRounds n s).t.toNat (compressionStart m) := by
    rw [hmix, ht, hmixer]
    simpa using roundsFrom_add 0 s.t.toNat n (compressionStart m)
  rw [← ht] at hn
  have hphase := stepRounds_phase n s
  rw [stepRounds_frame] at hway ⊢
  refine ⟨⟨hlen, hn, hoidx⟩, hfault, ?_, fun _ => ⟨hh, m, hm, hway⟩, ?_⟩ <;> intro h <;> simp [hp] at h

/-- With all 80 rounds done the final addition gives the digest (R134, R135). -/
theorem registersInv_finalAddition {s : State} (h : registersInv s) (hp : s.phase = .compress)
    (ht : s.t.toNat = 80) : registersInv s.finalAddition := by
  obtain ⟨hcount, hfault, -, hcompress, -⟩ := h
  obtain ⟨-, m, hm, hmixer⟩ := hcompress hp
  have hnone : s.err = .none := by simpa [faultIffError, hp] using hfault
  refine ⟨hcount, by simp [faultIffError, hnone], nofun, nofun, fun _ => ⟨ht, m, hm, ?_⟩⟩
  rw [State.finalAddition_h, sha1, ← State.mixer_v, hmixer, ht]

/-- Every Execute body that R150 allows keeps the invariant. -/
theorem registersInv_of_executed {i : Instr} {s u : State} (h : registersInv s)
    (hl : legality i s.phase s.t = .yes) (hu : Executed s i u) : registersInv u := by
  obtain ⟨hlen, ht, hoidx⟩ := h.1
  cases hu with
  | nop => exact h
  | init => exact registersInv_freshHash s
  | ldbFull | ldmTooLong => exact registersInv_raise h nofun
  | ldb room => exact registersInv_loadByte _ h (by simpa [legality, legalIn_yes] using hl) room
  | ldm room => exact registersInv_ldmLoop _ _ _ h (by simpa [legality, legalIn_yes] using hl) room
  | pad => exact registersInv_padBlock h (by simpa [legality, legalIn_yes] using hl)
  | step =>
    obtain ⟨hp, hlt⟩ := legality_step_yes.1 hl
    exact registersInv_stepRounds (n := 1) h hp hlt
  | fin =>
    obtain ⟨hp, heq⟩ := legality_fin_yes.1 hl
    exact registersInv_finalAddition h hp heq
  | hash =>
    have hp : s.phase = .compress := by simpa [legality, legalIn_yes] using hl
    have hall : s.t.toNat + (80 - s.t.toNat) = 80 := Nat.add_sub_cancel' ht
    exact registersInv_finalAddition (registersInv_stepRounds h hp hall.le) ((stepRounds_phase _ s).trans hp)
      ((stepRounds_mixer _ s (by omega)).2.trans hall)
  | rdb | xorbPast => exact registersInv_congr h ⟨rfl, rfl, rfl, rfl, rfl, rfl, rfl, rfl⟩
  | orst =>
    obtain ⟨-, hrest⟩ := h
    exact ⟨⟨hlen, ht, Nat.zero_le _⟩, hrest⟩
  | xorb inside =>
    obtain ⟨-, hrest⟩ := h
    refine ⟨⟨hlen, ht, ?_⟩, hrest⟩
    rw [BitVec.toNat_add_of_lt (by simp; omega)]
    exact inside
  | obf => exact registersInv_obfLoop _ _ _ h

/-- Every completion of a command keeps the invariant (R152). -/
theorem registersInv_of_exec {i : Instr} {s t : State} (hs : registersInv s) (h : exec i s = .next t) :
    registersInv t := by
  rcases exec_executed h with rfl | rfl | ⟨hl, u, hu, rfl⟩
  · exact registersInv_finish hs
  · exact registersInv_finish (registersInv_raise hs nofun)
  · exact registersInv_finish (registersInv_of_executed hs hl hu)

/-- The completion of an ILLEGAL word keeps the invariant (R201). -/
theorem registersInv_completeIllegal {s : State} (hs : registersInv s) : registersInv (completeIllegal s) := by
  rcases completeIllegal_eq s with ⟨-, e⟩ | ⟨-, e⟩ <;> rw [e]
  · exact registersInv_finish hs
  · exact registersInv_finish (registersInv_raise hs nofun)

/-- Settles O40: only completions and resets write the registers that the invariant looks at. -/
theorem everyStepKeepsTheRegistersInvariant : Obligations.EveryStepKeepsTheRegistersInvariant := by
  intro s t hs h
  rcases step_next h with ⟨w, sched, hp, hc⟩ | ⟨o, v, rest, -, rfl⟩ | ⟨rest, -, -, rfl⟩ | ⟨ht, -⟩
  · have hs' : registersInv { s with schedule := sched } := hs
    rcases completeWord_next hp hc with ⟨i, -, hexec⟩ | rfl
    · exact registersInv_of_exec hs' hexec
    · exact registersInv_completeIllegal hs'
  · rw [hostWrite_frame]
    exact registersInv_congr hs ⟨rfl, rfl, rfl, rfl, rfl, rfl, rfl, rfl⟩
  · exact registersInv_congr (registersInv_resetOn s.platform) ⟨rfl, rfl, rfl, rfl, rfl, rfl, rfl, rfl⟩
  · rw [ht]
    exact registersInv_congr hs ⟨rfl, rfl, rfl, rfl, rfl, rfl, rfl, rfl⟩

/-- Settles O39: the reset values are the same on every platform. -/
theorem resetMeetsTheInvariants : Obligations.ResetMeetsTheInvariants := by
  have hmem : ∀ p, memoryInv (State.resetOn p) := fun p =>
    ⟨rfl, fun _ => rfl, by simp [State.resetOn], by simp [State.resetOn]⟩
  exact ⟨registersInv_resetOn _, hmem _, fun p => ⟨registersInv_resetOn p, hmem p⟩⟩

/-! ### Who writes the digest (R21) -/

/-- Which Execute bodies write H (R21). -/
theorem executed_h {i : Instr} {s u : State} (h : Executed s i u) :
    u.h = s.h ∨ (i = .init ∧ u.h = iv) ∨
      ((i = .fin ∨ i = .hash) ∧ u.phase = .done ∧ u.h = finalSum u.v) := by
  cases h with
  | init => exact .inr (.inl ⟨rfl, rfl⟩)
  | fin => exact .inr (.inr ⟨.inl rfl, rfl, rfl⟩)
  | hash => exact .inr (.inr ⟨.inr rfl, rfl, rfl⟩)
  | ldm => rw [ldmLoop_frame]; exact .inl rfl
  | obf => rw [obfLoop_frame]; exact .inl rfl
  | nop | ldbFull | ldb | ldmTooLong | pad | step | rdb | orst | xorb | xorbPast => exact .inl rfl

/-- FIN and HASH execute in COMPRESS only (R150). -/
theorem phase_of_final_legal {i : Instr} {p : Phase} {t : BitVec 7} (hi : i = .fin ∨ i = .hash)
    (hl : legality i p t = .yes) : p = .compress := by
  rcases hi with rfl | rfl
  · exact (legality_fin_yes.1 hl).1
  · simpa [legality, legalIn_yes] using hl

/-- Settles O43: of the steps that change H, a completion is one of `executed_h`. -/
theorem onlyInitFinHashAndResetWriteTheDigest : Obligations.OnlyInitFinHashAndResetWriteTheDigest := by
  intro s t h hne
  rcases step_next h with ⟨w, sched, hp, hc⟩ | ⟨o, v, rest, -, rfl⟩ | ⟨rest, hr, -, rfl⟩ | ⟨ht, -⟩
  · rcases completeWord_next hp hc with ⟨i, hi, hexec⟩ | rfl
    · rcases exec_executed hexec with rfl | rfl | ⟨hl, u, hu, rfl⟩
      · exact absurd rfl hne
      · exact absurd rfl hne
      · rcases executed_h hu with hsame | ⟨rfl, hiv⟩ | ⟨hfin, hdone, hsum⟩
        · exact absurd hsame hne
        · exact .inr (.inl ⟨hi, rfl, hiv⟩)
        · have hpend : pendingCommand s = some .fin ∨ pendingCommand s = some .hash := by simpa [hi] using hfin
          exact .inr (.inr ⟨hpend, phase_of_final_legal hfin hl, hdone, hsum⟩)
    · rw [completeIllegal_frame] at hne; exact absurd rfl hne
  · rw [hostWrite_frame] at hne; exact absurd rfl hne
  · exact .inl ⟨⟨rest, hr⟩, rfl⟩
  · rw [ht] at hne; exact absurd rfl hne

/-! ### The ways out of FAULT (R29, R210) -/

/-- In FAULT only INIT does more than end (R150, R207). -/
theorem exec_of_fault {i : Instr} {s t : State} (hf : s.phase = .fault) (h : exec i s = .next t) :
    t = s.finish ∨ (i = .init ∧ t = (freshHash s).finish) := by
  by_cases hi : i = .nop ∨ i = .init
  · rcases hi with rfl | rfl
    · exact .inl (by cases h; rfl)
    · exact .inr ⟨rfl, by cases h; rfl⟩
  · rw [exec_ignored (legality_ignored.2 ⟨hf, not_or.1 hi⟩)] at h
    cases h; exact .inl rfl

/-- Settles O44: in FAULT every other completion is ignored, and the other agents write neither PHASE nor ERR. -/
theorem onlyInitAndResetLeaveFault : Obligations.OnlyInitAndResetLeaveFault := by
  intro s t hf h
  rcases step_next h with ⟨w, sched, hp, hc⟩ | ⟨o, v, rest, -, rfl⟩ | ⟨rest, hr, -, rfl⟩ | ⟨ht, -⟩
  · rcases completeWord_next hp hc with ⟨i, hi, hexec⟩ | rfl
    · rcases exec_of_fault (by exact hf) hexec with rfl | ⟨rfl, rfl⟩
      · exact .inl ⟨hf, rfl⟩
      · exact .inr ⟨rfl, rfl, .inl hi⟩
    · rcases completeIllegal_eq { s with schedule := sched } with ⟨-, e⟩ | ⟨hnf, -⟩
      · rw [e]; exact .inl ⟨hf, rfl⟩
      · exact absurd hf hnf
  · rw [hostWrite_frame]; exact .inl ⟨hf, rfl⟩
  · exact .inr ⟨rfl, rfl, .inr ⟨rest, hr⟩⟩
  · rw [ht]; exact .inl ⟨hf, rfl⟩

/-! ### Writing the window (R41, R43) -/

/-- A write to an unmapped offset is ignored (R41). -/
theorem writeWindow_unmapped {o : BitVec 8} {v : Word} {s : State} (h : regAt o = none) : writeWindow o v s = s := by
  rw [writeWindow, h]

/-- With BUSY = 1 a write stores nothing and sets OVR if the register is writable (R41, R43). -/
theorem writeWindow_busy {r : Reg} {v : Word} {s : State} (hb : s.busy = true) :
    writeWindow (regOffset r) v s = { s with ovr := s.ovr || writable r } := by
  rw [writeWindow, regAt_regOffset]
  simp only [hb, if_true]

/-- With BUSY = 0 a write takes effect (R43). -/
theorem writeWindow_idle {r : Reg} {v : Word} {s : State} (hb : s.busy = false) :
    writeWindow (regOffset r) v s = writeReg r v s := by
  rw [writeWindow, regAt_regOffset]
  simp [hb]

/-- The registers a host can write (R40). -/
theorem writable_iff {r : Reg} : writable r = true ↔ r ∈ ([.cmd, .src, .idlen, .fbase, .flen] : List Reg) := by
  cases r <;> simp [writable]

theorem writeReg_src (q : Reg) (v : Word) (s : State) : (writeReg q v s).src = if q = .src then v else s.src := by
  cases q <;> rfl

theorem writeReg_idlen (q : Reg) (v : Word) (s : State) :
    (writeReg q v s).idlen = if q = .idlen then v else s.idlen := by
  cases q <;> rfl

theorem writeReg_fbase (q : Reg) (v : Word) (s : State) :
    (writeReg q v s).fbase = if q = .fbase then v else s.fbase := by
  cases q <;> rfl

theorem writeReg_flen (q : Reg) (v : Word) (s : State) :
    (writeReg q v s).flen = if q = .flen then v else s.flen := by
  cases q <;> rfl

/-! ### OVR and the operand registers belong to the host (R28, R32-R35) -/

/-- The four operand registers are the same in both states (R32-R35). -/
def sameOperands (s t : State) : Prop := t.src = s.src ∧ t.idlen = s.idlen ∧ t.fbase = s.fbase ∧ t.flen = s.flen

/-- A register a host can write reads the same where the operand registers are the same: CMD reads 0 (R40). -/
theorem sameOperands.regValue {s t : State} {r : Reg} (h : sameOperands s t) (hw : writable r = true) :
    regValue t r = regValue s r := by
  obtain ⟨hsrc, hidlen, hfbase, hflen⟩ := h
  cases r with
  | cmd => rfl
  | src => exact hsrc
  | idlen => exact hidlen
  | fbase => exact hfbase
  | flen => exact hflen
  | _ => cases hw

/-- No Execute body writes the host's registers: OVR is cleared at INIT's acceptance, not by its execution (R151,
R153). -/
theorem executed_hostRegisters {i : Instr} {s u : State} (h : Executed s i u) :
    u.ovr = s.ovr ∧ sameOperands s u := by
  cases h with
  | ldm => rw [ldmLoop_frame]; exact ⟨rfl, rfl, rfl, rfl, rfl⟩
  | obf => rw [obfLoop_frame]; exact ⟨rfl, rfl, rfl, rfl, rfl⟩
  | hash => rw [stepRounds_frame]; exact ⟨rfl, rfl, rfl, rfl, rfl⟩
  | nop | init | ldbFull | ldb | ldmTooLong | pad | step | fin | rdb | orst | xorb | xorbPast =>
    exact ⟨rfl, rfl, rfl, rfl, rfl⟩

/-- Only the host's writes to the window and reset write the host's registers. -/
theorem step_hostRegisters {s t : State} (h : step s = .next t) :
    (t.ovr = s.ovr ∧ sameOperands s t) ∨ (t.ovr = false ∧ ∃ rest, s.schedule = .reset :: rest) ∨
    (∃ o v rest, s.schedule = .hostWrite o .w32 v :: rest ∧
      t = writeWindow o v (orderBeforeMmio { s with schedule := rest })) := by
  rcases step_next h with ⟨w, sched, hp, hc⟩ | hwrite | ⟨rest, hr, -, rfl⟩ | ⟨ht, -⟩
  · rcases completeWord_next hp hc with ⟨i, -, hexec⟩ | rfl
    · rcases exec_executed hexec with rfl | rfl | ⟨-, u, hu, rfl⟩
      · exact .inl ⟨rfl, rfl, rfl, rfl, rfl⟩
      · exact .inl ⟨rfl, rfl, rfl, rfl, rfl⟩
      · have hhost := executed_hostRegisters hu
        exact .inl hhost
    · rw [completeIllegal_frame]; exact .inl ⟨rfl, rfl, rfl, rfl, rfl⟩
  · exact .inr (.inr hwrite)
  · exact .inr (.inl ⟨rfl, rest, hr⟩)
  · rw [ht]; exact .inl ⟨rfl, rfl, rfl, rfl, rfl⟩

/-- The memory writes that land before a window write leave the host's registers (R71(a)). -/
theorem orderBeforeMmio_hostRegisters (s : State) :
    (orderBeforeMmio s).ovr = s.ovr ∧ sameOperands s (orderBeforeMmio s) := by
  rw [orderBeforeMmio_frame]; exact ⟨rfl, rfl, rfl, rfl, rfl⟩

theorem isInitWord_iff {w : Word} : isInitWord w = true ↔ decode w = .ok .init := by
  unfold isInitWord
  split
  · next h => simp [h]
  · next h => simpa using h

/-- Which window writes change OVR, and how (R28, R151, R205). -/
theorem writeWindow_ovr {o : BitVec 8} {v : Word} {s : State} (h : (writeWindow o v s).ovr ≠ s.ovr) :
    ((writeWindow o v s).ovr = true ∧ s.busy = true ∧ ∃ r, writable r = true ∧ regOffset r = o) ∨
    ((writeWindow o v s).ovr = false ∧ s.busy = false ∧ decode v = .ok .init ∧ regOffset .cmd = o) := by
  rcases writeWindow_cases o v s with e | ⟨hb, ⟨r, hr, hw⟩, e⟩ | ⟨hb, hr, e⟩ | ⟨-, -, e⟩ | ⟨-, -, e⟩ | ⟨-, -, e⟩ |
    ⟨-, -, e⟩ <;> rw [e] at h ⊢
  case inr.inl => exact .inl ⟨rfl, hb, r, hw, regOffset_of_regAt hr⟩
  case inr.inr.inl =>
    cases hi : isInitWord v with
    | true => exact .inr ⟨by simp [hi], hb, isInitWord_iff.1 hi, regOffset_of_regAt hr⟩
    | false => simp [hi] at h
  all_goals exact absurd rfl h

/-- Settles O45: of the steps that write OVR, a window write is one of `writeWindow_ovr`. -/
theorem ovrChangesOnlyAsItsRuleSays : Obligations.OvrChangesOnlyAsItsRuleSays := by
  intro s t h hne
  rcases step_hostRegisters h with ⟨hovr, -⟩ | hreset | ⟨o, v, rest, hsched, rfl⟩
  · exact absurd hovr hne
  · exact .inr (.inl hreset)
  · obtain ⟨hovr, -⟩ := orderBeforeMmio_hostRegisters { s with schedule := rest }
    have hbusy := orderBeforeMmio_busy { s with schedule := rest }
    rcases writeWindow_ovr (by rwa [hovr]) with ⟨ht, hb, r, hw, rfl⟩ | ⟨ht, hb, hinit, rfl⟩
    · exact .inl ⟨ht, hbusy.symm.trans hb, r, v, rest, hw, hsched⟩
    · exact .inr (.inr ⟨ht, hbusy.symm.trans hb, v, rest, hinit, hsched⟩)

/-- A write with BUSY = 0 leaves every writable register but its own. -/
theorem regValue_writeReg_of_ne {q r : Reg} {v : Word} {s : State} (hne : q ≠ r) (hw : writable r = true) :
    regValue (writeReg q v s) r = regValue s r := by
  cases r with
  | cmd => rfl
  | src => exact (writeReg_src q v s).trans (if_neg hne)
  | idlen => exact (writeReg_idlen q v s).trans (if_neg hne)
  | fbase => exact (writeReg_fbase q v s).trans (if_neg hne)
  | flen => exact (writeReg_flen q v s).trans (if_neg hne)
  | _ => cases hw

/-- A window write changes what a writable register reads as only with BUSY = 0, at its offset, to the value written
(R43). -/
theorem writeWindow_regValue {o : BitVec 8} {v : Word} {s : State} {r : Reg} (hw : writable r = true)
    (h : regValue (writeWindow o v s) r ≠ regValue s r) :
    s.busy = false ∧ regOffset r = o ∧ regValue (writeWindow o v s) r = v := by
  cases hq : regAt o with
  | none => rw [writeWindow_unmapped hq] at h; exact absurd rfl h
  | some q =>
    obtain rfl := regOffset_of_regAt hq
    cases hb : s.busy with
    | true =>
      rw [writeWindow_busy hb] at h
      exact (h (sameOperands.regValue (by exact ⟨rfl, rfl, rfl, rfl⟩) hw)).elim
    | false =>
      rw [writeWindow_idle hb] at h ⊢
      by_cases hqr : q = r
      · subst hqr
        cases q with
        | cmd => exact absurd rfl h
        | src | idlen | fbase | flen => exact ⟨rfl, rfl, rfl⟩
        | _ => cases hw
      · exact absurd (regValue_writeReg_of_ne hqr hw) h

/-- A step that is no reset changes a writable register's content only by a host write of it with BUSY = 0 (R43). -/
theorem step_regValue {s t : State} {r : Reg} (hw : writable r = true) (h : step s = .next t)
    (hreset : ∀ rest, s.schedule ≠ .reset :: rest) (hne : regValue t r ≠ regValue s r) :
    s.busy = false ∧ ∃ rest, s.schedule = .hostWrite (regOffset r) .w32 (regValue t r) :: rest := by
  rcases step_hostRegisters h with ⟨-, hsame⟩ | ⟨-, rest, hr⟩ | ⟨o, v, rest, hsched, rfl⟩
  · exact absurd (hsame.regValue hw) hne
  · exact absurd hr (hreset rest)
  · obtain ⟨-, hsame⟩ := orderBeforeMmio_hostRegisters { s with schedule := rest }
    have hbusy := orderBeforeMmio_busy { s with schedule := rest }
    obtain ⟨hb, ho, hv⟩ := writeWindow_regValue hw (by rwa [hsame.regValue hw])
    rw [hv, ho]
    exact ⟨hbusy.symm.trans hb, rest, hsched⟩

/-- Settles O46: SRC, IDLEN, FBASE and FLEN are four registers of `step_regValue`. -/
theorem onlyTheHostWritesTheOperandRegisters : Obligations.OnlyTheHostWritesTheOperandRegisters := by
  intro s t h hreset
  exact ⟨step_regValue (r := .src) rfl h hreset, step_regValue (r := .idlen) rfl h hreset,
    step_regValue (r := .fbase) rfl h hreset, step_regValue (r := .flen) rfl h hreset⟩

/-! ### Window reads (R40-R42) -/

/-- The registers a host can always read (R42). -/
theorem unspecifiedWhileBusy_eq_false {r : Reg} :
    unspecifiedWhileBusy r = false ↔ r ∈ ([.cmd, .status, .src, .idlen, .fbase, .flen] : List Reg) := by
  cases r <;> simp [unspecifiedWhileBusy]

/-- A read that R42 leaves open returns the next free value and changes nothing else. -/
theorem readWindow_unspecified {r : Reg} {s : State} (hb : s.busy = true) (hr : unspecifiedWhileBusy r = true) :
    readWindow (regOffset r) s = { s with readData := Config.freeWord s.draws, draws := s.draws + 1 } := by
  rw [readWindow, regAt_regOffset]
  simp only [hb, hr, Bool.and_self, if_true]
  rfl

/-- Any other read of a register returns its content; STATUS with BUSY = 0 makes the engine's writes visible
(R41, R71(b)). -/
theorem readWindow_specified {r : Reg} {s : State} (h : s.busy = false ∨ unspecifiedWhileBusy r = false) :
    readWindow (regOffset r) s =
      { s with
        readData := regValue s r
        unseen := if r = .status ∧ s.busy = false then [] else s.unseen } := by
  have hspec : ¬ (s.busy && unspecifiedWhileBusy r) = true := by
    rcases h with h | h <;> simp [h]
  rw [readWindow, regAt_regOffset]
  simp only [if_neg hspec, makesWritesVisible_iff]

/-- A read of an unmapped offset returns 0 and changes nothing else (R41). -/
theorem readWindow_unmapped {o : BitVec 8} {s : State} (h : regAt o = none) :
    readWindow o s = { s with readData := 0 } := by
  rw [readWindow, h]

/-- Settles O52: R42's two kinds of read are `readWindow_unspecified` and `readWindow_specified`. -/
theorem hostReadsReturnTrueOrFreeValues : Obligations.HostReadsReturnTrueOrFreeValues := by
  intro s r rest h
  rw [step_hostRead h (regOffset_aligned r), ← unspecifiedWhileBusy_eq_false]
  refine ⟨fun hb hr => ?_, fun hspec => ?_⟩
  · rw [readWindow_unspecified (by exact hb) (by simpa using hr)]
  · rw [readWindow_specified (by exact hspec)]
    cases r <;> rfl

/-! ### Writes that are ignored, refused or stored (R41, R43) -/

theorem writeReg_of_readOnly {r : Reg} {v : Word} {s : State} (h : writable r = false) : writeReg r v s = s := by
  cases r with
  | cmd | src | idlen | fbase | flen => cases h
  | _ => rfl

/-- A write to a read-only register is ignored, OVR included (R41). -/
theorem writeWindow_readOnly {r : Reg} {v : Word} {s : State} (h : writable r = false) :
    writeWindow (regOffset r) v s = s := by
  cases hb : s.busy with
  | true => rw [writeWindow_busy hb, h, Bool.or_false]
  | false => rw [writeWindow_idle hb, writeReg_of_readOnly h]

/-- Only an aligned 32-bit access is defined (R41, R65). -/
theorem hostAccessDefined_eq_false {o : BitVec 8} {width : Width} :
    hostAccessDefined o width = false ↔ width ≠ .w32 ∨ o.toNat % 4 ≠ 0 := by
  by_cases h : width = .w32 <;> simp [hostAccessDefined, h]

/-- Settles O54: reads by their frame, writes by the two that are ignored, any other access by its refusal. -/
theorem unmappedReadOnlyAndUndefinedAccesses : Obligations.UnmappedReadOnlyAndUndefinedAccesses := by
  intro s o v rest
  refine ⟨fun ho h => ⟨_, step_hostRead h ho, fun hnone => ?_, fun hstatus => ?_, readWindow_frame o _⟩,
    fun ho hnone h => ?_, fun r hr hro h => ?_, fun width hbad => ?_⟩
  · rw [readWindow_unmapped hnone]; exact ⟨rfl, rfl⟩
  · rw [readWindow_unseen, if_neg]
    rintro ⟨hreg, hb⟩
    exact hstatus.elim (absurd hreg) fun hbusy => Bool.noConfusion (hbusy.symm.trans hb)
  · rw [step_hostWrite h ho, writeWindow_unmapped hnone]
  · obtain rfl := regOffset_of_regAt hr
    rw [← writable_iff, Bool.not_eq_true] at hro
    rw [step_hostWrite h (regOffset_aligned r), writeWindow_readOnly hro]
  · have hdef := hostAccessDefined_eq_false.2 hbad
    constructor <;> intro h <;> rw [step_eq_perform h, perform, hdef] <;> rfl

/-- Settles O55: BUSY as the write meets it is BUSY before the earlier writes landed. -/
theorem operandWritesStoreOrOverrun : Obligations.OperandWritesStoreOrOverrun := by
  intro s r v rest h s0
  have hbusy : s0.busy = s.busy := orderBeforeMmio_busy { s with schedule := rest }
  rw [step_hostWrite h (regOffset_aligned r)]
  refine ⟨fun hb hw => ?_, fun hb => ?_⟩
  · rw [writeWindow_busy (hbusy.trans hb), writable_iff.2 hw, Bool.or_true]
  · rw [writeWindow_idle (hbusy.trans hb)]
    refine ⟨?_, ?_, ?_, ?_⟩ <;> rintro rfl <;> rfl

/-! ### STATUS and the register map (R39, R40) -/

/-- STATUS as a number: ERR, PHASE, OVR and BUSY side by side (R39). -/
theorem statusWord_toNat (s : State) :
    (statusWord s).toNat =
      ((s.err.code.toNat * 2 ^ 2 + s.phase.code.toNat) * 2 ^ 1 + s.ovr.toNat) * 2 ^ 1 + s.busy.toNat := by
  rw [statusWord, BitVec.toNat_setWidth_of_le (by decide), toNat_append_eq, toNat_append_eq, toNat_append_eq]
  simp

/-- Settles O51: each field is a quotient and remainder of `statusWord_toNat`. -/
theorem statusLayout : Obligations.StatusLayout := by
  intro s
  have hnum := statusWord_toNat s
  have herr := s.err.code.isLt
  have hphase := s.phase.code.isLt
  have hovr := s.ovr.toNat_lt
  have hbusy := s.busy.toNat_lt
  have field : ∀ (lo len : Nat) (x : BitVec len), (statusWord s).toNat / 2 ^ lo % 2 ^ len = x.toNat →
      (statusWord s).extractLsb' lo len = x := fun lo len x h => by
    apply BitVec.eq_of_toNat_eq
    rw [BitVec.extractLsb'_toNat, Nat.shiftRight_eq_div_pow, h]
  refine ⟨field 0 1 _ ?_, field 1 1 _ ?_, (field 2 2 s.phase.code (by omega)).trans (by cases s.phase <;> rfl),
    (field 4 4 s.err.code (by omega)).trans (by cases s.err <;> rfl), field 8 24 0#24 (by rw [BitVec.toNat_zero]; omega)⟩
  all_goals rw [BitVec.toNat_ofBool]; omega

/-- Settles O53: the offsets by evaluation, the two directions by the laws of the register map. -/
theorem registerMapIsOneToOne : Obligations.RegisterMapIsOneToOne := by
  refine ⟨⟨rfl, rfl, rfl, rfl, rfl, rfl, rfl, rfl, rfl, rfl, ?_, rfl, rfl, rfl, rfl, rfl, ?_⟩, regAt_regOffset,
    fun _ _ => regOffset_of_regAt⟩ <;> decide

end Sys2Proof.Machine

/-! ## Memory: what the commands and the host do to it (20_memory.md)

When LDM, OBF and a step are refused (O31, O49), which commands write and which read external memory (O47, O48), and
what the host's posted writes and its reads give (O59, O60). -/

namespace Sys2Proof.Machine

/-! ### Refused ranges (R67, R74, U13) -/

/-- Why a range is refused: the reason given, with a byte of the range that has it. -/
theorem exists_byte_of_rangeRefusal {p : Platform} {base : Addr} {n : Nat} {r : Refusal}
    (h : rangeRefusal p base n = some r) :
    ∃ i < n, (r = .selfAccess ∧ inOwnWindow p (engineAddr base i) = true) ∨
      (r = .readSideEffects ∧ hasSideEffects p (engineAddr base i) = true) := by
  simp only [rangeRefusal, List.any_map, List.any_eq_true, List.mem_range, Function.comp] at h
  split at h
  · next hown =>
    obtain ⟨i, hi, hw⟩ := hown
    exact ⟨i, hi, .inl ⟨by simpa using h.symm, hw⟩⟩
  · split at h
    · next hside =>
      obtain ⟨i, hi, he⟩ := hside
      exact ⟨i, hi, .inr ⟨by simpa using h.symm, he⟩⟩
    · cases h

/-- A byte of the own window makes a range refused as such, whatever else is in it (R74). -/
theorem rangeRefusal_of_ownWindow {p : Platform} {base : Addr} {n i : Nat} (hi : i < n)
    (h : inOwnWindow p (engineAddr base i) = true) : rangeRefusal p base n = some .selfAccess := by
  have hown : ((List.range n).map (engineAddr base)).any (inOwnWindow p) = true :=
    List.any_eq_true.2 ⟨_, List.mem_map_of_mem (List.mem_range.2 hi), h⟩
  simp only [rangeRefusal, hown, if_true]

/-- A byte with read side effects makes a range refused (U13). -/
theorem rangeRefusal_of_sideEffects {p : Platform} {base : Addr} {n i : Nat} (hi : i < n)
    (h : hasSideEffects p (engineAddr base i) = true) : ∃ r, rangeRefusal p base n = some r := by
  refine Option.ne_none_iff_exists'.1 fun hnone => ?_
  obtain ⟨-, hfree⟩ := rangeRefusal_none.1 hnone i hi
  exact Bool.noConfusion (h.symm.trans hfree)

/-! ### Refused commands -/

/-- LDM and OBF run in one phase each (R150). -/
theorem legality_ldm_yes {p : Phase} {t : BitVec 7} : legality .ldm p t = .yes ↔ p = .load := by
  simp [legality, legalIn_yes]

theorem legality_obf_yes {p : Phase} {t : BitVec 7} : legality .obf p t = .yes ↔ p = .done := by
  simp [legality, legalIn_yes]

/-- `s` lets command `i` access its range, and the range is refused for `r`: of all commands only LDM and OBF access
one, after SEQ and LENGTH have been checked (R74, log entry 10). -/
def RefusedRange (i : Instr) (s : State) (r : Refusal) : Prop :=
  (i = .ldm ∧ s.phase = .load ∧ ldmTooLong s = false ∧ rangeRefusal s.platform s.src (ldmCount s) = some r) ∨
  (i = .obf ∧ s.phase = .done ∧ rangeRefusal s.platform s.fbase (obfCount s) = some r)

/-- Execute(LDM) is refused exactly if LENGTH does not stop it and its range is refused (R156). -/
theorem ldmBody_refused {s : State} {r : Refusal} :
    ldmBody s = .refused r ↔ ldmTooLong s = false ∧ rangeRefusal s.platform s.src (ldmCount s) = some r := by
  unfold ldmBody
  cases ldmTooLong s <;> cases rangeRefusal s.platform s.src (ldmCount s) <;> simp

/-- Execute(OBF) is refused exactly if its range is (R183). -/
theorem obfBody_refused {s : State} {r : Refusal} :
    obfBody s = .refused r ↔ rangeRefusal s.platform s.fbase (obfCount s) = some r := by
  unfold obfBody
  cases rangeRefusal s.platform s.fbase (obfCount s) <;> simp

/-- Of the Execute bodies only those of LDM and OBF are refused. -/
theorem eq_ldm_or_obf_of_bodyOf_refused {i : Instr} {s : State} {r : Refusal} (h : bodyOf i s = .refused r) :
    i = .ldm ∨ i = .obf := by
  cases i with
  | ldm => exact .inl rfl
  | obf => exact .inr rfl
  | ldb b | xorb b =>
    simp only [bodyOf, ldbBody, xorbBody] at h
    split at h <;> cases h
  | nop | init | pad | step | fin | hash | rdb | orst => cases h

theorem finishResult_refused {x : Result} {r : Refusal} : finishResult x = .refused r ↔ x = .refused r := by
  cases x <;> simp [finishResult]

/-- A completion is refused exactly if R150 allows the command and its Execute body is refused. -/
theorem exec_refused_iff_body {i : Instr} {s : State} {r : Refusal} :
    exec i s = .refused r ↔ legality i s.phase s.t = .yes ∧ bodyOf i s = .refused r := by
  cases hl : legality i s.phase s.t with
  | yes => rw [exec_yes hl, finishResult_refused]; simp
  | seq => rw [exec_seq hl]; simp
  | ignored => rw [exec_ignored hl]; simp

/-- The completions that are refused, for every command. -/
theorem exec_refused_iff_range {i : Instr} {s : State} {r : Refusal} : exec i s = .refused r ↔ RefusedRange i s r := by
  rw [exec_refused_iff_body]
  constructor
  · rintro ⟨hl, hb⟩
    rcases eq_ldm_or_obf_of_bodyOf_refused hb with rfl | rfl
    · exact .inl ⟨rfl, legality_ldm_yes.1 hl, ldmBody_refused.1 hb⟩
    · exact .inr ⟨rfl, legality_obf_yes.1 hl, obfBody_refused.1 hb⟩
  · rintro (⟨rfl, hp, hr⟩ | ⟨rfl, hp, hr⟩)
    · exact ⟨legality_ldm_yes.2 hp, ldmBody_refused.2 hr⟩
    · exact ⟨legality_obf_yes.2 hp, obfBody_refused.2 hr⟩

/-- Settles O31: the two reasons for refusing a range, in the phase in which the command would access it. -/
theorem rangesTheSpecRefusesAreRefused : Obligations.RangesTheSpecRefusesAreRefused := by
  intro s i
  refine ⟨fun hp hlen hi => ?_, fun hp hi => ?_⟩
  · have refused : ∀ r, rangeRefusal s.platform s.src (ldmCount s) = some r → exec .ldm s = .refused r :=
      fun r hr => exec_refused_iff_range.2 (.inl ⟨rfl, hp, ldmTooLong_eq_false.2 hlen, hr⟩)
    exact ⟨fun hown => refused _ (rangeRefusal_of_ownWindow hi hown),
      fun hside => (rangeRefusal_of_sideEffects hi hside).imp refused⟩
  · have refused : ∀ r, rangeRefusal s.platform s.fbase (obfCount s) = some r → exec .obf s = .refused r :=
      fun r hr => exec_refused_iff_range.2 (.inr ⟨rfl, hp, hr⟩)
    exact ⟨fun hown => refused _ (rangeRefusal_of_ownWindow hi hown),
      fun hside => (rangeRefusal_of_sideEffects hi hside).imp refused⟩

/-! ### Refused steps -/

/-- The pending command would be refused exactly if it is one that would access a refused range (R74, U13). -/
theorem pendingRefusal_eq_some {s : State} {r : Refusal} :
    pendingRefusal s = some r ↔ ∃ i, pendingCommand s = some i ∧ RefusedRange i s r := by
  unfold pendingRefusal RefusedRange
  split
  · next h => simp [h, legality_ldm_yes, and_assoc]
  · next h => simp [h, legality_obf_yes]
  · next hldm hobf =>
    simp only [reduceCtorEq, false_iff]
    rintro ⟨i, hi, ⟨rfl, -⟩ | ⟨rfl, -⟩⟩
    · exact hldm hi
    · exact hobf hi

/-- Only the completion of a pending command with a refused range is refused. -/
theorem completeWord_refused {w : Word} {s : State} {r : Refusal} (hp : s.pend = some w)
    (h : completeWord w s = .refused r) : pendingRefusal s = some r := by
  rcases completeWord_cases w s with ⟨i, hd, e⟩ | ⟨_, -, e⟩ <;> rw [e] at h
  · exact pendingRefusal_eq_some.2 ⟨i, by simp [pendingCommand, hp, hd], exec_refused_iff_range.1 h⟩
  · cases h

theorem engineTurn_refused {s : State} {r : Refusal} (h : engineTurn s = .refused r) : pendingRefusal s = some r := by
  cases hp : s.pend with
  | none => simp [engineTurn, hp] at h
  | some w => exact completeWord_refused hp (by rwa [engineTurn_of_pend hp] at h)

theorem waitTurn_refused {s : State} {r : Refusal} (h : waitTurn s = .refused r) : pendingRefusal s = some r := by
  unfold waitTurn at h
  split at h
  · cases h
  · next w hp => exact completeWord_refused (s := { s with schedule := .hostWait :: s.schedule }) hp h

theorem applyReset_refused {s : State} {r : Refusal} (h : applyReset s = .refused r) : pendingRefusal s = some r := by
  unfold applyReset at h
  split at h
  · next r' hr => cases h; exact hr
  · cases h

/-- Everything a refused step can be: an undefined host access, or the engine's turn or a reset with a pending command
whose range is refused (R41, R74, U13, log entry 9). -/
theorem step_refused {s : State} {r : Refusal} (h : step s = .refused r) :
    (r = .hostAccess ∧ ∃ o width rest, hostAccessDefined o width = false ∧
      (s.schedule = .hostRead o width :: rest ∨ ∃ v, s.schedule = .hostWrite o width v :: rest)) ∨
    (pendingRefusal s = some r ∧ (s.schedule = [] ∨ ∃ rest, s.schedule = .engine :: rest ∨
      s.schedule = .hostWait :: rest ∨ s.schedule = .reset :: rest)) := by
  cases hs : s.schedule with
  | nil =>
    simp only [step, stepScheduled, hs] at h
    exact .inr ⟨engineTurn_refused h, .inl rfl⟩
  | cons e rest =>
    rw [step_eq_perform hs] at h
    cases e with
    | engine => exact .inr ⟨engineTurn_refused (s := { s with schedule := rest }) h, .inr ⟨rest, .inl rfl⟩⟩
    | hostWait => exact .inr ⟨waitTurn_refused (s := { s with schedule := rest }) h, .inr ⟨rest, .inr (.inl rfl)⟩⟩
    | reset => exact .inr ⟨applyReset_refused (s := { s with schedule := rest }) h, .inr ⟨rest, .inr (.inr rfl)⟩⟩
    | hostRead o width =>
      rw [perform] at h
      split at h
      · cases h
      · next hd => cases h; exact .inl ⟨rfl, o, width, rest, by simpa using hd, .inl rfl⟩
    | hostWrite o width v =>
      rw [perform] at h
      split at h
      · cases h
      · next hd => cases h; exact .inl ⟨rfl, o, width, rest, by simpa using hd, .inr ⟨v, rfl⟩⟩
    | hostLoad | hostStore | postedLands | hostBarrier | agentLoad | agentStore | peerStarts | peerEnds => cases h

/-- Settles O49: a refused step is one of `step_refused`, and a refused range has a byte that is the reason. -/
theorem refusalsAreTheSpecsOwn : Obligations.RefusalsAreTheSpecsOwn := by
  intro s r h
  rcases step_refused h with ⟨hr, o, width, rest, hbad, hsched⟩ | ⟨hpending, hsched⟩
  · exact .inl ⟨hr, o, width, rest, hostAccessDefined_eq_false.1 hbad, hsched⟩
  · refine .inr ⟨hpending, hsched, ?_⟩
    obtain ⟨i, hi, hrange⟩ := pendingRefusal_eq_some.1 hpending
    rcases hrange with ⟨rfl, hp, hlen, hr⟩ | ⟨rfl, hp, hr⟩ <;>
      obtain ⟨j, hj, hreason⟩ := exists_byte_of_rangeRefusal hr
    · exact ⟨_, hreason, .inl ⟨hi, hp, ldmTooLong_eq_false.1 hlen, j, hj, rfl⟩⟩
    · exact ⟨_, hreason, .inr ⟨hi, hp, j, hj, rfl⟩⟩

/-! ### Which commands write and which read memory (R62) -/

/-- Settles O47: memory and its visibility are the two fields of `exec_mem_of_ne_obf`. -/
theorem onlyObfWritesMemory : Obligations.OnlyObfWritesMemory := fun _ _ _ => exec_mem_of_ne_obf

/-- The rounds do not look at memory (R133). -/
theorem stepRounds_withMemory (n : Nat) (s : State) (m : Memory) :
    stepRounds n { s with mem := m } = { stepRounds n s with mem := m } := by
  induction n generalizing s with
  | zero => rfl
  | succ n ih => exact ih (stepRound s)

/-- Whether a read meets a bus error, and what it changes, does not depend on memory (R62). -/
theorem memRead_withMemory (a : Addr) (s : State) (m : Memory) :
    (memRead a s = none ∧ memRead a { s with mem := m } = none) ∨
    ∃ b b' s', memRead a s = some (b, s') ∧ memRead a { s with mem := m } = some (b', { s' with mem := m }) := by
  have hcontested : State.contested { s with mem := m } a = s.contested a := rfl
  simp only [memRead, hcontested]
  split
  · exact .inl ⟨rfl, rfl⟩
  · split <;> exact .inr ⟨_, _, _, rfl, rfl⟩

/-- Whether a write meets a bus error, and what it changes beside memory, does not depend on memory or the byte (R62). -/
theorem memWrite_withMemory (a : Addr) (b b' : Byte) (s : State) (m : Memory) :
    (memWrite a b s = none ∧ memWrite a b' { s with mem := m } = none) ∨
    ∃ s' m', memWrite a b s = some s' ∧ memWrite a b' { s with mem := m } = some { s' with mem := m' } := by
  have hcontested : State.contested { s with mem := m } a = s.contested a := rfl
  simp only [memWrite, hcontested]
  split
  · exact .inl ⟨rfl, rfl⟩
  · split <;> exact .inr ⟨_, _, rfl, rfl⟩

/-- Likewise for a byte of OBF, a read and a write of it (R183). -/
theorem obfByte_withMemory (base : Addr) (i : Nat) (s : State) (m : Memory) :
    (obfByte base i s = none ∧ obfByte base i { s with mem := m } = none) ∨
    ∃ s' m', obfByte base i s = some s' ∧ obfByte base i { s with mem := m } = some { s' with mem := m' } := by
  unfold obfByte
  rcases memRead_withMemory (engineAddr base i) s m with ⟨h, hm⟩ | ⟨b, b', s', h, hm⟩ <;> rw [h, hm]
  · exact .inl ⟨rfl, rfl⟩
  · exact memWrite_withMemory _ _ _ s' m

/-- What OBF's loop changes beside memory does not depend on memory (R183). -/
theorem obfLoop_withMemory (base : Addr) (n i : Nat) (s : State) (m : Memory) :
    ∃ m', obfLoop base n i { s with mem := m } = { obfLoop base n i s with mem := m' } := by
  induction n generalizing i s m with
  | zero => exact ⟨m, rfl⟩
  | succ n ih =>
    rw [obfLoop, obfLoop]
    rcases obfByte_withMemory base i s m with ⟨h, hm⟩ | ⟨s', m', h, hm⟩ <;> rw [h, hm]
    · exact ⟨m, rfl⟩
    · exact ih (i + 1) s' m'

/-- Execute(OBF) answers a next state exactly if its range is not refused: what the loop leaves (R183). -/
theorem obfBody_next {s u : State} :
    obfBody s = .next u ↔
      rangeRefusal s.platform s.fbase (obfCount s) = none ∧ u = obfLoop s.fbase (obfCount s) 0 s := by
  unfold obfBody
  cases rangeRefusal s.platform s.fbase (obfCount s) <;> simp [eq_comm]

/-- No Execute body but LDM's looks at memory for more than what it writes there. -/
theorem bodyOf_withMemory {i : Instr} {s u : State} (m : Memory) (hi : i ≠ .ldm) (h : bodyOf i s = .next u) :
    ∃ m', bodyOf i { s with mem := m } = .next { u with mem := m' } := by
  cases i with
  | ldm => exact absurd rfl hi
  | ldb b =>
    simp only [bodyOf, ldbBody] at h
    split at h <;> cases h
    · next hfull => exact ⟨m, if_pos hfull⟩
    · next hroom => exact ⟨m, if_neg hroom⟩
  | xorb b =>
    simp only [bodyOf, xorbBody] at h
    split at h <;> cases h
    · next hin => exact ⟨m, if_pos hin⟩
    · next hpast => exact ⟨m, if_neg hpast⟩
  | hash => cases h; exact ⟨m, by rw [bodyOf, hashBody, stepRounds_withMemory]; rfl⟩
  | obf =>
    obtain ⟨hr, rfl⟩ := obfBody_next.1 h
    obtain ⟨m', hm⟩ := obfLoop_withMemory s.fbase (obfCount s) 0 s m
    exact ⟨m', obfBody_next.2 ⟨hr, hm.symm⟩⟩
  | nop | init | pad | step | fin | rdb | orst => cases h; exact ⟨m, rfl⟩

/-- Settles O48: what completes without the body looks at PHASE and T alone, and the body is `bodyOf_withMemory`. -/
theorem onlyLdmLearnsFromMemory : Obligations.OnlyLdmLearnsFromMemory := by
  intro i s t m hi h
  rcases exec_next h with ⟨hl, rfl⟩ | ⟨hl, rfl⟩ | ⟨hl, u, hu, rfl⟩
  · exact ⟨m, exec_ignored hl⟩
  · exact ⟨m, exec_seq hl⟩
  · obtain ⟨m', hm⟩ := bodyOf_withMemory m hi hu
    exact ⟨m', by rw [exec_yes (by exact hl), hm]; rfl⟩

/-! ### The host's access to a byte (R71, R72) -/

/-- Which of the host's accesses are open, in the words of R72, R78 and R71(b): no peer's command is the host's own. -/
theorem accessOpen_plain_iff (s : State) (a : Addr) :
    accessOpen s .plain a = true ↔
      ((pendingCommand s = some .ldm ∧ inRange s.src s.idlen.toNat a = true) ∨
        (pendingCommand s = some .obf ∧ inRange s.fbase (min 1040 s.flen.toNat) a = true)) ∨
      (∃ p ∈ s.peers, inRange p.range.base p.range.size a = true) ∨ a ∈ s.unseen := by
  rw [accessOpen_iff]
  simp only [ne_eq, reduceCtorEq, not_false_eq_true, true_and]

/-- A read whose outcome is open gives the host the next free byte, whatever it has posted (R72, R71(b)). -/
theorem hostLoad_of_open {s : State} {a : Addr} (h : accessOpen s .plain a = true) :
    hostLoad a s = { s with readData := s.nextDrawByte.setWidth 32, draws := s.draws + 1 } := by
  unfold hostLoad
  split
  · exact otherLoad_of_open h
  · rw [if_pos h]; exact otherLoad_of_open h

/-- Any other read gives the host its newest posted byte (log entry 6). -/
theorem hostLoad_of_posted {s : State} {a : Addr} {v : Byte} (h : ¬ accessOpen s .plain a = true)
    (hv : postedByte s a = some v) : hostLoad a s = { s with readData := v.setWidth 32 } := by
  rw [hostLoad, hv]
  exact if_neg h

/-- With nothing posted to the address it gives the byte in memory. -/
theorem hostLoad_of_unposted {s : State} {a : Addr} (h : ¬ accessOpen s .plain a = true)
    (hv : ∀ c ∈ s.posted, c.1 ≠ a) : hostLoad a s = { s with readData := (s.byteAt a).setWidth 32 } := by
  rw [hostLoad, postedByte_eq_none.2 hv]
  exact otherLoad_of_closed h

/-! ### Everything posted lands (R71(a)) -/

section Barrier

variable {s : State} {x : Addr}

/-- The barrier changes no byte to which nothing is posted. -/
theorem landAll_byteAt_unposted (hm : s.mem.wf = true) (h : ∀ c ∈ s.posted, c.1 ≠ x) :
    (landAll s).byteAt x = s.byteAt x :=
  landList_byteAt_unposted (s := { s with posted := [] }) hm h

/-- It leaves the newest posted byte, or a free value drawn meanwhile where the outcome is open (R72, R78, R71(b)). -/
theorem landAll_byteAt_posted {v : Byte} (hm : s.mem.wf = true) (h : postedByte s x = some v) :
    (¬ accessOpen s .plain x = true → (landAll s).byteAt x = v) ∧
    (accessOpen s .plain x = true → ∃ d, s.draws ≤ d ∧ d < (landAll s).draws ∧
      (landAll s).byteAt x = (Config.freeWord d).setWidth 8) := by
  obtain ⟨older, newer, hl, hnewer⟩ := postedByte_eq_some.1 h
  rw [landAll, hl, Bool.not_eq_true]
  exact landList_byteAt_newest (s := { s with posted := [] }) hm hnewer

/-- After it the engine races, in addition, for the posted addresses in the pending command's range (R72). -/
theorem landAll_contested (s : State) (x : Addr) :
    (landAll s).contested x = true ↔ (races s x = true ∧ ∃ c ∈ s.posted, c.1 = x) ∨ s.contested x = true :=
  landList_contested s.posted { s with posted := [] } x

theorem landAll_raced (h : ∀ c ∈ s.posted, ¬ races s c.1 = true) : (landAll s).raced = s.raced :=
  landList_raced (s := { s with posted := [] }) fun c hc => Bool.eq_false_of_not_eq_true (h c hc)

theorem landAll_draws (h : ∀ c ∈ s.posted, ¬ accessOpen s .plain c.1 = true) : (landAll s).draws = s.draws :=
  landList_draws (s := { s with posted := [] }) fun c hc => Bool.eq_false_of_not_eq_true (h c hc)

end Barrier

/-! ### Ordered and unordered platforms (R71(a), D14) -/

theorem orderBeforeMmio_unordered {s : State} (h : s.platform.hostOrdersMmio = false) : orderBeforeMmio s = s := by
  simp [orderBeforeMmio, h]

theorem orderBeforeMmio_ordered {s : State} (h : s.platform.hostOrdersMmio = true) :
    orderBeforeMmio s = landAll s := by
  rw [orderBeforeMmio, if_pos h]

/-- A CMD write with BUSY = 0 on an ordered platform: everything posted lands, then the word is accepted (R71(a),
R151). -/
theorem step_cmdWrite_ordered {s : State} {w : Word} {rest : List Event}
    (h : s.schedule = .hostWrite 0x00 .w32 w :: rest) (hb : s.busy = false)
    (ho : s.platform.hostOrdersMmio = true) :
    step s = .next (accept w (landAll { s with schedule := rest })) := by
  have hbusy : (orderBeforeMmio { s with schedule := rest }).busy = false := (orderBeforeMmio_busy _).trans hb
  rw [step_hostWrite h rfl, ← orderBeforeMmio_ordered (by exact ho)]
  exact congrArg _ (writeWindow_idle (r := .cmd) hbusy)

/-- Settles O59: an ordered platform's `orderBeforeMmio` is the barrier, and with BUSY = 0 only a peer's command or a byte
not visible yet leaves an access open. -/
theorem orderedPlatformLandsWritesBeforeCmd : Obligations.OrderedPlatformLandsWritesBeforeCmd := by
  intro s hm ours theirs
  have hraces : ∀ x, races s x = true ↔ ours x := races_iff s
  have hopen : ∀ x, accessOpen s .plain x = true ↔ ours x ∨ theirs x := accessOpen_plain_iff s
  have hidle : s.busy = false → ∀ x, ¬ races s x = true := fun hb x => by
    simp [races_of_pend_none (pend_none_of_busy_false hb)]
  refine ⟨orderBeforeMmio_unordered, fun ho => ?_, fun w rest h hb ho => ?_⟩
  · rw [orderBeforeMmio_ordered ho]
    refine ⟨landAll_frame s, fun a ha => landAll_byteAt_unposted hm ha, fun x => ?_,
      fun h => landAll_raced fun c hc => (hraces _).not.2 (h c hc),
      fun h => landAll_draws fun c hc => (hopen _).not.2 (not_or.2 (h c hc)),
      fun hb => landAll_raced fun c _ => hidle hb c.1⟩
    rw [landAll_contested, hraces]
  · let s' : State := { s with schedule := rest }
    have hopen' : ∀ a, accessOpen s .plain a = true ↔ theirs a := fun a =>
      (hopen a).trans (or_iff_right (mt (hraces a).2 (hidle hb a)))
    refine ⟨accept w (landAll s'), step_cmdWrite_ordered h hb ho, rfl, by rw [accept_posted, landAll_frame],
      fun a => ⟨fun hpeers hseen => ?_, fun ht hposted => ?_⟩⟩
    · cases hv : postedByte s a with
      | none => exact landAll_byteAt_unposted (s := s') hm (postedByte_eq_none.1 hv)
      | some v =>
        refine (landAll_byteAt_posted (s := s') hm hv).1 ((hopen' a).not.2 ?_)
        rintro (⟨p, hp, hin⟩ | hu)
        · exact Bool.noConfusion (hin.symm.trans (hpeers p hp))
        · exact hseen hu
    · obtain ⟨c, hc, hca⟩ := hposted
      obtain ⟨v, hv⟩ : ∃ v, postedByte s a = some v :=
        Option.ne_none_iff_exists'.1 fun hnone => postedByte_eq_none.1 hnone c hc hca
      exact (landAll_byteAt_posted (s := s') hm hv).2 ((hopen' a).2 ht)

/-! ### O60, one clause each -/

section HostAccesses

variable {s : State} {a : Addr} {v : Byte} {rest : List Event}

/-- A host read right after a read of STATUS with BUSY = 0 gives the byte in memory, where nothing is posted and no peer's
command touches it (R71(b)). -/
theorem hostLoad_after_status (h : s.schedule = .hostRead 0x04 .w32 :: .hostLoad a :: rest) (hb : s.busy = false)
    (hp : ¬ s.peerTouches .plain a = true) (hv : ∀ c ∈ s.posted, c.1 ≠ a) :
    stepsTo 2 s { s with schedule := rest, unseen := [], readData := (s.byteAt a).setWidth 32 } := by
  let t : State := { s with schedule := rest, readData := statusWord s, unseen := [] }
  have hstatus : step s = .next { t with schedule := .hostLoad a :: rest } := by
    rw [step_hostRead h rfl, readWindow_status_idle (by exact hb)]; rfl
  have hclosed : ¬ accessOpen t .plain a = true := by
    rw [accessOpen_of_idle_visible (by exact pend_none_of_busy_false hb) rfl]
    exact hp
  exact ⟨_, hstatus, _, congrArg _ (hostLoad_of_unposted hclosed hv), rfl⟩

/-- The oldest posted write to an address lands as if the host's store came only now (log entry 20). -/
theorem step_postedLands_oldest {older newer : List (Addr × Byte)} (h : s.schedule = .postedLands a :: rest)
    (hl : s.posted = older ++ (a, v) :: newer) (holder : ∀ c ∈ older, c.1 ≠ a) :
    step s = step { s with schedule := .agentStore .plain a v :: rest, posted := older ++ newer } := by
  rw [step_eq_perform h, perform, landOne_oldest (by exact hl) holder]
  rfl

end HostAccesses

/-- Settles O60: the host's reads by `hostLoad`, a landing as a plain agent's store, the barrier as `landAll`. -/
theorem hostMemoryAccessesAreSeenWhenTheyLand : Obligations.HostMemoryAccessesAreSeenWhenTheyLand := by
  intro s a b rest hm ours theirs isOpen newest
  have hraces : ∀ x, races s x = true ↔ ours x := races_iff s
  have hopen : ∀ x, accessOpen s .plain x = true ↔ isOpen x := accessOpen_plain_iff s
  have hnewest : ∀ {x v}, newest x v → postedByte s x = some v := postedByte_eq_some.2
  have hpeers : s.peerTouches .plain a = true → theirs a := by
    simp [State.peerTouches, Region.contains, theirs]
  let s' : State := { s with schedule := rest }
  refine ⟨fun h => ?_, fun h => ?_, fun h hb hp hv => hostLoad_after_status h hb (mt hpeers hp) hv,
    fun h => ⟨fun hv => ?_, fun older v newer hl holder => ?_⟩, fun h => ?_⟩
  · rw [step_eq_perform h]; rfl
  · rw [step_eq_perform h, perform]
    refine ⟨fun ho => ?_, fun ho v hv => ?_, fun ho hv => ?_⟩
    · rw [hostLoad_of_open (s := s') ((hopen a).2 ho)]; rfl
    · rw [hostLoad_of_posted (s := s') ((hopen a).not.2 ho) (hnewest hv)]
    · rw [hostLoad_of_unposted (s := s') ((hopen a).not.2 ho) hv]; rfl
  · rw [step_eq_perform h, perform, landOne_of_unposted (by exact hv)]
  · rw [step_postedLands_oldest h hl holder]
    obtain ⟨t, hstep, helse, hfree, htrue, hcontested, hraced, hframe⟩ := agentStore_outcome
      (s := { s with schedule := .agentStore .plain a v :: rest, posted := older ++ newer }) hm rfl rfl
    exact ⟨t, hstep, helse, fun ho => hfree ((hopen a).2 ho), fun ho => htrue ((hopen a).not.2 ho),
      fun ho => hcontested ((hraces a).2 ho), fun ho => hraced ((hraces a).not.2 ho), hframe⟩
  · refine ⟨landAll s', step_eq_perform h, fun x hx => landAll_byteAt_unposted (s := s') hm hx,
      fun x v ho hv => (landAll_byteAt_posted (s := s') hm (hnewest hv)).1 ((hopen x).not.2 ho),
      fun x v ho hv => (landAll_byteAt_posted (s := s') hm (hnewest hv)).2 ((hopen x).2 ho),
      fun x => ?_, fun hn => landAll_raced (s := s') fun c hc => (hraces _).not.2 (hn c hc),
      fun hn => landAll_draws (s := s') fun c hc => (hopen _).not.2 (hn c hc), landAll_frame s'⟩
    rw [← hraces]
    exact landAll_contested s' x

end Sys2Proof.Machine

/-! ## Encoding: the decoder, the encoder and the assembler (30_encoding.md)

The decoder takes exactly the words that the encoder makes, each for its command (O1, O2). ILLEGAL words (O3), the words
of the tables and the assembler's errors (O4), and the pseudo-instructions LDS, SHA1 and DIGEST (O38). -/

namespace Sys2Proof

/-! ### The low 24 bits of a word as the fields of formats B and H (R93-R95) -/

/-- Two fields side by side determine both. -/
theorem eq_append_iff {n k : Nat} {x : BitVec (n + k)} {hi : BitVec n} {lo : BitVec k} :
    x = hi ++ lo ↔ x.extractLsb' k n = hi ∧ x.extractLsb' 0 k = lo := by
  constructor
  · rintro rfl
    exact ⟨BitVec.extractLsb'_append_eq_left, BitVec.extractLsb'_append_eq_right⟩
  · rintro ⟨rfl, rfl⟩
    rw [BitVec.extractLsb'_append_extractLsb'_eq_extractLsb' (Nat.zero_add k).symm, BitVec.extractLsb'_eq_self]

/-- The low 24 bits as format B's reserved field and its operand (R93). -/
theorem reservedN_eq_append8 {w : Word} {hi : BitVec 16} {lo : BitVec 8} :
    reservedN w = hi ++ lo ↔ reservedB w = hi ∧ imm8Field w = lo := by
  have hB : reservedB w = (reservedN w).extractLsb' 8 16 := by
    ext; simp [reservedB, reservedN, BitVec.extractLsb]
  have hI : imm8Field w = (reservedN w).extractLsb' 0 8 := by
    ext; simp [imm8Field, reservedN, BitVec.extractLsb]
  rw [hB, hI]
  exact eq_append_iff (n := 16) (k := 8)

/-- The low 24 bits as format H's reserved field and its operand (R94). -/
theorem reservedN_eq_append16 {w : Word} {hi : BitVec 8} {lo : BitVec 16} :
    reservedN w = hi ++ lo ↔ reservedH w = hi ∧ imm16Field w = lo := by
  have hH : reservedH w = (reservedN w).extractLsb' 16 8 := by
    ext; simp [reservedH, reservedN, BitVec.extractLsb]
  have hI : imm16Field w = (reservedN w).extractLsb' 0 16 := by
    ext; simp [imm16Field, reservedN, BitVec.extractLsb]
  rw [hH, hI]
  exact eq_append_iff (n := 8) (k := 16)

/-! ### Which words decode to a command (R97, R98) -/

theorem decodeN_eq_ok {w : Word} {c i : Instr} : decodeN w c = .ok i ↔ reservedN w = 0 ∧ c = i := by
  by_cases h : reservedN w = 0#24 <;> simp [decodeN, h]

theorem decodeB_eq_ok {w : Word} {c : BitVec 8 → Instr} {i : Instr} :
    decodeB w c = .ok i ↔ ∃ imm8, reservedN w = 0#16 ++ imm8 ∧ c imm8 = i := by
  by_cases h : reservedB w = 0#16 <;> simp [decodeB, reservedN_eq_append8, h]

theorem decodeH_eq_ok {w : Word} {c : BitVec 16 → Instr} {i : Instr} :
    decodeH w c = .ok i ↔ ∃ imm16, reservedN w = 0#8 ++ imm16 ∧ c imm16 = i := by
  by_cases h : reservedH w = 0#8 <;> simp [decodeH, reservedN_eq_append16, h]

/-- A word decodes to a command exactly if it has the command's opcode and its low 24 bits (R97, R98). -/
theorem decode_eq_ok {w : Word} {i : Instr} :
    decode w = .ok i ↔ opcodeField w = opcodeOf i ∧ reservedN w = operandBits i := by
  constructor
  · intro h
    unfold decode at h
    split at h
    case h_3 op | h_11 op =>
      obtain ⟨imm8, hlow, rfl⟩ := decodeB_eq_ok.1 h
      exact ⟨BitVec.eq_of_toNat_eq op, hlow⟩
    case h_9 op =>
      obtain ⟨imm16, hlow, rfl⟩ := decodeH_eq_ok.1 h
      exact ⟨BitVec.eq_of_toNat_eq op, hlow⟩
    case h_13 => cases h
    all_goals
      next op =>
      obtain ⟨hlow, rfl⟩ := decodeN_eq_ok.1 h
      exact ⟨BitVec.eq_of_toNat_eq op, hlow⟩
  · rintro ⟨hop, hlow⟩
    unfold decode
    rw [hop]
    cases i with
    | ldb imm8 => exact decodeB_eq_ok.2 ⟨imm8, hlow, rfl⟩
    | xorb imm8 => exact decodeB_eq_ok.2 ⟨imm8, hlow, rfl⟩
    | rdb imm16 => exact decodeH_eq_ok.2 ⟨imm16, hlow, rfl⟩
    | nop | init | ldm | pad | step | fin | hash | orst | obf => exact decodeN_eq_ok.2 ⟨hlow, rfl⟩

/-- Settles O1: a command's word has the command's opcode and low 24 bits, which is what `decode_eq_ok` asks for. -/
theorem decodeOfEncodeIsTheCommand : Obligations.DecodeOfEncodeIsTheCommand := fun i _ =>
  decode_eq_ok.2 (Laws.EncodeOpcode.every i)

/-- Settles O2: by `decode_eq_ok` the two words have the same opcode and the same low 24 bits. -/
theorem encodeOfDecodeIsTheWord : Obligations.EncodeOfDecodeIsTheWord := by
  intro w i h
  obtain ⟨hop, hlow⟩ := decode_eq_ok.1 h
  exact BitVec.eq_of_toNat_eq (by rw [encode_toNat, word_toNat w, hop, hlow])

/-! ### ILLEGAL words (R99, R100) -/

/-- The opcodes of the map are below 0x0C (R99). -/
theorem opcodeOf_lt (i : Instr) : (opcodeOf i).toNat < 0x0C := by
  cases i <;> simp [opcodeOf]

/-- A command with an opcode of format N has its low 24 bits 0 (R92). -/
theorem operandBits_of_formatN {i : Instr}
    (h : opcodeOf i ∈ ([0x00, 0x01, 0x03, 0x04, 0x05, 0x06, 0x07, 0x09, 0x0B] : List (BitVec 8))) :
    operandBits i = 0 := by
  cases i with
  | ldb imm8 | xorb imm8 | rdb imm16 => simp [opcodeOf] at h
  | nop | init | ldm | pad | step | fin | hash | orst | obf => rfl

/-- A command with an opcode of format B has an 8-bit operand under 16 zero bits (R93). -/
theorem operandBits_of_formatB {i : Instr} (h : opcodeOf i ∈ ([0x02, 0x0A] : List (BitVec 8))) :
    ∃ imm8 : BitVec 8, operandBits i = 0#16 ++ imm8 := by
  cases i with
  | ldb imm8 | xorb imm8 => exact ⟨imm8, rfl⟩
  | rdb imm16 => simp [opcodeOf] at h
  | nop | init | ldm | pad | step | fin | hash | orst | obf => simp [opcodeOf] at h

/-- A command with the opcode of format H has a 16-bit operand under 8 zero bits (R94). -/
theorem operandBits_of_formatH {i : Instr} (h : opcodeOf i = 0x08) :
    ∃ imm16 : BitVec 16, operandBits i = 0#8 ++ imm16 := by
  cases i with
  | rdb imm16 => exact ⟨imm16, rfl⟩
  | ldb imm8 | xorb imm8 => simp [opcodeOf] at h
  | nop | init | ldm | pad | step | fin | hash | orst | obf => simp [opcodeOf] at h

end Sys2Proof

namespace Sys2Proof.Machine

/-- Outside FAULT a word that is no command raises ILLEGAL and does nothing else (R201). -/
theorem completeWord_illegal {w : Word} {s : State} (hw : ∀ i, decode w ≠ .ok i) (hp : s.phase ≠ .fault) :
    completeWord w s = onlyRaises .illegal s := by
  rcases completeWord_cases w s with ⟨i, hi, -⟩ | ⟨-, -, h⟩
  · exact absurd hi (hw i)
  · rcases completeIllegal_eq s with ⟨hf, -⟩ | ⟨-, e⟩
    · exact absurd hf hp
    · rw [h, e]; rfl

/-- Settles O3: no command has the opcode, or has the reserved field of its format nonzero. -/
theorem reservedWordsRaiseIllegal : Obligations.ReservedWordsRaiseIllegal := by
  intro w s hres
  have hw : ∀ i, decode w ≠ .ok i := fun i hi => by
    obtain ⟨hop, hlow⟩ := decode_eq_ok.1 hi
    rw [hop] at hres
    rcases hres with hbig | ⟨hN, hne⟩ | ⟨hB, hne⟩ | ⟨hH, hne⟩
    · exact absurd (opcodeOf_lt i) (Nat.not_lt.2 hbig)
    · exact hne (hlow.trans (operandBits_of_formatN hN))
    · obtain ⟨imm8, hbits⟩ := operandBits_of_formatB hB
      exact hne (reservedN_eq_append8.1 (hlow.trans hbits)).1
    · obtain ⟨imm16, hbits⟩ := operandBits_of_formatH hH
      exact hne (reservedN_eq_append16.1 (hlow.trans hbits)).1
  exact ⟨hw, completeWord_illegal hw⟩

/-! ### The tables' words and the assembler's errors (R97, R103, R104) -/

theorem operandLiteral_eq_some {w n : Nat} (h : n < 2 ^ w) : operandLiteral w n = some (BitVec.ofNat w n) := by
  rcases operandLiteral_cases w n with ⟨-, e⟩ | ⟨hle, -⟩
  · exact e
  · exact absurd h (Nat.not_lt.2 hle)

/-- Settles O4: the words by evaluation, the literals by their range, the errors by `expand_eq_none` and
`programEvents_eq_none`. -/
theorem wordsOfTheTablesDecode : Obligations.WordsOfTheTablesDecode := by
  refine ⟨rfl, rfl, rfl, rfl, rfl, rfl, rfl, rfl, rfl, rfl, rfl, rfl, rfl, rfl, rfl, fun n => ⟨fun h => ?_, fun h => ?_,
    fun h => ?_, fun h => ?_⟩, fun _ => expand_eq_none, fun s program src hmem hsrc => ?_⟩
  · have hlit := operandLiteral_eq_some (w := 8) (n := n) (by omega)
    simp [expand, commandOf, hlit]
  · exact ⟨expand_eq_none.2 (by simpa [Source.wellFormed] using h),
      expand_eq_none.2 (by simpa [Source.wellFormed] using h)⟩
  · have hlit := operandLiteral_eq_some (w := 16) (n := n) (by omega)
    simp [expand, commandOf, hlit]
  · exact expand_eq_none.2 (by simpa [Source.wellFormed] using h)
  · rw [State.withProgram, programEvents_eq_none.2 ⟨src, hmem, hsrc⟩, Option.map_none]

/-! ### LDB, PAD and HASH in their phases (R155, R157, R160) -/

/-- Below 55 bytes one more byte makes LEN one larger. -/
theorem loadByte_len_toNat {s : State} (b : Byte) (h : s.len.toNat < 55) :
    (s.loadByte b).len.toNat = s.len.toNat + 1 := by
  rw [State.loadByte_len, BitVec.toNat_add_of_lt (by simp; omega)]
  rfl

/-- A sequence goes on where its first part has ended. -/
theorem execAll_cons_of_next {i : Instr} {is : List Instr} {s u : State} (h : exec i s = .next u) :
    execAll (i :: is) s = execAll is u := by
  rw [execAll, h]

theorem execAll_append_of_next {is js : List Instr} {s u : State} (h : execAll is s = .next u) :
    execAll (is ++ js) s = execAll js u := by
  rw [execAll_append, h]

/-- LDB in LOAD appends its byte while LEN is below 55 and raises LENGTH from then on (R155). -/
theorem exec_ldb_room {s : State} (b : Byte) (hp : s.phase = .load) (h : s.len.toNat < 55) :
    exec (.ldb b) s = .next (s.loadByte b).finish := by
  have hl : legality (.ldb b) s.phase s.t = .yes := by simp [legality, legalIn_yes, hp]
  rw [exec_yes hl, bodyOf, ldbBody, if_neg (Nat.not_le.2 h)]
  rfl

theorem exec_ldb_full {s : State} (b : Byte) (hp : s.phase = .load) (h : 55 ≤ s.len.toNat) :
    exec (.ldb b) s = .next (s.raise .length).finish := by
  have hl : legality (.ldb b) s.phase s.t = .yes := by simp [legality, legalIn_yes, hp]
  rw [exec_yes hl, bodyOf, ldbBody, if_pos h]
  rfl

theorem exec_pad_load {s : State} (hp : s.phase = .load) : exec .pad s = .next (padBlock s).finish := by
  have hl : legality .pad s.phase s.t = .yes := by simp [legality, legalIn_yes, hp]
  rw [exec_yes hl]
  rfl

theorem exec_hash_compress {s : State} (hp : s.phase = .compress) :
    exec .hash s = .next (stepRounds (80 - s.t.toNat) s).finalAddition.finish := by
  have hl : legality .hash s.phase s.t = .yes := by simp [legality, legalIn_yes, hp]
  rw [exec_yes hl]
  rfl

/-! ### Sequences of commands (R105, R106, R161) -/

/-- In FAULT a sequence without NOP and INIT changes nothing but BUSY and PEND (R207). -/
theorem execAll_of_fault {is : List Instr} {s : State} (hp : s.phase = .fault) (h : ∀ i ∈ is, i ≠ .nop ∧ i ≠ .init) :
    ∃ t, execAll is s = .next t ∧ t = { s with pend := t.pend, raced := t.raced } := by
  induction is generalizing s with
  | nil => exact ⟨s, rfl, rfl⟩
  | cons i is ih =>
    obtain ⟨hi, his⟩ := List.forall_mem_cons.1 h
    obtain ⟨t, ht, hframe⟩ := ih (s := s.finish) hp his
    exact ⟨t, (execAll_cons_of_next (exec_ignored (legality_ignored.2 ⟨hp, hi⟩))).trans ht, hframe⟩

/-- LDBs that fit append their bytes to the message held, and change nothing but W and LEN (R155). -/
theorem execAll_ldb_room {bs : List Byte} {s : State} (hp : s.phase = .load) (h : s.len.toNat + bs.length ≤ 55) :
    ∃ t, execAll (bs.map .ldb) s = .next t ∧ t.len.toNat = s.len.toNat + bs.length ∧
      (∀ m, holdsMessage m s → holdsMessage (m ++ bs) t) ∧
      t = { s with w := t.w, len := t.len, pend := t.pend, raced := t.raced } := by
  induction bs generalizing s with
  | nil => exact ⟨s, rfl, rfl, fun m hm => by rwa [List.append_nil], rfl⟩
  | cons b bs ih =>
    rw [List.length_cons] at h ⊢
    have hlen := loadByte_len_toNat (s := s) b (by omega)
    obtain ⟨t, ht, htlen, hholds, hframe⟩ := ih (s := (s.loadByte b).finish) hp (by rw [State.finish_len]; omega)
    rw [State.finish_len] at htlen
    refine ⟨t, (execAll_cons_of_next (exec_ldb_room b hp (by omega))).trans ht, by omega, fun m hm => ?_, hframe⟩
    have hmlen : s.len.toNat = m.length := hm.1
    rw [List.append_cons]
    exact hholds _ (holdsMessage_loadByte hm (by omega))

/-- LDBs that do not fit stop at 55 bytes with LENGTH (R105, R155). -/
theorem execAll_ldb_full {bs : List Byte} {s : State} (hp : s.phase = .load) (hlen : s.len.toNat ≤ 55)
    (h : 55 < s.len.toNat + bs.length) :
    ∃ t, execAll (bs.map .ldb) s = .next t ∧
      t = { s with w := t.w, len := 55, err := .length, phase := .fault, pend := t.pend, raced := t.raced } := by
  induction bs generalizing s with
  | nil => simp at h; omega
  | cons b bs ih =>
    rw [List.length_cons] at h
    rcases Nat.lt_or_eq_of_le hlen with hlt | heq
    · have hnext := loadByte_len_toNat b hlt
      obtain ⟨t, ht, hframe⟩ := ih (s := (s.loadByte b).finish) hp (by rw [State.finish_len]; omega)
        (by rw [State.finish_len]; omega)
      exact ⟨t, (execAll_cons_of_next (exec_ldb_room b hp hlt)).trans ht, hframe⟩
    · obtain ⟨t, ht, hframe⟩ := execAll_of_fault (is := bs.map .ldb) (s := (s.raise .length).finish) rfl (by simp)
      have h55 : s.len = 55 := BitVec.eq_of_toNat_eq heq
      refine ⟨t, (execAll_cons_of_next (exec_ldb_full b hp heq.ge)).trans ht, ?_⟩
      rw [← h55, hframe]
      rfl

/-- INIT leaves the empty message. -/
theorem holdsMessage_freshHash (s : State) : holdsMessage [] (freshHash s) :=
  ⟨rfl, fun j => getByte_replicate_zero j⟩

/-- From T rounds into the compression of a message, the remaining rounds and the final addition give its digest
(R135, R160). -/
theorem digest_of_remaining_rounds {s : State} {m : List Byte} (ht : s.t.toNat ≤ 80)
    (hmixer : s.mixer = roundsFrom 0 s.t.toNat (compressionStart m)) :
    (stepRounds (80 - s.t.toNat) s).finalAddition.h = sha1 m := by
  have hall : s.t.toNat + (80 - s.t.toNat) = 80 := Nat.add_sub_cancel' ht
  obtain ⟨hrounds, -⟩ := stepRounds_mixer (80 - s.t.toNat) s (by omega)
  have hrun := roundsFrom_add 0 s.t.toNat (80 - s.t.toNat) (compressionStart m)
  rw [Nat.zero_add, hall] at hrun
  rw [State.finalAddition_h, sha1, ← State.mixer_v, hrounds, hmixer, hrun]

/-- PAD and HASH turn a message held since INIT into its digest (R106, R135). -/
theorem execAll_pad_hash {s : State} {m : List Byte} (hp : s.phase = .load) (ht : s.t = 0) (hv : s.v = ivWorking)
    (hm : holdsMessage m s) :
    ∃ t, execAll [.pad, .hash] s = .next t ∧ t.phase = .done ∧ t.h = sha1 m := by
  have hstart : (padBlock s).finish.mixer = compressionStart m := by
    rw [compressionStart, ← padBlock_w_of_holdsMessage hm, ← hv]
    rfl
  have ht0 : (padBlock s).finish.t.toNat = 0 := congrArg BitVec.toNat ht
  refine ⟨_, (execAll_cons_of_next (exec_pad_load hp)).trans (execAll_cons_of_next (exec_hash_compress rfl)), rfl, ?_⟩
  exact digest_of_remaining_rounds (by rw [ht0]; exact Nat.zero_le _) (by rw [ht0, hstart]; rfl)

/-- From every state INIT, the bytes, PAD and HASH leave the digest of the bytes, or LENGTH beyond 55 bytes (R106). -/
theorem execAll_digest (s : State) (bs : List Byte) :
    ∃ t, execAll ([.init] ++ bs.map .ldb ++ [.pad, .hash]) s = .next t ∧
      (bs.length ≤ 55 → t.phase = .done ∧ t.h = sha1 bs) ∧
      (55 < bs.length → t.phase = .fault ∧ t.err = .length) := by
  have hinit : execAll [.init] s = .next (freshHash s).finish := rfl
  have hlen : (freshHash s).finish.len.toNat + bs.length = bs.length := Nat.zero_add _
  rw [List.append_assoc, execAll_append_of_next hinit]
  rcases Nat.lt_or_ge 55 bs.length with hfull | hroom
  · obtain ⟨u, hu, hload⟩ := execAll_ldb_full (s := (freshHash s).finish) rfl (Nat.zero_le _) (hlen.symm ▸ hfull)
    obtain ⟨t, ht, hrest⟩ := execAll_of_fault (is := [.pad, .hash]) (s := u) (by rw [hload]) (by simp)
    refine ⟨t, (execAll_append_of_next hu).trans ht, fun h => absurd h (Nat.not_le.2 hfull), fun _ => ?_⟩
    rw [hrest, hload]
    exact ⟨rfl, rfl⟩
  · obtain ⟨u, hu, -, hholds, hload⟩ := execAll_ldb_room (s := (freshHash s).finish) rfl (hlen.symm ▸ hroom)
    obtain ⟨t, ht, hdigest⟩ := execAll_pad_hash (s := u) (by rw [hload]; rfl) (by rw [hload]; rfl)
      (by rw [hload]; rfl) (hholds [] (holdsMessage_freshHash s))
    exact ⟨t, (execAll_append_of_next hu).trans ht, fun _ => hdigest, fun h => absurd h (Nat.not_lt.2 hroom)⟩

/-- Settles O38: LDS by whether its bytes fit, DIGEST by `execAll_digest`. -/
theorem digestPseudoInstructionHashesItsText : Obligations.DigestPseudoInstructionHashesItsText := by
  intro s text lds digest
  refine ⟨rfl, rfl, rfl, fun hp hlen => ?_, execAll_digest s (utf8Bytes text)⟩
  rcases Nat.lt_or_ge 55 (s.len.toNat + (utf8Bytes text).length) with hfull | hroom
  · obtain ⟨t, ht, hframe⟩ := execAll_ldb_full hp hlen hfull
    refine ⟨t, ht, fun h => absurd h (Nat.not_le.2 hfull), fun _ => ?_⟩
    rw [hframe]
    exact ⟨rfl, rfl, rfl⟩
  · obtain ⟨t, ht, htlen, -, hframe⟩ := execAll_ldb_room hp hroom
    exact ⟨t, ht, fun _ => ⟨by rw [hframe]; exact hp, htlen⟩, fun h => absurd h (Nat.not_lt.2 hroom)⟩

end Sys2Proof.Machine

/-! ## The SHA-1 datapath (40_sha1_datapath.md)

What the words and the rounds compute (O32, O33, O35), the padded block (O17), the circular schedule against the
straight one (O34), and the obfuscator's byte stream (O26). -/

namespace Sys2Proof.Machine

/-! ### Words, bit by bit (R120, R126-R129) -/

/-- The formula of R120 is rotation to the left. -/
theorem rotl_eq_rotateLeft {k : Nat} (x : Word) (hk : k < 32) : rotl k x = x.rotateLeft k := by
  rw [BitVec.rotateLeft_def, Nat.mod_eq_of_lt hk, rotl]

/-- Settles O32: bit i + k either stays below 32 or wraps round once. -/
theorem rotlMovesEveryBit : Obligations.RotlMovesEveryBit := by
  intro k x i hk hi
  rw [rotl_eq_rotateLeft x hk, BitVec.getLsbD_rotateLeft, Nat.mod_eq_of_lt hk]
  rcases Nat.lt_or_ge (i + k) 32 with hstay | hwrap
  · have hnot : ¬ i + k < k := by omega
    simp [Nat.mod_eq_of_lt hstay, hnot, hstay]
  · have hmod : (i + k) % 32 = i + k - 32 := by omega
    have hbelow : i + k - 32 < k := by omega
    have hindex : 32 - k + (i + k - 32) = i := by omega
    rw [hmod, decide_eq_true hbelow, cond_true, hindex]

/-- Bit by bit, Ch is a choice by its first word (R127). -/
theorem getLsbD_ch (b c d : Word) {i : Nat} (hi : i < 32) :
    (ch b c d).getLsbD i = if b.getLsbD i then c.getLsbD i else d.getLsbD i := by
  simp only [ch, BitVec.getLsbD_or, BitVec.getLsbD_and, BitVec.getLsbD_not, hi]
  cases b.getLsbD i <;> simp

/-- Bit by bit, Parity is the exclusive or (R128). -/
theorem getLsbD_parity (b c d : Word) (i : Nat) :
    (parity b c d).getLsbD i = (b.getLsbD i ^^ (c.getLsbD i ^^ d.getLsbD i)) := by
  rw [parity, BitVec.getLsbD_xor, BitVec.getLsbD_xor, Bool.xor_assoc]

/-- Bit by bit, Maj is the majority (R129). -/
theorem getLsbD_maj (b c d : Word) (i : Nat) :
    (maj b c d).getLsbD i = decide (2 ≤ (b.getLsbD i).toNat + (c.getLsbD i).toNat + (d.getLsbD i).toNat) := by
  simp only [maj, BitVec.getLsbD_or, BitVec.getLsbD_and]
  generalize b.getLsbD i = x, c.getLsbD i = y, d.getLsbD i = z
  revert x y z
  decide

/-- Settles O33: the bits by the three lemmas above, the ranges by the bounds of `roundFunction`. -/
theorem roundFunctionsBitByBit : Obligations.RoundFunctionsBitByBit := by
  refine ⟨fun b c d i hi => ⟨getLsbD_ch b c d hi, getLsbD_parity b c d i, getLsbD_maj b c d i⟩,
    fun t b c d => ⟨fun h => ?_, fun h h' => ?_, fun h h' => ?_, fun h _ => ?_⟩, rfl, fun t ht => ?_⟩
  · rw [roundFunction, if_pos (by omega)]
  · rw [roundFunction, if_neg (by omega), if_pos (by omega)]
  · rw [roundFunction, if_neg (by omega), if_neg (by omega), if_pos (by omega)]
  · rw [roundFunction, if_neg (by omega), if_neg (by omega), if_neg (by omega)]
  · have hindex : t / 20 % 4 = t / 20 := by omega
    simp only [roundConstant, hindex]

/-- Settles O35: the 80 rounds of each padded block, evaluated. -/
theorem publishedDigests : Obligations.PublishedDigests := by
  refine ⟨?_, ?_, ?_⟩ <;> decide +kernel

/-! ### The padded block (R125, R157) -/

/-- Settles O17: PAD's new words are the padded block of the message held. -/
theorem padMakesThePaddedBlock : Obligations.PadMakesThePaddedBlock := by
  intro s m hp _ hm
  rw [exec_pad_load hp, ← padBlock_w_of_holdsMessage hm]
  rfl

/-! ### The circular and the straight schedule (R130, R131, R135)

The two run side by side from round 16 on: after t rounds the circular buffer holds the 16 newest of the t words that
the straight schedule has so far. -/

/-- Entry n mod 16 once round t >= 16 has scheduled its word (R131). -/
theorem wAt_schedule {t : Nat} (w : Vector Word 16) (n : Nat) (ht : 16 ≤ t) :
    wAt (schedule t w) n =
      if t % 16 = n % 16 then rotl 1 (wAt w (t - 3) ^^^ wAt w (t - 8) ^^^ wAt w (t - 14) ^^^ wAt w (t - 16))
      else wAt w n := by
  rw [schedule, if_neg (Nat.not_lt.2 ht), wAt, Vector.getElem_set]
  rfl

/-- A round schedules its word and does the standard's round with it (R130-R133). -/
theorem round_eq_plainRound (t : Nat) (w : Vector Word 16) (v : Working) :
    round t ⟨w, v⟩ = ⟨schedule t w, plainRound t (wAt (schedule t w) t) v⟩ := rfl

/-- The standard's rounds, the last one taken off. -/
theorem plainRounds_concat (t : Nat) (ws : List Word) (x : Word) (v : Working) :
    plainRounds t (ws ++ [x]) v = plainRound (t + ws.length) x (plainRounds t ws v) := by
  induction ws generalizing t v with
  | nil => rfl
  | cons y ws ih =>
    rw [List.cons_append, plainRounds, ih, plainRounds, List.length_cons, Nat.add_right_comm, Nat.add_assoc]

/-- The growing schedule, its newest word taken off. -/
theorem extendSchedule_succ (n : Nat) (ws : List Word) :
    extendSchedule (n + 1) ws = nextWord (extendSchedule n ws) :: extendSchedule n ws := by
  induction n generalizing ws with
  | zero => rfl
  | succ n ih => exact ih (nextWord ws :: ws)

theorem length_extendSchedule (n : Nat) (ws : List Word) : (extendSchedule n ws).length = ws.length + n := by
  induction n with
  | zero => rfl
  | succ n ih => rw [extendSchedule_succ, List.length_cons, ih, Nat.add_assoc]

/-- The buffer before round t holds the 16 newest words of a schedule of t words, listed newest first. -/
def holdsNewest (t : Nat) (w : Vector Word 16) (newestFirst : List Word) : Prop :=
  ∀ d < 16, wAt w (t - 1 - d) = newestFirst.getD d 0

/-- The block's own words are the 16 newest before round 16. -/
theorem holdsNewest_block (w : Vector Word 16) : holdsNewest 16 w w.toList.reverse := by
  intro d hd
  have hmod : (16 - 1 - d) % 16 = 16 - 1 - d := by omega
  simp [wAt, hmod, hd]

/-- Scheduling in the buffer keeps up with the straight schedule (R131): the next word overwrites the oldest. -/
theorem holdsNewest_schedule {t : Nat} {w : Vector Word 16} {ws : List Word} (ht : 16 ≤ t) (h : holdsNewest t w ws) :
    holdsNewest (t + 1) (schedule t w) (nextWord ws :: ws) := by
  intro d hd
  rw [wAt_schedule w _ ht]
  cases d with
  | zero =>
    rw [if_pos (by rfl), List.getD_cons_zero, nextWord, ← h 2 (by decide), ← h 7 (by decide), ← h 13 (by decide),
      ← h 15 (by decide)]
    rfl
  | succ d =>
    have hother : t % 16 ≠ (t + 1 - 1 - (d + 1)) % 16 := by omega
    rw [if_neg hother, List.getD_cons_succ, ← h d (by omega), Nat.add_sub_cancel, Nat.sub_sub, Nat.add_comm 1 d]

/-- The first 16 rounds use the block's words in order and leave the buffer as it is (R130). -/
theorem roundsFrom_block {n : Nat} (w : Vector Word 16) (v : Working) (hn : n ≤ 16) :
    roundsFrom 0 n ⟨w, v⟩ = ⟨w, plainRounds 0 (w.toList.take n) v⟩ := by
  induction n with
  | zero => rfl
  | succ n ih =>
    have hlt : n < 16 := hn
    have hword : w.toList.take (n + 1) = w.toList.take n ++ [wAt w n] := by
      simp [List.take_add_one, wAt, Nat.mod_eq_of_lt hlt, hlt]
    have hlen : (w.toList.take n).length = n := by simp [hlt.le]
    rw [roundsFrom_succ, ih hlt.le, Nat.zero_add, round_eq_plainRound, schedule, if_pos hlt, hword, plainRounds_concat,
      hlen, Nat.zero_add]

/-- n rounds after the first 16: the buffer holds the straight schedule's newest words, and the working variables are
those of the standard's rounds over it. -/
theorem roundsFrom_extendSchedule (n : Nat) (w : Vector Word 16) (v : Working) :
    holdsNewest (16 + n) (roundsFrom 0 (16 + n) ⟨w, v⟩).w (extendSchedule n w.toList.reverse) ∧
    (roundsFrom 0 (16 + n) ⟨w, v⟩).v = plainRounds 0 (extendSchedule n w.toList.reverse).reverse v := by
  induction n with
  | zero =>
    rw [roundsFrom_block w v (Nat.le_refl 16), extendSchedule, List.reverse_reverse, List.take_of_length_le (by simp)]
    exact ⟨holdsNewest_block w, rfl⟩
  | succ n ih =>
    obtain ⟨hbuffer, hworking⟩ := ih
    have hnext := holdsNewest_schedule (Nat.le_add_right 16 n) hbuffer
    have hlen : (extendSchedule n w.toList.reverse).reverse.length = 16 + n := by simp [length_extendSchedule]
    rw [← Nat.add_assoc, roundsFrom_succ, Nat.zero_add, extendSchedule_succ]
    refine ⟨hnext, ?_⟩
    rw [List.reverse_cons, plainRounds_concat, hlen, Nat.zero_add, ← hworking]
    exact congrArg (plainRound _ · _) (hnext 0 (by decide))

/-- Settles O34: after 16 + 64 rounds the working variables are those over the full schedule. -/
theorem circularBufferComputesTheStraightSchedule : Obligations.CircularBufferComputesTheStraightSchedule := fun m =>
  congrArg finalSum (roundsFrom_extendSchedule 64 (paddedBlock m) ivWorking).2

/-! ### Streams of XORB (R141, R181, R182) -/

/-- Inside the window of a long enough buffer the byte is masked (R141). -/
theorem transformByte_of_lt {h : Vector Word 5} {l i : Nat} (v : Byte) (hl : i < l) (hi : i < 1040) :
    transformByte h l i v = v ^^^ keystream h i :=
  if_pos (Nat.lt_min.2 ⟨hi, hl⟩)

/-- Past the largest window the byte passes unchanged (R141). -/
theorem transformByte_of_ge {h : Vector Word 5} {l i : Nat} (v : Byte) (hi : 1040 ≤ i) : transformByte h l i v = v :=
  if_neg fun hlt => Nat.not_lt.2 hi (Nat.lt_min.1 hlt).1

theorem exec_orst_done {s : State} (hp : s.phase = .done) : exec .orst s = .next { s with oidx := 0 }.finish := by
  have hl : legality .orst s.phase s.t = .yes := by simp [legality, legalIn_yes, hp]
  rw [exec_yes hl]
  rfl

/-- In DONE, XORB transforms byte n of a stream when OIDX counts the n bytes before it, saturated at 1040 (R141,
R182). -/
theorem exec_xorb_done {s : State} {n : Nat} (b : Byte) (hp : s.phase = .done) (hn : s.oidx.toNat = min 1040 n) :
    ∃ t, exec (.xorb b) s = .next t ∧ t.res = transformByte s.h (n + 1) n b ∧ t.oidx.toNat = min 1040 (n + 1) ∧
      t = { s with res := t.res, oidx := t.oidx, pend := none, raced := [] } := by
  have hl : legality (.xorb b) s.phase s.t = .yes := by simp [legality, legalIn_yes, hp]
  rw [exec_yes hl, bodyOf, xorbBody]
  rcases Nat.lt_or_ge n 1040 with hin | hpast
  · have hidx : s.oidx.toNat = n := by omega
    have hadd : (s.oidx + 1).toNat = n + 1 := by rw [BitVec.toNat_add_of_lt (by simp; omega), hidx]; rfl
    rw [if_pos (by omega : s.oidx.toNat < 1040), hidx]
    exact ⟨_, rfl, (transformByte_of_lt b (Nat.lt_succ_self n) hin).symm, hadd.trans (by omega), rfl⟩
  · rw [if_neg (by omega : ¬ s.oidx.toNat < 1040)]
    exact ⟨_, rfl, (transformByte_of_ge b hpast).symm, hn.trans (by omega), rfl⟩

/-- A stream of XORBs counts its bytes in OIDX, saturated at 1040, and else changes RES only (R182). -/
theorem execAll_xorb {sent : List Byte} {s : State} {n : Nat} (hp : s.phase = .done) (hn : s.oidx.toNat = min 1040 n) :
    ∃ t, execAll (sent.map .xorb) s = .next t ∧ t.oidx.toNat = min 1040 (n + sent.length) ∧
      t = { s with res := t.res, oidx := t.oidx, pend := t.pend, raced := t.raced } := by
  induction sent generalizing s n with
  | nil => exact ⟨s, rfl, hn, rfl⟩
  | cons b sent ih =>
    obtain ⟨u, hu, -, huidx, huframe⟩ := exec_xorb_done b hp hn
    obtain ⟨t, ht, htidx, htframe⟩ := ih (s := u) (by rw [huframe]; exact hp) huidx
    refine ⟨t, (execAll_cons_of_next hu).trans ht, ?_, ?_⟩
    · rw [htidx, List.length_cons, Nat.add_right_comm, Nat.add_assoc]
    · rw [htframe, huframe]

/-- Settles O26: ORST starts the count at 0, the bytes sent advance it, and the last byte is transformed at its index. -/
theorem xorbStreamIsTheByteTransform : Obligations.XorbStreamIsTheByteTransform := by
  intro s sent b hp
  obtain ⟨u, hu, huidx, huframe⟩ := execAll_xorb (sent := sent) (s := { s with oidx := 0 }.finish) (n := 0) hp rfl
  rw [Nat.zero_add] at huidx
  obtain ⟨t, ht, hres, hidx, hframe⟩ := exec_xorb_done b (by rw [huframe]; exact hp) huidx
  have hrun : execAll (.orst :: (sent.map .xorb ++ [.xorb b])) s = .next t :=
    calc execAll (.orst :: (sent.map .xorb ++ [.xorb b])) s
        = execAll [.xorb b] u := (execAll_cons_of_next (exec_orst_done hp)).trans (execAll_append_of_next hu)
      _ = .next t := execAll_cons_of_next ht
  refine ⟨t, hrun, ?_, hidx, ?_⟩
  · rw [hres, huframe]; rfl
  · rw [hframe, huframe]; rfl

end Sys2Proof.Machine

/-! ## The hash commands (41_hash_commands.md)

How a word comes to run (O5, O6, O7), what each hash command does (O11-O16, O18-O20), what LDM makes of the message held
(O37), HASH as STEPs and FIN (O21), and the hashing sequence as a whole (O36). -/

namespace Sys2Proof.Machine

/-! ### The engine's turn (R152, R209) -/

theorem engineTurn_of_idle {s : State} (hp : s.pend = none) : engineTurn s = .next s := by
  rw [engineTurn, hp]

/-- While BUSY = 1 the host goes on waiting and the engine completes the word held (R107). -/
theorem waitTurn_of_pend {s : State} {w : Word} (hp : s.pend = some w) :
    waitTurn s = completeWord w { s with schedule := .hostWait :: s.schedule } := by
  rw [waitTurn, hp]

/-- With BUSY = 0 the host's wait ends with its read of STATUS (R107, R71(b)). -/
theorem waitTurn_of_idle {s : State} (hp : s.pend = none) :
    waitTurn s = .next { s with readData := statusWord s, unseen := [] } := by
  rw [← readWindow_status_idle (State.busy_of_pend_none s hp), waitTurn, hp]
  rfl

/-- With an empty schedule the engine has its turn (R240, log entry 7). -/
theorem step_of_empty {s : State} (h : s.schedule = []) : step s = engineTurn s := by
  simp only [step, stepScheduled, h]

/-- The engine completes the word held at its turn and while the host waits (R107, R152). -/
theorem step_of_pend {s : State} {w : Word} (hp : s.pend = some w) :
    (s.schedule = [] → step s = completeWord w s) ∧
    (∀ rest, s.schedule = .engine :: rest → step s = completeWord w { s with schedule := rest }) ∧
    (∀ rest, s.schedule = .hostWait :: rest → step s = completeWord w s) := by
  refine ⟨fun h => ?_, fun rest h => ?_, fun rest h => ?_⟩
  · rw [step_of_empty h, engineTurn_of_pend hp]
  · exact (step_eq_perform h).trans (engineTurn_of_pend (by exact hp))
  · refine ((step_eq_perform h).trans (waitTurn_of_pend (by exact hp))).trans ?_
    rw [← h]

/-- With BUSY = 0 the engine has nothing to do, and the host's wait ends (R107, R219). -/
theorem step_of_idle {s : State} (hp : s.pend = none) :
    (s.schedule = [] → step s = .next s) ∧
    (∀ rest, s.schedule = .engine :: rest → step s = .next { s with schedule := rest }) ∧
    (∀ rest, s.schedule = .hostWait :: rest →
      step s = .next { s with schedule := rest, readData := statusWord s, unseen := [] }) :=
  ⟨fun h => (step_of_empty h).trans (engineTurn_of_idle hp),
    fun _ h => (step_eq_perform h).trans (engineTurn_of_idle hp),
    fun _ h => (step_eq_perform h).trans (waitTurn_of_idle hp)⟩

theorem completeWord_of_command {w : Word} {i : Instr} (h : decode w = .ok i) : completeWord w = exec i := by
  funext s
  rw [completeWord, h]

/-- Settles O5: the step completes the word held, and completing a command's word is `exec`. -/
theorem engineStepRunsThePendingCommand : Obligations.EngineStepRunsThePendingCommand := by
  refine fun s => ⟨fun w hp => ⟨fun i hi => ?_, fun _ _ => step_of_pend hp⟩, step_of_idle⟩
  rw [← completeWord_of_command hi]
  exact step_of_pend hp

/-! ### Submission and acceptance (R90, R151) -/

/-- A table word that stands for `i` is, as a 32-bit word, one that the decoder takes for `i` (R90). -/
theorem decode_of_decodeTableWord {nbits w : Nat} {i : Instr} (h : decodeTableWord nbits w = some i) :
    decode (BitVec.ofNat 32 (w % 2 ^ nbits)) = .ok i := by
  unfold decodeTableWord at h
  split at h
  · split at h <;> cases h
    assumption
  · cases h

/-- INIT's acceptance clears OVR, any other word's keeps it (R151). -/
theorem accept_of_command {w : Word} {i : Instr} (h : decode w = .ok i) (s : State) :
    accept w s = { s with pend := some w, ovr := if i = .init then false else s.ovr } := by
  have hinit : isInitWord w = true ↔ i = .init := by simp [isInitWord_iff, h]
  simp only [accept, hinit]

/-- Settles O6: the engine's turn is next, with the word held. -/
theorem submittedWordRunsNext : Obligations.SubmittedWordRunsNext := by
  intro s nbits w i h
  have hi := decode_of_decodeTableWord h
  rw [State.withFetchWord, submitted, accept_of_command hi, ← completeWord_of_command hi]
  cases hsched : s.schedule with
  | nil =>
    refine ((step_of_pend rfl).1 rfl).trans ?_
    simp only [engineFirst, ← hsched]
  | cons e rest =>
    refine ((step_of_pend rfl).2.1 (e :: rest) rfl).trans ?_
    simp only [← hsched]

/-- Settles O7: CMD is a writable register, and a write to it with BUSY = 0 is an acceptance. -/
theorem cmdWriteIsAccepted : Obligations.CmdWriteIsAccepted := by
  intro s w rest h s0
  have hbusy : s0.busy = s.busy := orderBeforeMmio_busy _
  have hstep : step s = .next (writeWindow (regOffset .cmd) w s0) := step_hostWrite h rfl
  refine ⟨fun hb => ?_, fun hb hi => ?_, fun hb hi => ?_⟩ <;> rw [hstep]
  · rw [writeWindow_busy (hbusy.trans hb), writable, Bool.or_true]
  · rw [writeWindow_idle (hbusy.trans hb), writeReg, accept, if_pos (isInitWord_iff.2 hi)]
  · rw [writeWindow_idle (hbusy.trans hb), writeReg, accept, if_neg (mt isInitWord_iff.1 hi)]

/-! ### Out of phase and in FAULT (R150, R202, R207) -/

theorem exec_out_of_phase {i : Instr} {s : State} (h : legality i s.phase s.t = .seq) :
    exec i s = onlyRaises .seq s := exec_seq h

theorem exec_in_fault {i : Instr} {s : State} (hi : i ≠ .nop ∧ i ≠ .init) (hp : s.phase = .fault) :
    exec i s = onlyCompletes s := exec_ignored (legality_ignored.2 ⟨hp, hi⟩)

/-- The loading commands raise SEQ in COMPRESS and DONE, HASH in LOAD and DONE (R150). -/
theorem legality_ldb_seq {b : Byte} {p : Phase} {t : BitVec 7} :
    legality (.ldb b) p t = .seq ↔ p = .compress ∨ p = .done := by
  simp [legality, legalIn_seq]

theorem legality_pad_seq {p : Phase} {t : BitVec 7} : legality .pad p t = .seq ↔ p = .compress ∨ p = .done := by
  simp [legality, legalIn_seq]

theorem legality_hash_seq {p : Phase} {t : BitVec 7} : legality .hash p t = .seq ↔ p = .load ∨ p = .done := by
  simp [legality, legalIn_seq]

/-! ### NOP and INIT (R153, R154) -/

/-- A word with the opcode of NOP or INIT that is not the command's own word is ILLEGAL (R92, R100). -/
theorem decode_of_other_low_bits {w : Word} {i : Instr} (hi : i = .nop ∨ i = .init)
    (hop : opcodeField w = opcodeOf i) (hw : w ≠ encode i) : decode w = .error .reservedBits := by
  have hform : decode w = decodeN w i := by
    unfold decode
    rw [hop]
    rcases hi with rfl | rfl <;> rfl
  have hbits : operandBits i = 0 := by rcases hi with rfl | rfl <;> rfl
  have hres : reservedN w ≠ 0 := fun h0 =>
    hw (encodeOfDecodeIsTheWord w i (decode_eq_ok.2 ⟨hop, h0.trans hbits.symm⟩)).symm
  rw [hform, decodeN, if_neg hres]

/-- Settles O11: NOP is legal in every phase and its body skips. -/
theorem nopChangesOnlyBusy : Obligations.NopChangesOnlyBusy :=
  ⟨rfl, fun _ hop hw => decode_of_other_low_bits (.inl rfl) hop hw, fun _ => exec_yes rfl⟩

/-- Settles O12: INIT is legal in every phase and its body is `freshHash`. -/
theorem initStartsAFreshHash : Obligations.InitStartsAFreshHash :=
  ⟨rfl, fun _ hop hw => decode_of_other_low_bits (.inr rfl) hop hw, fun _ => exec_yes rfl⟩

/-! ### LDB and PAD (R155, R157) -/

/-- LDB's word is 0x02 over the zero reserved field and the byte (R93). -/
theorem encode_ldb (b : Byte) : encode (.ldb b) = 0x02000000 + b.setWidth 32 := by
  apply BitVec.eq_of_toNat_eq
  rw [encode_toNat, operandBits, toNat_append_eq, opcodeOf]
  bv_omega

/-- Settles O13: the byte goes to position LEN, and LENGTH and SEQ come before any write. -/
theorem ldbAppendsItsByte : Obligations.LdbAppendsItsByte := by
  refine fun s b => ⟨?_, fun hp hroom => ⟨_, exec_ldb_room b hp hroom, ?_, fun j hj => ?_,
    loadByte_len_toNat b hroom, rfl⟩, fun hp hfull => ?_, fun hp => exec_out_of_phase (legality_ldb_seq.2 hp),
    exec_in_fault (by simp)⟩
  · rw [← encode_ldb]
    exact decode_eq_ok.2 (Laws.EncodeOpcode.ldb b)
  · exact (getByte_setByte _ _ _ _).trans (if_pos rfl)
  · exact (getByte_setByte _ _ _ _).trans (if_neg hj)
  · exact exec_ldb_full b hp (by rw [hfull]; decide)

/-- Settles O16: PAD writes byte LEN, which stands before W[15], and then W[15]. -/
theorem padPutsPaddingByteAndBitLength : Obligations.PadPutsPaddingByteAndBitLength := by
  refine ⟨rfl, fun s => ⟨fun hp hlen => ⟨_, exec_pad_load hp, ?_, ?_, fun j hj hj60 => ?_, rfl⟩,
    fun hp => exec_out_of_phase (legality_pad_seq.2 hp), exec_in_fault (by simp)⟩⟩
  · rw [State.finish_w, padBlock_w, getByte_set_word (by omega), getByte_setByte, if_pos rfl]
  · simp
  · rw [State.finish_w, padBlock_w, getByte_set_word (by omega), getByte_setByte, if_neg hj]

/-! ### LDM (R156) -/

/-- LDM's loop from byte 0 on where no read meets a bus error, in terms of the state LDM starts from: every byte in its
place, a contested one as a free value, and nothing else changed (R156, R72). -/
theorem ldmLoop_loads {s t : State} {n : Nat} (ht : ldmLoop s.src n 0 s = t)
    (hserved : rangeServed s.platform .read s.src n) (hroom : s.len.toNat + n ≤ 55) :
    (∀ j < n, s.contested (s.src + BitVec.ofNat 32 j) = false →
      getByte t.w (BitVec.ofNat 6 (s.len.toNat + j)) = s.byteAt (s.src + BitVec.ofNat 32 j)) ∧
    (∀ j < n, s.contested (s.src + BitVec.ofNat 32 j) = true →
      ∃ d, s.draws ≤ d ∧ d < t.draws ∧
        getByte t.w (BitVec.ofNat 6 (s.len.toNat + j)) = (Config.freeWord d).setWidth 8) ∧
    (∀ j : BitVec 6, j.toNat < s.len.toNat ∨ s.len.toNat + n ≤ j.toNat → getByte t.w j = getByte s.w j) ∧
    t.len.toNat = s.len.toNat + n ∧
    ((∀ j < n, s.contested (s.src + BitVec.ofNat 32 j) = false) → t.draws = s.draws) ∧
    t = { s with w := t.w, len := t.len, draws := t.draws } := by
  have hreads : ∀ k < n, busError s.platform (engineAddr s.src (0 + k)) .read = false := by
    simpa only [Nat.zero_add, rangeServed] using hserved
  obtain ⟨hlen, hbyte, hfree, hkept, herr, hphase, -, hdraws⟩ := ldmLoop_served s.src n 0 s hreads (by omega)
  have hframe := ldmLoop_frame s.src n 0 s
  rw [herr, hphase] at hframe
  simp only [Nat.zero_add, ht] at hlen hbyte hfree hkept hdraws hframe
  exact ⟨hbyte, hfree, hkept, hlen, hdraws, hframe⟩

/-- LDM in LOAD, with room for its bytes and a usable range, is its loop (R156). -/
theorem exec_ldm_load {s : State} (hp : s.phase = .load) (hroom : s.len.toNat + s.idlen.toNat ≤ 55)
    (huse : rangeUsable s.platform s.src s.idlen.toNat) :
    exec .ldm s = .next (ldmLoop s.src s.idlen.toNat 0 s).finish := by
  have hfits : ¬ ldmTooLong s = true := by simp [ldmTooLong_eq_false.2 hroom]
  rw [exec_yes (legality_ldm_yes.2 hp), bodyOf, ldmBody, if_neg hfits, ldmCount, rangeRefusal_none.2 huse]
  rfl

/-- LDM's loop stops with BUS at its first failing read, with the bytes before it loaded (R156, R204). -/
theorem ldmLoop_stops {s : State} {n total : Nat} (hn : n < total) (hserved : rangeServed s.platform .read s.src n)
    (hbus : busError s.platform (engineAddr s.src n) .read = true) :
    ldmLoop s.src total 0 s = (ldmLoop s.src n 0 s).raise .bus := by
  obtain ⟨r, rfl⟩ : ∃ r, total = n + (r + 1) := ⟨total - n - 1, by omega⟩
  have hplatform : (ldmLoop s.src n 0 s).platform = s.platform := by rw [ldmLoop_frame]
  rw [ldmLoop_add _ _ _ _ _ (by simpa only [Nat.zero_add, rangeServed] using hserved), Nat.zero_add, ldmLoop,
    memRead_none.2 (hplatform.symm ▸ hbus)]

/-- Settles O14: LDM is its loop, and no read of it fails. -/
theorem ldmAppendsBytesFromMemory : Obligations.LdmAppendsBytesFromMemory := by
  intro s hp hroom huse hserved
  obtain ⟨hbyte, hfree, hkept, hlen, hdraws, hframe⟩ := ldmLoop_loads rfl hserved hroom
  exact ⟨_, exec_ldm_load hp hroom huse, hbyte, hfree, hkept, hlen, hdraws, congrArg State.finish hframe⟩

/-- Settles O15: the loop loads the bytes before the failing one and raises BUS. -/
theorem ldmStopsAtTheFirstBusError : Obligations.LdmStopsAtTheFirstBusError := by
  intro s n hp hroom huse hn hserved hbus
  obtain ⟨hbyte, hfree, hkept, hlen, hdraws, hframe⟩ := ldmLoop_loads rfl hserved (by omega)
  refine ⟨((ldmLoop s.src n 0 s).raise .bus).finish, ?_, hbyte, hfree, hkept, hlen, hdraws,
    congrArg (fun t : State => (t.raise .bus).finish) hframe⟩
  rw [exec_ldm_load hp hroom huse, ldmLoop_stops hn hserved hbus]

/-- A block whose bytes are those of `m`, then those of `bs`, then zeros, holds `m` followed by `bs` (R24). -/
theorem holdsMessage_append {s t : State} {m bs : List Byte} (hm : holdsMessage m s)
    (hlen : t.len.toNat = s.len.toNat + bs.length)
    (hnew : ∀ j < bs.length, getByte t.w (BitVec.ofNat 6 (s.len.toNat + j)) = bs.getD j 0)
    (hkept : ∀ j : BitVec 6, j.toNat < s.len.toNat ∨ s.len.toNat + bs.length ≤ j.toNat →
      getByte t.w j = getByte s.w j) :
    holdsMessage (m ++ bs) t := by
  obtain ⟨hmlen, hbytes⟩ := hm
  refine ⟨by rw [hlen, hmlen, List.length_append], fun j => ?_⟩
  rcases Nat.lt_or_ge j.toNat m.length with hold | hge
  · rw [hkept j (.inl (hmlen ▸ hold)), hbytes, List.getD_append _ _ _ _ hold]
  rw [List.getD_append_right _ _ _ _ hge]
  rcases Nat.lt_or_ge j.toNat (m.length + bs.length) with hin | hpast
  · have hj : s.len.toNat + (j.toNat - m.length) = j.toNat := by omega
    rw [← hnew _ (by omega), hj, BitVec.ofNat_toNat, BitVec.setWidth_eq]
  · rw [hkept j (.inr (hmlen ▸ hpast)), hbytes, List.getD_eq_default _ _ hge, List.getD_eq_default _ _ (by omega)]

/-- Settles O37: with no race every byte loaded is the one in memory. -/
theorem ldmExtendsTheMessageHeld : Obligations.LdmExtendsTheMessageHeld := by
  intro s m hp hm hroom hraces huse hserved
  rw [← hm.1] at hroom
  obtain ⟨hbyte, -, hkept, hlen, -, hframe⟩ := ldmLoop_loads rfl hserved hroom
  refine ⟨_, exec_ldm_load hp hroom huse, ?_, holdsMessage_append hm (by simpa using hlen) (fun j hj => ?_) ?_⟩
  · rw [State.finish_phase, hframe]
    exact hp
  · have hj : j < s.idlen.toNat := by simpa using hj
    rw [State.finish_w, hbyte j hj (hraces j hj)]
    simp [hj, engineAddr]
  · simpa using hkept

/-! ### STEP and FIN (R158, R159) -/

theorem exec_step_compress {s : State} (hp : s.phase = .compress) (ht : s.t.toNat < 80) :
    exec .step s = .next (stepRound s).finish :=
  exec_yes (legality_step_yes.2 ⟨hp, ht⟩)

theorem exec_fin_compress {s : State} (hp : s.phase = .compress) (ht : s.t.toNat = 80) :
    exec .fin s = .next s.finalAddition.finish :=
  exec_yes (legality_fin_yes.2 ⟨hp, ht⟩)

/-- Below round 80 the round constant needs no reduction of its index (R123). -/
theorem roundConstant_of_lt {t : Nat} (ht : t < 80) : roundConstant t = kTable[t / 20] := by
  have hindex : t / 20 % 4 = t / 20 := by omega
  simp only [roundConstant, hindex]

/-- The first 16 rounds leave the block as it is (R130). -/
theorem schedule_of_lt {t : Nat} (w : Vector Word 16) (ht : t < 16) : schedule t w = w :=
  if_pos ht

/-- Below round 80 the 7 bits of T suffice for the next round's number (R25). -/
theorem toNat_next_round {t : BitVec 7} (ht : t.toNat < 80) : (t + 1).toNat = t.toNat + 1 :=
  BitVec.toNat_add_of_lt (by simp; omega)

/-- Settles O18: STEP is one round, whose schedule is `wAt_schedule` and whose constant is in range. -/
theorem stepRunsOneRound : Obligations.StepRunsOneRound := by
  refine ⟨rfl, fun s => ⟨fun hp ht => ⟨_, exec_step_compress hp ht, schedule_of_lt s.w, fun hge j => ?_, ?_,
    toNat_next_round ht, rfl⟩, fun hp ht => ?_, fun hp => ?_, exec_in_fault (by simp)⟩⟩
  · have hj : j.val % 16 = j.val := Nat.mod_eq_of_lt j.isLt
    have hentry := wAt_schedule s.w j.val hge
    simpa only [State.finish_w, stepRound_w, wAt, hj, @eq_comm Nat (s.t.toNat % 16)] using hentry
  · rw [← roundConstant_of_lt ht]
    rfl
  · exact exec_out_of_phase (legality_step_seq.2 (.inr (.inr ⟨hp, by rw [ht]; decide⟩)))
  · exact exec_out_of_phase (legality_step_seq.2 (hp.imp_right .inl))

/-- Settles O19: FIN is legal at T = 80 only, and its body is the final addition. -/
theorem finAddsTheInitialValue : Obligations.FinAddsTheInitialValue := by
  refine ⟨rfl, fun s => ⟨fun hp ht => exec_fin_compress hp (by rw [ht]; rfl), fun hp ht => ?_, fun hp => ?_,
    exec_in_fault (by simp)⟩⟩
  · exact exec_out_of_phase (legality_fin_seq.2 (.inr (.inr ⟨hp, ht.ne⟩)))
  · exact exec_out_of_phase (legality_fin_seq.2 (hp.imp_right .inl))

/-! ### HASH (R160) -/

/-- Settles O20: the rounds by `stepRounds_mixer`, what they leave by `stepRounds_frame`. -/
theorem hashRunsTheRemainingRounds : Obligations.HashRunsTheRemainingRounds := by
  refine ⟨rfl, fun s => ⟨fun hp ht => ?_, fun hp => exec_out_of_phase (legality_hash_seq.2 hp),
    exec_in_fault (by simp)⟩⟩
  obtain ⟨hmixer, hrounds⟩ := stepRounds_mixer (80 - s.t.toNat) s (by omega)
  have ht80 : (stepRounds (80 - s.t.toNat) s).t = 80 :=
    BitVec.eq_of_toNat_eq (hrounds.trans (Nat.add_sub_cancel' ht))
  refine ⟨_, exec_hash_compress hp, hmixer, ht80, rfl, ?_⟩
  rw [← ht80, stepRounds_frame]
  rfl

/-- The end of a command does not change what rounds it is followed by. -/
theorem stepRounds_finish (n : Nat) (s : State) : stepRounds n s.finish = (stepRounds n s).finish := by
  induction n generalizing s with
  | zero => rfl
  | succ n ih => exact ih (stepRound s)

/-- `n` STEPs, legal throughout, are `n` rounds, but for BUSY and PEND (R158). -/
theorem execAll_steps {n : Nat} {s : State} (hp : s.phase = .compress) (ht : s.t.toNat + n ≤ 80) :
    ∃ u, execAll (List.replicate n .step) s = .next u ∧ u.phase = .compress ∧ u.t.toNat = s.t.toNat + n ∧
      u.finish = (stepRounds n s).finish := by
  induction n generalizing s with
  | zero => exact ⟨s, rfl, hp, rfl, rfl⟩
  | succ n ih =>
    have hnext : (stepRound s).finish.t.toNat = s.t.toNat + 1 := toNat_next_round (by omega)
    obtain ⟨u, hrun, huphase, hut, hufinish⟩ := ih (s := (stepRound s).finish) hp (by omega)
    refine ⟨u, (execAll_cons_of_next (exec_step_compress hp (by omega))).trans hrun, huphase, by omega, ?_⟩
    rw [hufinish, stepRounds_finish]
    rfl

/-- Settles O21: the 80 - T STEPs are HASH's rounds, and FIN is its final addition. -/
theorem hashEqualsStepsThenFin : Obligations.HashEqualsStepsThenFin := by
  intro s hp ht
  have hall : s.t.toNat + (80 - s.t.toNat) = 80 := Nat.add_sub_cancel' ht
  obtain ⟨u, hrun, huphase, hut, hufinish⟩ := execAll_steps hp hall.le
  have hend : u.finalAddition.finish = (stepRounds (80 - s.t.toNat) s).finalAddition.finish :=
    congrArg State.finalAddition hufinish
  rw [execAll_append_of_next hrun, execAll_cons_of_next (exec_fin_compress huphase (hut.trans hall)), hend,
    exec_hash_compress hp, execAll]

/-- STEPs before HASH change nothing of its outcome: it goes on from where they have come (R160). -/
theorem execAll_steps_hash {n : Nat} {s : State} (hp : s.phase = .compress) (ht : s.t.toNat + n ≤ 80) :
    execAll (List.replicate n Instr.step ++ [Instr.hash]) s = execAll [.hash] s := by
  obtain ⟨u, hrun, huphase, hut, hufinish⟩ := execAll_steps hp ht
  have hrounds : n + (80 - u.t.toNat) = 80 - s.t.toNat := by omega
  have hsame : (stepRounds (80 - u.t.toNat) u).finish = (stepRounds (80 - s.t.toNat) s).finish := by
    rw [← stepRounds_finish, hufinish, stepRounds_finish, stepRounds_add, hrounds]
  have hend : (stepRounds (80 - u.t.toNat) u).finalAddition.finish =
      (stepRounds (80 - s.t.toNat) s).finalAddition.finish := congrArg State.finalAddition hsame
  rw [execAll_append_of_next hrun, execAll_cons_of_next (exec_hash_compress huphase), hend,
    execAll_cons_of_next (exec_hash_compress hp)]

/-! ### The hashing sequence (R161) -/

/-- Up to 80 STEPs between PAD and HASH change nothing of the outcome (R161). -/
theorem execAll_pad_steps_hash {k : Nat} {s : State} (hk : k ≤ 80) (hp : s.phase = .load) (ht : s.t = 0) :
    execAll (Instr.pad :: (List.replicate k Instr.step ++ [Instr.hash])) s = execAll [.pad, .hash] s := by
  have ht0 : (padBlock s).finish.t.toNat = 0 := congrArg BitVec.toNat ht
  rw [execAll_cons_of_next (exec_pad_load hp), execAll_cons_of_next (exec_pad_load hp),
    execAll_steps_hash rfl (by rw [ht0]; omega)]

/-- What PAD and HASH can change: H, W, A..E, T and PHASE (R157, R160). -/
theorem execAll_pad_hash_frame {s t : State} (hp : s.phase = .load) (h : execAll [.pad, .hash] s = .next t) :
    t = { s with h := t.h, w := t.w, v := t.v, t := t.t, phase := .done, pend := none, raced := [] } := by
  rw [execAll_cons_of_next (exec_pad_load hp), execAll_cons_of_next (exec_hash_compress rfl)] at h
  cases h
  rw [stepRounds_frame]
  rfl

/-- Settles O36: after INIT the bytes either fit, and PAD, STEPs and HASH make their digest, or leave FAULT, in which
the rest is ignored. -/
theorem hashingSequenceGivesTheDigest : Obligations.HashingSequenceGivesTheDigest := by
  intro s m k hk
  have hinit : execAll [.init] s = .next (freshHash s).finish := rfl
  have hlen : (freshHash s).finish.len.toNat + m.length = m.length := Nat.zero_add _
  simp only [List.append_assoc]
  rw [execAll_append_of_next hinit]
  rcases Nat.lt_or_ge 55 m.length with hfull | hroom
  · obtain ⟨u, hload, hu⟩ := execAll_ldb_full (s := (freshHash s).finish) rfl (Nat.zero_le _) (hlen.symm ▸ hfull)
    have hignored : ∀ i ∈ [Instr.pad] ++ (List.replicate k Instr.step ++ [Instr.hash]), i ≠ .nop ∧ i ≠ .init := by
      intro i hi
      simp only [List.mem_append, List.mem_singleton, List.mem_replicate] at hi
      rcases hi with rfl | ⟨-, rfl⟩ | rfl <;> simp
    obtain ⟨t, hrest, ht⟩ := execAll_of_fault (s := u) (by rw [hu]) hignored
    refine ⟨t, (execAll_append_of_next hload).trans hrest, fun h => absurd h (Nat.not_le.2 hfull), ?_⟩
    rw [ht, hu]
    exact ⟨fun _ => ⟨rfl, rfl, rfl, rfl⟩, rfl, rfl, rfl, rfl, rfl⟩
  · obtain ⟨u, hload, hulen, hholds, hu⟩ := execAll_ldb_room (s := (freshHash s).finish) rfl (hlen.symm ▸ hroom)
    have hphase : u.phase = .load := by rw [hu]; rfl
    have hrounds : u.t = 0 := by rw [hu]; rfl
    obtain ⟨t, hrest, hdone, hdigest⟩ := execAll_pad_hash hphase hrounds (by rw [hu]; rfl)
      (hholds [] (holdsMessage_freshHash s))
    have hframe := execAll_pad_hash_frame hphase hrest
    refine ⟨t, ?_, fun _ => ⟨hdone, ?_, hdigest, ?_⟩, fun h => absurd h (Nat.not_lt.2 hroom), ?_⟩
    · exact (execAll_append_of_next hload).trans ((execAll_pad_steps_hash hk hphase hrounds).trans hrest)
    · rw [hframe, hu]; rfl
    · rw [hframe]; exact hulen.trans hlen
    · rw [hframe, hu]; exact ⟨rfl, rfl, rfl, rfl, rfl⟩

end Sys2Proof.Machine

/-! ## The keystream and the obfuscator (42_obfuscator_commands.md)

The commands that read the digest as a keystream: RDB (O22, O23), ORST (O24), XORB (O25), and OBF: what it does to its
window (O27), where a bus error stops it (O28), what it leaves alone (O29), and that it undoes itself (O30). -/

namespace Sys2Proof.Machine

/-! ### The words of RDB and XORB (R93, R94) -/

/-- A word that is, as a number, a command's opcode above its 24 low bits decodes to the command (R91, R97). -/
theorem decode_of_toNat_eq {w : Word} {i : Instr}
    (h : w.toNat = (opcodeOf i).toNat * 2 ^ 24 + (operandBits i).toNat) : decode w = .ok i := by
  rw [BitVec.eq_of_toNat_eq (h.trans (encode_toNat i).symm)]
  exact decode_eq_ok.2 (Laws.EncodeOpcode.every i)

theorem decode_rdb (n : BitVec 16) : decode (0x08000000 + n.setWidth 32) = .ok (.rdb n) := by
  apply decode_of_toNat_eq
  rw [operandBits, toNat_append_eq, opcodeOf]
  bv_omega

theorem decode_xorb (b : BitVec 8) : decode (0x0A000000 + b.setWidth 32) = .ok (.xorb b) := by
  apply decode_of_toNat_eq
  rw [operandBits, toNat_append_eq, opcodeOf]
  bv_omega

/-! ### The phases of the four commands (R150) -/

/-- The row of R150's table that RDB, XORB and OBF share: legal in DONE, SEQ in LOAD and COMPRESS. -/
theorem legalIn_done_yes {p : Phase} : legalIn false false true p = .yes ↔ p = .done := by
  simp [legalIn_yes]

theorem legalIn_done_seq {p : Phase} : legalIn false false true p = .seq ↔ p = .load ∨ p = .compress := by
  simp [legalIn_seq]

theorem legality_orst_yes {p : Phase} {t : BitVec 7} : legality .orst p t = .yes ↔ p ≠ .fault := by
  cases p <;> simp [legality, legalIn]

/-! ### RDB and ORST (R180, R181) -/

/-- `get(n)` as a field of a digest word: byte n mod 20, most significant byte of each word first (R136, R138). -/
theorem keystream_eq_extractLsb' (h : Vector Word 5) (n : Nat) :
    keystream h n = (h[n % 20 / 4]'(by omega)).extractLsb' (24 - 8 * (n % 20 % 4)) 8 :=
  rfl

theorem exec_rdb_done {s : State} (n : BitVec 16) (hp : s.phase = .done) :
    exec (.rdb n) s = .next { s with res := keystream s.h n.toNat }.finish :=
  exec_yes (legalIn_done_yes.2 hp)

/-- Settles O22: RDB's body in DONE is `exec_rdb_done`. -/
theorem rdbReadsTheKeystreamByte : Obligations.RdbReadsTheKeystreamByte := by
  refine fun s n => ⟨decode_rdb n, fun hp => ?_, fun hp => exec_out_of_phase (legalIn_done_seq.2 hp),
    exec_in_fault (by simp)⟩
  rw [exec_rdb_done n hp, keystream_eq_extractLsb']
  rfl

/-- Execute(RDB) has the keystream's period (R139). -/
theorem rdbBody_add_period {n : BitVec 16} (hn : n.toNat + 20 ≤ 65535) : rdbBody (n + 20) = rdbBody n := by
  have hadd : (n + 20).toNat = n.toNat + 20 := BitVec.toNat_add_of_lt (by simp; omega)
  funext s
  rw [rdbBody, rdbBody, hadd, keystream_add_period]

/-- Settles O23: the two commands have the same body, and R150 does not look at the index. -/
theorem rdbHasPeriodTwenty : Obligations.RdbHasPeriodTwenty := by
  intro s n hn
  rw [exec_eq_completeCommand, exec_eq_completeCommand, bodyOf, bodyOf, rdbBody_add_period hn]
  rfl

/-- Settles O24: ORST is legal in every phase but FAULT. -/
theorem orstClearsTheIndex : Obligations.OrstClearsTheIndex :=
  ⟨rfl, fun _ => ⟨fun hp => exec_yes (legality_orst_yes.2 hp), exec_in_fault (by simp)⟩⟩

/-! ### XORB (R182) -/

/-- Settles O25: with OIDX at most 1040, XORB's byte is byte OIDX of a stream (`exec_xorb_done`). -/
theorem xorbMasksInsideTheWindow : Obligations.XorbMasksInsideTheWindow := by
  refine fun s b => ⟨decode_xorb b, fun hp => ⟨fun hin => ?_, fun hend => ?_⟩,
    fun hp => exec_out_of_phase (legalIn_done_seq.2 hp), exec_in_fault (by simp)⟩
  · obtain ⟨t, ht, hres, hidx, hframe⟩ := exec_xorb_done b hp (n := s.oidx.toNat) (by omega)
    rw [transformByte_of_lt b (Nat.lt_succ_self _) hin, keystream_eq_extractLsb'] at hres
    exact ⟨t, ht, by omega, by rw [← hres]; exact hframe⟩
  · obtain ⟨t, ht, hres, hidx, hframe⟩ := exec_xorb_done b hp (n := s.oidx.toNat) (by omega)
    rw [transformByte_of_ge b hend.ge] at hres
    have hstays : t.oidx = s.oidx := BitVec.eq_of_toNat_eq (by omega)
    rw [ht, hframe, hres, hstays]

/-! ### OBF (R183) -/

/-- OBF in DONE, with a usable range, is its loop (R183). -/
theorem exec_obf_done {s : State} (hp : s.phase = .done)
    (huse : rangeUsable s.platform s.fbase (min 1040 s.flen.toNat)) :
    exec .obf s = .next (obfLoop s.fbase (min 1040 s.flen.toNat) 0 s).finish := by
  rw [exec_yes (legality_obf_yes.2 hp), bodyOf, obfBody_next.2 ⟨rangeRefusal_none.2 huse, rfl⟩]
  rfl

/-- A range is served as the loops ask for it, with their byte numbers counted from 0. -/
theorem rangeServed_from_zero {p : Platform} {k : Access} {base : Addr} {n : Nat} (h : rangeServed p k base n) :
    ∀ i < n, busError p (engineAddr base (0 + i)) k = false := by
  simpa only [Nat.zero_add, rangeServed] using h

/-- OBF's loop from byte 0 on where no access meets a bus error, in terms of the state OBF starts from: every byte of
the range transformed, a contested one a free value, these bytes not visible to others yet, and nothing else changed (R183,
R72, R71(b)). -/
theorem obfLoop_transforms {s t : State} {n : Nat} (ht : obfLoop s.fbase n 0 s = t) (hm : s.mem.wf = true)
    (hn : n ≤ 1040) (hread : rangeServed s.platform .read s.fbase n)
    (hwrite : rangeServed s.platform .write s.fbase n) :
    (∀ i < n, s.contested (engineAddr s.fbase i) = false →
      t.byteAt (engineAddr s.fbase i) = s.byteAt (engineAddr s.fbase i) ^^^ keystream s.h i) ∧
    (∀ i < n, s.contested (engineAddr s.fbase i) = true →
      ∃ d, s.draws ≤ d ∧ d < t.draws ∧ t.byteAt (engineAddr s.fbase i) = (Config.freeWord d).setWidth 8) ∧
    (∀ a, (∀ i < n, a ≠ engineAddr s.fbase i) → t.byteAt a = s.byteAt a) ∧
    ((∀ i < n, s.contested (engineAddr s.fbase i) = false) → t.draws = s.draws) ∧
    (∀ a, a ∈ t.unseen ↔ (∃ i < n, a = engineAddr s.fbase i) ∨ a ∈ s.unseen) ∧
    t = { s with mem := t.mem, unseen := t.unseen, draws := t.draws } := by
  have hread0 := rangeServed_from_zero hread
  have hwrite0 := rangeServed_from_zero hwrite
  obtain ⟨-, hbyte, hfree, hkept, herr, hphase, -, hdraws⟩ :=
    obfLoop_served s.fbase n 0 s hm (by omega) hread0 hwrite0
  have hunseen := obfLoop_unseen s.fbase n 0 s hm hread0 hwrite0
  have hframe := obfLoop_frame s.fbase n 0 s
  rw [herr, hphase] at hframe
  simp only [Nat.zero_add, ht] at hbyte hfree hkept hdraws hunseen hframe
  exact ⟨hbyte, hfree, hkept, hdraws, hunseen, hframe⟩

/-- Settles O27: OBF is its loop, and no access of it fails. -/
theorem obfTransformsTheWindow : Obligations.ObfTransformsTheWindow := by
  intro s hp hm huse hread hwrite
  obtain ⟨hbyte, hfree, hkept, hdraws, hunseen, hframe⟩ :=
    obfLoop_transforms rfl hm (Nat.min_le_left _ _) hread hwrite
  exact ⟨_, exec_obf_done hp huse, hbyte, hfree, hkept, hdraws, hunseen, congrArg State.finish hframe⟩

/-! ### OBF and bus errors (R183, R204) -/

/-- A byte of OBF fails, and writes nothing, exactly if its read or its write meets a bus error (R62, R183). -/
theorem obfByte_none {base : Addr} {i : Nat} {s : State} :
    obfByte base i s = none ↔ busError s.platform (engineAddr base i) .read = true ∨
      busError s.platform (engineAddr base i) .write = true := by
  unfold obfByte
  split
  · next h => simp [memRead_none.1 h]
  · next v u h =>
    obtain ⟨hread, hu⟩ := memRead_some h
    have hplatform : u.platform = s.platform := by rcases hu with ⟨-, -, rfl⟩ | ⟨-, -, rfl⟩ <;> rfl
    simp [memWrite_none, hplatform, hread]

/-- OBF's loop stops with BUS at its first failing byte, with the bytes before it transformed (R183, R204). -/
theorem obfLoop_stops {s : State} {n total : Nat} (hm : s.mem.wf = true) (hn : n < total)
    (hread : rangeServed s.platform .read s.fbase n) (hwrite : rangeServed s.platform .write s.fbase n)
    (hbus : busError s.platform (engineAddr s.fbase n) .read = true ∨
      busError s.platform (engineAddr s.fbase n) .write = true) :
    obfLoop s.fbase total 0 s = (obfLoop s.fbase n 0 s).raise .bus := by
  obtain ⟨r, rfl⟩ : ∃ r, total = n + (r + 1) := ⟨total - n - 1, by omega⟩
  have hplatform : (obfLoop s.fbase n 0 s).platform = s.platform := by rw [obfLoop_frame]
  rw [obfLoop_add _ _ _ _ _ hm (rangeServed_from_zero hread) (rangeServed_from_zero hwrite), Nat.zero_add, obfLoop,
    obfByte_none.2 (hplatform.symm ▸ hbus)]

/-- Settles O28: the loop transforms the bytes before the failing one and raises BUS. -/
theorem obfStopsAtTheFirstBusError : Obligations.ObfStopsAtTheFirstBusError := by
  intro s n hp hm huse hn hread hwrite hbus
  obtain ⟨hbyte, hfree, hkept, hdraws, hunseen, hframe⟩ := obfLoop_transforms rfl hm (by omega) hread hwrite
  refine ⟨((obfLoop s.fbase n 0 s).raise .bus).finish, ?_, hbyte, hfree, hkept, hdraws, hunseen,
    congrArg (fun t : State => (t.raise .bus).finish) hframe⟩
  rw [exec_obf_done hp huse, obfLoop_stops hm hn hread hwrite hbus]

/-! ### OBF outside its window (R184) -/

/-- A byte of OBF that is served is, of all bytes, the one that becomes not visible to others (R71(b)). -/
theorem obfByte_unseen {base : Addr} {i : Nat} {s s' : State} (h : obfByte base i s = some s') :
    s'.unseen = engineAddr base i :: s.unseen := by
  unfold obfByte at h
  split at h
  · cases h
  · next v u hu =>
    have hkept : u.unseen = s.unseen := by rcases (memRead_some hu).2 with ⟨-, -, rfl⟩ | ⟨-, -, rfl⟩ <;> rfl
    rcases (memWrite_some h).2 with ⟨-, rfl⟩ | ⟨-, rfl⟩ <;> exact congrArg (engineAddr base i :: ·) hkept

/-- OBF's loop changes no visibility outside its range, whether or not an error stops it (R184 item 3). -/
theorem obfLoop_unseen_outside {base a : Addr} {n i : Nat} {s : State}
    (ha : ∀ k < n, a ≠ engineAddr base (i + k)) : a ∈ (obfLoop base n i s).unseen ↔ a ∈ s.unseen := by
  induction n generalizing i s with
  | zero => rfl
  | succ n ih =>
    rw [obfLoop]
    split
    · rfl
    · next s' h =>
      have hrest : ∀ k < n, a ≠ engineAddr base (i + 1 + k) := fun k hk => by
        rw [Nat.add_right_comm]
        exact ha (k + 1) (by omega)
      rw [ih hrest, obfByte_unseen h, List.mem_cons, or_iff_right (by exact ha 0 (Nat.succ_pos n))]

/-- Settles O29: where OBF does not run its loop it leaves memory alone, and the loop stays inside its range, which has
no byte for FLEN = 0. -/
theorem obfWritesOnlyInsideItsWindow : Obligations.ObfWritesOnlyInsideItsWindow := by
  intro s t hm h
  rcases exec_next h with ⟨-, rfl⟩ | ⟨-, rfl⟩ | ⟨-, u, hu, rfl⟩
  · exact ⟨fun _ _ => ⟨rfl, Iff.rfl⟩, fun _ => ⟨rfl, rfl⟩⟩
  · exact ⟨fun _ _ => ⟨rfl, Iff.rfl⟩, fun _ => ⟨rfl, rfl⟩⟩
  · obtain ⟨-, rfl⟩ := obfBody_next.1 hu
    refine ⟨fun a ha => ?_, fun hempty => ?_⟩
    · have hout : ∀ k < obfCount s, a ≠ engineAddr s.fbase (0 + k) := by
        rintro k hk rfl
        have hin : inRange s.fbase (obfCount s) (engineAddr s.fbase (0 + k)) = true :=
          (inRange_iff ((obfCount_le s).trans (by decide))).2 ⟨k, hk, by rw [Nat.zero_add]⟩
        exact Bool.eq_false_iff.1 ha hin
      exact ⟨(obfLoop_outside _ _ _ s hm).2 a hout, obfLoop_unseen_outside hout⟩
    · have hcount : obfCount s = 0 := by rw [obfCount_eq, hempty]; rfl
      rw [hcount]
      exact ⟨rfl, rfl⟩

/-! ### OBF twice (R142, R184) -/

/-- With the command over the engine races for no byte it did not race for before (R72). -/
theorem finish_contested {s : State} {a : Addr} (h : s.contested a = false) : s.finish.contested a = false :=
  (Bool.or_eq_false_iff.1 h).2

/-- Settles O30: the second OBF meets what the first one asks for (O27), and masks every byte of the window with the
same key byte again. -/
theorem obfTwiceRestoresTheBuffer : Obligations.ObfTwiceRestoresTheBuffer := by
  intro s hp hm hraces huse hread hwrite
  obtain ⟨t, ht, htbyte, -, htkept, htdraws, htunseen, htframe⟩ := obfTransformsTheWindow s hp hm huse hread hwrite
  have htm : t.mem.wf = true := exec_wf hm ht
  have htraces : ∀ i < min 1040 s.flen.toNat, t.contested (engineAddr s.fbase i) = false := fun i hi => by
    rw [htframe]
    exact finish_contested (hraces i hi)
  obtain ⟨hth, htphase, htplatform, htbase, htlen⟩ :
      t.h = s.h ∧ t.phase = s.phase ∧ t.platform = s.platform ∧ t.fbase = s.fbase ∧ t.flen = s.flen := by
    rw [htframe]
    exact ⟨rfl, rfl, rfl, rfl, rfl⟩
  obtain ⟨u, hu, hubyte, -, hukept, hudraws, huunseen, huframe⟩ := obfTransformsTheWindow t
    (htphase.trans hp) htm (by rwa [htplatform, htbase, htlen]) (by rwa [htplatform, htbase, htlen])
    (by rwa [htplatform, htbase, htlen])
  rw [htbase, htlen] at hubyte hukept hudraws huunseen
  rw [hth] at hubyte
  have hbytes : ∀ a, u.byteAt a = s.byteAt a := fun a => by
    by_cases ha : ∃ i < min 1040 s.flen.toNat, a = engineAddr s.fbase i
    · obtain ⟨i, hi, rfl⟩ := ha
      rw [hubyte i hi (htraces i hi), htbyte i hi (hraces i hi), xor_keystream_twice]
    · have hout : ∀ i < min 1040 s.flen.toNat, a ≠ engineAddr s.fbase i := fun i hi heq => ha ⟨i, hi, heq⟩
      rw [hukept a hout, htkept a hout]
  have hmem : u.mem = s.mem := State.mem_ext (exec_wf htm hu) hm hbytes
  have hdraws : u.draws = s.draws := (hudraws htraces).trans (htdraws hraces)
  refine ⟨u.unseen, ?_, fun a => ?_⟩
  · rw [execAll_cons_of_next ht, execAll_cons_of_next hu, execAll, huframe, hmem, hdraws, htframe]
  · rw [huunseen, htunseen, ← or_assoc, or_self]

end Sys2Proof.Machine


/-! ## Exceptions (60_exceptions.md)

What a command that does not run does: out of phase it raises SEQ (O8), in FAULT it is ignored (O9), and with more bytes
than the block has room for it raises LENGTH (O10). -/

namespace Sys2Proof.Machine

/-- The row of R150's table that LDB, LDM and PAD share: legal in LOAD, SEQ in COMPRESS and DONE. -/
theorem legalIn_load_seq {p : Phase} : legalIn true false false p = .seq ↔ p = .compress ∨ p = .done := by
  simp [legalIn_seq]

/-- Settles O8: in every case R150's row of the command says SEQ. -/
theorem commandOutOfPhaseRaisesSeq : Obligations.CommandOutOfPhaseRaisesSeq := by
  refine fun s b n => ⟨fun hp => ?load, fun hp => ?compress, fun hp => ?done⟩
  case load =>
    have outsideDone : legalIn false false true s.phase = .seq := legalIn_done_seq.2 (.inl hp)
    exact ⟨exec_out_of_phase (legality_step_seq.2 (.inl hp)), exec_out_of_phase (legality_fin_seq.2 (.inl hp)),
      exec_out_of_phase (legality_hash_seq.2 (.inl hp)), exec_out_of_phase outsideDone,
      exec_out_of_phase outsideDone, exec_out_of_phase outsideDone⟩
  case compress =>
    have outsideLoad : legalIn true false false s.phase = .seq := legalIn_load_seq.2 (.inl hp)
    have outsideDone : legalIn false false true s.phase = .seq := legalIn_done_seq.2 (.inr hp)
    exact ⟨exec_out_of_phase outsideLoad, exec_out_of_phase outsideLoad, exec_out_of_phase outsideLoad,
      exec_out_of_phase outsideDone, exec_out_of_phase outsideDone, exec_out_of_phase outsideDone,
      fun ht => exec_out_of_phase (legality_step_seq.2 (.inr (.inr ⟨hp, by rw [ht]; decide⟩))),
      fun ht => exec_out_of_phase (legality_fin_seq.2 (.inr (.inr ⟨hp, ht.ne⟩)))⟩
  case done =>
    have outsideLoad : legalIn true false false s.phase = .seq := legalIn_load_seq.2 (.inr hp)
    exact ⟨exec_out_of_phase outsideLoad, exec_out_of_phase outsideLoad, exec_out_of_phase outsideLoad,
      exec_out_of_phase (legality_step_seq.2 (.inr (.inl hp))), exec_out_of_phase (legality_fin_seq.2 (.inr (.inl hp))),
      exec_out_of_phase (legality_hash_seq.2 (.inr hp))⟩

/-- In FAULT a word that is no command completes with no effect (R152, R207). -/
theorem completeWord_illegal_in_fault {w : Word} {s : State} {e : IllegalWord} (hw : decode w = .error e)
    (hp : s.phase = .fault) : completeWord w s = onlyCompletes s := by
  rw [completeWord, hw, completeIllegal, hp]
  rfl

/-- Settles O9: commands by `exec_in_fault`, ILLEGAL words by `completeWord_illegal_in_fault`. -/
theorem faultIgnoresAllButInitAndNop : Obligations.FaultIgnoresAllButInitAndNop :=
  fun _ hp => ⟨fun _ hinit hnop => exec_in_fault ⟨hnop, hinit⟩ hp, fun _ _ hw => completeWord_illegal_in_fault hw hp⟩

/-- LDM in LOAD with more bytes than fit raises LENGTH, before it looks at its range (R156, R203). -/
theorem exec_ldm_too_long {s : State} (hp : s.phase = .load) (h : 55 < s.len.toNat + s.idlen.toNat) :
    exec .ldm s = onlyRaises .length s := by
  rw [exec_yes (legality_ldm_yes.2 hp), bodyOf, ldmBody, if_pos (ldmTooLong_eq_true.2 h)]
  rfl

/-- Settles O10: LDB by `exec_ldb_full`, LDM by `exec_ldm_too_long`. -/
theorem lengthIsRaisedBeforeAnyWrite : Obligations.LengthIsRaisedBeforeAnyWrite :=
  fun _ b hp => ⟨fun hfull => exec_ldb_full b hp (by rw [hfull]; decide), exec_ldm_too_long hp⟩

end Sys2Proof.Machine

/-! ## Reset and hazards (70_reset_and_hazards.md)

What a reset leaves of the registers (O56) and of the window of an OBF it abandons (O57), and that a pending command
completes unless a reset abandons it (O50). -/

namespace Sys2Proof.Machine

/-! ### What a reset abandons (R230, R231) -/

/-- A reset that is not refused abandons what is pending and sets the registers (R231, log entry 9). -/
theorem step_reset {s : State} {rest : List Event} (h : s.schedule = .reset :: rest) (hr : pendingRefusal s = none) :
    step s = .next (resetBlock (abandonPending { s with schedule := rest })) := by
  have hr' : pendingRefusal { s with schedule := rest } = none := hr
  rw [step_eq_perform h, perform, applyReset, hr']

theorem abandonPending_of_ne_obf {s : State} (h : pendingCommand s ≠ some .obf) : abandonPending s = s := by
  unfold abandonPending
  split
  · next hobf => exact absurd hobf h
  · rfl

/-- Only in DONE is OBF legal, so only there does abandoning it touch memory (R150, R202, R231). -/
theorem abandonPending_obf {s : State} (h : pendingCommand s = some .obf) :
    abandonPending s = if s.phase = .done then abandonLoop s.fbase (min 1040 s.flen.toNat) 0 s else s := by
  rw [abandonPending, h]
  simp only [legality_obf_yes, obfCount_eq]

/-- Settles O56: nothing but an OBF is abandoned with an effect, and `resetBlock` sets the registers. -/
theorem resetSetsEveryRegister : Obligations.ResetSetsEveryRegister := by
  intro s rest h hr hobf
  rw [step_reset h hr, abandonPending_of_ne_obf (by exact hobf)]
  rfl

/-- The loop of an abandoned OBF from byte 0 on, in terms of the state the reset meets: each byte of the range old or
transformed, a contested one a free value, no other byte changed, and the range not visible to others yet (R231, R72,
log entry 18). -/
theorem abandonLoop_mixes {s t : State} {n : Nat} (ht : abandonLoop s.fbase n 0 s = t) (hm : s.mem.wf = true)
    (hn : n ≤ 1040) :
    (∀ i < n, s.contested (engineAddr s.fbase i) = false →
      t.byteAt (engineAddr s.fbase i) = s.byteAt (engineAddr s.fbase i) ∨
      t.byteAt (engineAddr s.fbase i) = s.byteAt (engineAddr s.fbase i) ^^^ keystream s.h i) ∧
    (∀ i < n, s.contested (engineAddr s.fbase i) = true →
      ∃ d, s.draws ≤ d ∧ d < t.draws ∧ t.byteAt (engineAddr s.fbase i) = (Config.freeWord d).setWidth 8) ∧
    (∀ a, inRange s.fbase n a = false → t.byteAt a = s.byteAt a) ∧
    (∀ a, a ∈ t.unseen ↔ (∃ i < n, a = engineAddr s.fbase i) ∨ a ∈ s.unseen) := by
  obtain ⟨-, -, hmixed, hfree, hkept⟩ := abandonLoop_spec s.fbase n 0 s hm (by omega)
  have hunseen := abandonLoop_unseen s.fbase n 0 s
  simp only [Nat.zero_add, ht] at hmixed hfree hkept hunseen
  refine ⟨hmixed, hfree, fun a ha => hkept a fun i hi heq => ?_, hunseen⟩
  have hin : inRange s.fbase n a = true := (inRange_iff (by omega)).2 ⟨i, hi, heq⟩
  exact Bool.noConfusion (ha.symm.trans hin)

/-- Abandoning and resetting sets every register and leaves what stands outside the block, but for the memory an OBF
has touched (R230, R231, log entry 14). -/
theorem resetBlock_abandonPending_frame (s : State) :
    resetBlock (abandonPending s) =
      { State.resetOn s.platform with
        mem := (abandonPending s).mem
        unseen := (abandonPending s).unseen
        draws := (abandonPending s).draws
        schedule := s.schedule
        posted := s.posted
        peers := s.peers
        readData := s.readData } := by
  rw [abandonPending_frame]
  rfl

/-- Settles O57: in DONE the abandoned OBF is `abandonLoop_mixes`, in any other phase it touches nothing. -/
theorem resetAbandoningObfMixesItsWindow : Obligations.ResetAbandoningObfMixesItsWindow := by
  intro s rest h hr hm hobf
  have habandon := abandonPending_obf (s := { s with schedule := rest }) hobf
  refine ⟨_, step_reset h hr, ?_⟩
  rw [resetBlock_abandonPending_frame, habandon]
  by_cases hp : s.phase = .done
  · rw [if_pos hp]
    obtain ⟨hmixed, hfree, hkept, hunseen⟩ :=
      abandonLoop_mixes (s := { s with schedule := rest }) rfl hm (Nat.min_le_left 1040 s.flen.toNat)
    exact ⟨hmixed, fun _ => hfree, hkept, fun hne => absurd hp hne, fun _ => hunseen, rfl⟩
  · rw [if_neg hp]
    exact ⟨fun _ _ _ => .inl rfl, fun hdone => absurd hdone hp, fun _ _ => rfl, fun _ => ⟨rfl, rfl, rfl⟩,
      fun hdone => absurd hdone hp, rfl⟩

/-! ### The steps before a pending command completes (R152, R240) -/

/-- While BUSY = 1 a window write changes OVR only (R43). -/
theorem writeWindow_frame_of_busy {o : BitVec 8} {v : Word} {s : State} (hb : s.busy = true) :
    writeWindow o v s = { s with ovr := (writeWindow o v s).ovr } := by
  cases hr : regAt o with
  | none => rw [writeWindow_unmapped hr]
  | some r => rw [← regOffset_of_regAt hr, writeWindow_busy hb]

/-- `t` is `s` but for OVR and what stands outside the block: the other registers, the pending word and the schedule are
the same. -/
def keepsCommand (s t : State) : Prop :=
  t = { s with
    ovr := t.ovr
    mem := t.mem
    posted := t.posted
    raced := t.raced
    unseen := t.unseen
    peers := t.peers
    draws := t.draws
    readData := t.readData }

theorem keepsCommand_actOf {g : Agent} {act : State → State} {s : State} (h : keepsCommand s (act s)) :
    keepsCommand s (actOf g act s) := by
  rcases actOf_cases g act s with ⟨-, e⟩ | ⟨-, e⟩ <;> rw [e]
  · exact h
  · rfl

/-- While BUSY = 1, every event but the engine's turn and a reset keeps the command and what it works on (R43, R67). -/
theorem perform_keepsCommand {e : Event} {s t : State} (hb : s.busy = true)
    (he : e ∉ ([.engine, .hostWait, .reset] : List Event)) (h : perform e s = .next t) : keepsCommand s t := by
  cases e with
  | engine | hostWait | reset => simp at he
  | hostRead o width =>
    rw [perform] at h
    split at h <;> cases h
    rw [keepsCommand, readWindow_frame]
  | hostWrite o width v =>
    rw [perform] at h
    split at h <;> cases h
    rw [keepsCommand, writeWindow_frame_of_busy ((orderBeforeMmio_busy s).trans hb), orderBeforeMmio_frame]
  | hostLoad a => cases h; rw [keepsCommand, hostLoad_frame]
  | hostStore a b => cases h; rfl
  | postedLands a => cases h; rw [keepsCommand, landOne_frame]
  | hostBarrier => cases h; rw [keepsCommand, landAll_frame]
  | agentLoad g a => cases h; exact keepsCommand_actOf (by rw [keepsCommand, otherLoad_frame])
  | agentStore g a b => cases h; exact keepsCommand_actOf (by rw [keepsCommand, otherStore_frame])
  | peerStarts id range => cases h; exact keepsCommand_actOf rfl
  | peerEnds id => cases h; exact keepsCommand_actOf rfl

/-- A step is answered unless a model refuses it: no step ends in a fault. -/
theorem exists_step_of_defined {s : State} (hd : scheduleDefined s) (hr : pendingRefusal s = none) :
    ∃ t, step s = .next t := by
  cases h : step s with
  | next t => exact ⟨t, rfl⟩
  | fault f => cases f
  | refused r =>
    rcases step_refused h with ⟨-, o, width, rest, hbad, hs⟩ | ⟨hr', -⟩
    · have hok : hostAccessDefined o width = true := by
        rcases hs with hs | ⟨v, hs⟩
        · exact hd (.hostRead o width) (by simp [hs])
        · exact hd (.hostWrite o width v) (by simp [hs])
      exact Bool.noConfusion (hbad.symm.trans hok)
    · exact absurd (hr.symm.trans hr') nofun

/-- The step ends the pending word `w`: by its completion, or by a reset that abandons it (R152, R231). -/
def endsPending (w : Word) (s t : State) : Prop :=
  step s = .next t ∧ t.pend = none ∧
    ((∃ sched, completeWord w { s with schedule := sched } = .next t) ∨ ∃ rest, s.schedule = .reset :: rest)

/-- The step takes the next event and leaves the word pending, its range still not refused. -/
def keepsPending (s t : State) : Prop :=
  step s = .next t ∧ t.pend = s.pend ∧ pendingRefusal t = none ∧ ∃ e, s.schedule = e :: t.schedule

theorem completion_endsPending {w : Word} {s t : State} {sched : List Event}
    (hstep : step s = completeWord w { s with schedule := sched }) (h : step s = .next t) : endsPending w s t :=
  have hc := hstep.symm.trans h
  ⟨h, (completeWord_pend hc).1, .inl ⟨sched, hc⟩⟩

/-- While a word is pending, every step ends it or takes one event off the schedule. -/
theorem step_endsPending_or_keepsPending {w : Word} {s : State} (hp : s.pend = some w) (hd : scheduleDefined s)
    (hr : pendingRefusal s = none) : ∃ t, endsPending w s t ∨ keepsPending s t := by
  obtain ⟨hempty, hengine, hwait⟩ := step_of_pend hp
  obtain ⟨t, ht⟩ := exists_step_of_defined hd hr
  refine ⟨t, ?_⟩
  cases hs : s.schedule with
  | nil => exact .inl (completion_endsPending (hempty hs) ht)
  | cons e rest =>
    by_cases he : e ∈ ([.engine, .hostWait, .reset] : List Event)
    · simp only [List.mem_cons, List.not_mem_nil, or_false] at he
      rcases he with rfl | rfl | rfl
      · exact .inl (completion_endsPending (hengine rest hs) ht)
      · exact .inl (completion_endsPending (hwait rest hs) ht)
      · have hreset := (step_reset hs hr).symm.trans ht
        exact .inl ⟨ht, by cases hreset; rfl, .inr ⟨rest, hs⟩⟩
    · have hkeeps : keepsCommand { s with schedule := rest } t :=
        perform_keepsCommand (State.busy_of_pend_some _ w hp) he ((step_eq_perform hs).symm.trans ht)
      rw [keepsCommand] at hkeeps
      exact .inr ⟨ht, by rw [hkeeps], by rw [hkeeps]; exact hr, e, by rw [hs, hkeeps]⟩

/-! ### A pending command completes (R240) -/

theorem stepsTo_succ_of_step {k : Nat} {s v u : State} (h : stepsTo k s v) (hu : step v = .next u) :
    stepsTo (k + 1) s u := by
  induction k generalizing s with
  | zero => cases h; exact ⟨u, hu, rfl⟩
  | succ k ih =>
    obtain ⟨t, ht, hrun⟩ := h
    exact ⟨t, ht, ih hrun⟩

/-- A pending word is ended after at most as many steps as the schedule has events: each step that does not end it takes
an event. -/
theorem exists_run_to_endsPending {w : Word} {s : State} (hp : s.pend = some w) (hd : scheduleDefined s)
    (hr : pendingRefusal s = none) :
    ∃ k v u, k ≤ s.schedule.length ∧ stepsTo k s v ∧ v.pend = some w ∧ v.schedule ⊆ s.schedule ∧ endsPending w v u := by
  obtain ⟨t, hend | ⟨ht, htp, htr, e, he⟩⟩ := step_endsPending_or_keepsPending hp hd hr
  · exact ⟨0, s, t, Nat.zero_le _, rfl, hp, List.Subset.refl _, hend⟩
  · have hlen : s.schedule.length = t.schedule.length + 1 := by rw [he, List.length_cons]
    have hsub : t.schedule ⊆ s.schedule := he ▸ List.subset_cons_self e t.schedule
    obtain ⟨k, v, u, hk, hrun, hvp, hvsub, hend⟩ :=
      exists_run_to_endsPending (htp.trans hp) (fun x hx => hd x (hsub hx)) htr
    exact ⟨k + 1, v, u, by omega, ⟨t, ht, hrun⟩, hvp, List.Subset.trans hvsub hsub, hend⟩
termination_by s.schedule.length

/-- Settles O50: the word is ended in time, and with no reset in the schedule by its completion. -/
theorem pendingCommandCompletes : Obligations.PendingCommandCompletes := by
  intro s w hp hd hr
  obtain ⟨k, v, u, hk, hrun, hvp, hsub, hstep, hup, hhow⟩ := exists_run_to_endsPending hp hd hr
  refine ⟨⟨k + 1, u, by omega, stepsTo_succ_of_step hrun hstep, State.busy_of_pend_none u hup⟩, fun hnoreset => ?_⟩
  rcases hhow with ⟨sched, hc⟩ | ⟨rest, hreset⟩
  · exact ⟨k, v, u, sched, hk, hrun, hvp, hstep, hc, hup⟩
  · exact absurd (hsub (by simp [hreset])) hnoreset

end Sys2Proof.Machine
